-- ==== Sys2Proof/Word.lean ====
section
/-! DEFINITION. The two bit-vector types of the block: a 32-bit word (value slot, Simple16 word, control
register) and a byte of the encoded buffer (00_scope.md R14). -/

namespace Sys2Proof

/-- A value slot, a Simple16 word or a control register: 32 bits (R14). -/
abbrev Word := BitVec 32

/-- A byte of `EB` and a StreamVByte control byte: 8 bits (R14). -/
abbrev Byte := BitVec 8

end Sys2Proof
end

