-- ==== Sys2Proof/Syntax.lean ====
section
/-! DEFINITION. The instructions: one constructor for each row of spec/opcode_table.json. The block's commands are
the eight rows of format CW (30_encoding.md R91). The other seventeen rows are the items of the two data formats: the
sixteen layouts of a Simple16 word (R101, R103) and the StreamVByte control byte (R111). -/

namespace Sys2Proof

/-- The three streams an encoded item can stand in. The same 32 bits mean a command when written to `CMD` and a
packed word when read as Simple16 data, so a decoder is told which stream it reads. -/
inductive Port where
  /-- Words the host writes to `CMD` (R29, R90). -/
  | command
  /-- Simple16 words in `EB` (R100). -/
  | simple16
  /-- StreamVByte control bytes in `EB` (R110). -/
  | streamVByte
deriving DecidableEq, Repr

/-- Why a word or a byte sequence is no instruction (R94; `tooShort` is the decoder's own). -/
inductive DecodeError where
  /-- Fewer bytes than the item has. -/
  | tooShort
  /-- Bits 23:8 of a command word are not 0. -/
  | reservedBits
  /-- The opcode is not one of R91. -/
  | reservedOpcode
  /-- A `SEQ.*` word whose `N` is not 0. -/
  | seqCount
deriving DecidableEq, Repr

/-- The two codecs, a closed set (R35). -/
inductive Codec where
  | simple16
  | streamVByte
deriving DecidableEq, Repr

/-- One constructor per row of the opcode table. -/
inductive Instr where
  /-- `S16.ENC n`, opcode 0x10 (R91, R152). -/
  | s16Enc (n : BitVec 8)
  /-- `S16.DEC n`, opcode 0x11 (R91, R156). -/
  | s16Dec (n : BitVec 8)
  /-- `SVB.ENC n`, opcode 0x20 (R91, R182). -/
  | svbEnc (n : BitVec 8)
  /-- `SVB.DEC n`, opcode 0x21 (R91, R185). -/
  | svbDec (n : BitVec 8)
  /-- `SEQ.DSTEP`, opcode 0x30 (R91, R204). -/
  | seqDstep
  /-- `SEQ.ESTEP`, opcode 0x31 (R91, R206). -/
  | seqEstep
  /-- `SEQ.DRUN`, opcode 0x32 (R91, R208). -/
  | seqDrun
  /-- `SEQ.ERUN`, opcode 0x33 (R91, R209). -/
  | seqErun
  /-- `S16W.SEL0`: a Simple16 word whose selector is 0 (28 x 1 bits in the default catalogue); `data` is bits 27:0 (R101, R103). -/
  | s16wSel0 (data : BitVec 28)
  /-- `S16W.SEL1`: a Simple16 word whose selector is 1 (14 x 2 bits in the default catalogue); `data` is bits 27:0 (R101, R103). -/
  | s16wSel1 (data : BitVec 28)
  /-- `S16W.SEL2`: a Simple16 word whose selector is 2 (9 x 3 bits in the default catalogue); `data` is bits 27:0 (R101, R103). -/
  | s16wSel2 (data : BitVec 28)
  /-- `S16W.SEL3`: a Simple16 word whose selector is 3 (7 x 4 bits in the default catalogue); `data` is bits 27:0 (R101, R103). -/
  | s16wSel3 (data : BitVec 28)
  /-- `S16W.SEL4`: a Simple16 word whose selector is 4 (5 x 5 bits in the default catalogue); `data` is bits 27:0 (R101, R103). -/
  | s16wSel4 (data : BitVec 28)
  /-- `S16W.SEL5`: a Simple16 word whose selector is 5 (4 x 6 bits in the default catalogue); `data` is bits 27:0 (R101, R103). -/
  | s16wSel5 (data : BitVec 28)
  /-- `S16W.SEL6`: a Simple16 word whose selector is 6 (4 x 7 bits in the default catalogue); `data` is bits 27:0 (R101, R103). -/
  | s16wSel6 (data : BitVec 28)
  /-- `S16W.SEL7`: a Simple16 word whose selector is 7 (3 x 8 bits in the default catalogue); `data` is bits 27:0 (R101, R103). -/
  | s16wSel7 (data : BitVec 28)
  /-- `S16W.SEL8`: a Simple16 word whose selector is 8 (3 x 9 bits in the default catalogue); `data` is bits 27:0 (R101, R103). -/
  | s16wSel8 (data : BitVec 28)
  /-- `S16W.SEL9`: a Simple16 word whose selector is 9 (2 x 10 bits in the default catalogue); `data` is bits 27:0 (R101, R103). -/
  | s16wSel9 (data : BitVec 28)
  /-- `S16W.SEL10`: a Simple16 word whose selector is 10 (2 x 11 bits in the default catalogue); `data` is bits 27:0 (R101, R103). -/
  | s16wSel10 (data : BitVec 28)
  /-- `S16W.SEL11`: a Simple16 word whose selector is 11 (2 x 12 bits in the default catalogue); `data` is bits 27:0 (R101, R103). -/
  | s16wSel11 (data : BitVec 28)
  /-- `S16W.SEL12`: a Simple16 word whose selector is 12 (2 x 13 bits in the default catalogue); `data` is bits 27:0 (R101, R103). -/
  | s16wSel12 (data : BitVec 28)
  /-- `S16W.SEL13`: a Simple16 word whose selector is 13 (2 x 14 bits in the default catalogue); `data` is bits 27:0 (R101, R103). -/
  | s16wSel13 (data : BitVec 28)
  /-- `S16W.SEL14`: a Simple16 word whose selector is 14 (1 x 16 bits in the default catalogue); `data` is bits 27:0 (R101, R103). -/
  | s16wSel14 (data : BitVec 28)
  /-- `S16W.SEL15`: a Simple16 word whose selector is 15 (1 x 28 bits in the default catalogue); `data` is bits 27:0 (R101, R103). -/
  | s16wSel15 (data : BitVec 28)
  /-- `SVBC`: a StreamVByte control byte, `tk` the tag of the group's value `k` (R111). -/
  | svbc (t0 t1 t2 t3 : BitVec 2)
deriving DecidableEq, Repr

end Sys2Proof
end

