-- ==== Sys2Proof/WellFormed.lean ====
section
/-! DEFINITION. Which instructions the block runs with an effect of their own: the count of a block command is 1 to
128 (30_encoding.md R95). Every other operand value the encodings admit is meaningful: every selector is a layout
(R156) and every control byte is a tag quadruple (R185). -/

namespace Sys2Proof

/-- The most values one block holds (00_scope.md R6). -/
def blockSize : Nat := 128

/-- A legal element count (R6, R95). -/
abbrev countLegal (n : BitVec 8) : Prop := 1 ≤ n.toNat ∧ n.toNat ≤ blockSize

/-- Well-formed instructions: a block command's count is legal. -/
def Instr.wf : Instr → Bool
  | .s16Enc n => decide (countLegal n)
  | .s16Dec n => decide (countLegal n)
  | .svbEnc n => decide (countLegal n)
  | .svbDec n => decide (countLegal n)
  | .seqDstep => true
  | .seqEstep => true
  | .seqDrun => true
  | .seqErun => true
  | .s16wSel0 _ => true
  | .s16wSel1 _ => true
  | .s16wSel2 _ => true
  | .s16wSel3 _ => true
  | .s16wSel4 _ => true
  | .s16wSel5 _ => true
  | .s16wSel6 _ => true
  | .s16wSel7 _ => true
  | .s16wSel8 _ => true
  | .s16wSel9 _ => true
  | .s16wSel10 _ => true
  | .s16wSel11 _ => true
  | .s16wSel12 _ => true
  | .s16wSel13 _ => true
  | .s16wSel14 _ => true
  | .s16wSel15 _ => true
  | .svbc _ _ _ _ => true

end Sys2Proof
end

