-- ==== Sys2Proof/Decode.lean ====
section
/-! DEFINITION. Byte order, the decoders of the three streams, total on any bytes and rejecting by name, and the
encoder (30_encoding.md R90 to R96, R101, R111; 20_memory.md R61). -/

namespace Sys2Proof

/-! Byte order: what stands in `EB` is little-endian (R61). A command word is written to `CMD` whole and has no byte order
(R62); that its byte form here is least significant byte first is DESIGN CHOICE (log 20). -/

/-- `LE_k(v)`: the `k` low bytes of `v`, least significant first (R12). -/
def leBytes : Nat → Nat → List Byte
  | 0, _ => []
  | k + 1, v => BitVec.ofNat 8 v :: leBytes k (v / 256)

/-- The unsigned integer whose little-endian bytes are given: the sum of `b_i * 256^i` (R12). -/
def ofLeBytes : List Byte → Nat
  | [] => 0
  | b :: bs => b.toNat + 256 * ofLeBytes bs

/-! Fields. -/

/-- `OP`, bits 31:24 of a command word (R90). -/
def fieldOp (w : Word) : BitVec 8 := w.extractLsb' 24 8

/-- `Z`, bits 23:8 of a command word (R90). -/
def fieldZ (w : Word) : BitVec 16 := w.extractLsb' 8 16

/-- `N`, bits 7:0 of a command word (R90). -/
def fieldN (w : Word) : BitVec 8 := w.extractLsb' 0 8

/-- `SEL`, bits 31:28 of a Simple16 word (R101). -/
def fieldSel (w : Word) : BitVec 4 := w.extractLsb' 28 4

/-- `DATA`, bits 27:0 of a Simple16 word (R101). -/
def fieldData (w : Word) : BitVec 28 := w.extractLsb' 0 28

/-- Tag `T_k`, bits `[2k+1 : 2k]` of a control byte (R111). -/
def fieldTag (c : Byte) (k : Nat) : BitVec 2 := c.extractLsb' (2 * k) 2

/-! Decoders. -/

/-- How a command word is read, in the order of R96; what it rejects is the illegal words of R94. -/
def decodeCommand (w : Word) : Except DecodeError Instr :=
  if fieldZ w ≠ 0 then .error .reservedBits
  else match (fieldOp w).toNat with
    | 0x10 => .ok (.s16Enc (fieldN w))
    | 0x11 => .ok (.s16Dec (fieldN w))
    | 0x20 => .ok (.svbEnc (fieldN w))
    | 0x21 => .ok (.svbDec (fieldN w))
    | 0x30 => if fieldN w = 0 then .ok .seqDstep else .error .seqCount
    | 0x31 => if fieldN w = 0 then .ok .seqEstep else .error .seqCount
    | 0x32 => if fieldN w = 0 then .ok .seqDrun else .error .seqCount
    | 0x33 => if fieldN w = 0 then .ok .seqErun else .error .seqCount
    | _ => .error .reservedOpcode

/-- A Simple16 word as an instruction: its selector names the layout; no word is illegal (R101, R156). -/
def decodeS16Word (w : Word) : Instr :=
  match (fieldSel w).toNat with
  | 0 => .s16wSel0 (fieldData w)
  | 1 => .s16wSel1 (fieldData w)
  | 2 => .s16wSel2 (fieldData w)
  | 3 => .s16wSel3 (fieldData w)
  | 4 => .s16wSel4 (fieldData w)
  | 5 => .s16wSel5 (fieldData w)
  | 6 => .s16wSel6 (fieldData w)
  | 7 => .s16wSel7 (fieldData w)
  | 8 => .s16wSel8 (fieldData w)
  | 9 => .s16wSel9 (fieldData w)
  | 10 => .s16wSel10 (fieldData w)
  | 11 => .s16wSel11 (fieldData w)
  | 12 => .s16wSel12 (fieldData w)
  | 13 => .s16wSel13 (fieldData w)
  | 14 => .s16wSel14 (fieldData w)
  | _ => .s16wSel15 (fieldData w)

/-- A StreamVByte control byte as an instruction: four tags; no byte is illegal (R111, R185). -/
def decodeControlByte (c : Byte) : Instr :=
  .svbc (fieldTag c 0) (fieldTag c 1) (fieldTag c 2) (fieldTag c 3)

/-- How many bytes one item of a stream has (R90, R100, R111). -/
def Port.size : Port → Nat
  | .command => 4
  | .simple16 => 4
  | .streamVByte => 1

/-- The decoder: the item of stream `p` that the bytes begin with, and the bytes after it. The bytes of a command word are
taken least significant first, DESIGN CHOICE (log 20): no step reads a command word as bytes. -/
def decode (p : Port) (bs : List Byte) : Except DecodeError (Instr × List Byte) :=
  if bs.length < p.size then .error .tooShort
  else
    let v := ofLeBytes (bs.take p.size)
    let rest := bs.drop p.size
    match p with
    | .command => (decodeCommand (BitVec.ofNat 32 v)).map fun i => (i, rest)
    | .simple16 => .ok (decodeS16Word (BitVec.ofNat 32 v), rest)
    | .streamVByte => .ok (decodeControlByte (BitVec.ofNat 8 v), rest)

/-! Encoder. -/

/-- The command word with an opcode and a count, `Z` being 0 (R90). -/
def commandWord (op n : BitVec 8) : Word := op ++ (0 : BitVec 16) ++ n

/-- The Simple16 word with a selector and a data field (R101). -/
def s16Word (sel : BitVec 4) (data : BitVec 28) : Word := sel ++ data

/-- The control byte with four tags (R111). -/
def controlByte (t0 t1 t2 t3 : BitVec 2) : Byte := t3 ++ t2 ++ t1 ++ t0

/-- The stream an instruction stands in. -/
def Instr.port : Instr → Port
  | .s16Enc _ => .command
  | .s16Dec _ => .command
  | .svbEnc _ => .command
  | .svbDec _ => .command
  | .seqDstep => .command
  | .seqEstep => .command
  | .seqDrun => .command
  | .seqErun => .command
  | .s16wSel0 _ => .simple16
  | .s16wSel1 _ => .simple16
  | .s16wSel2 _ => .simple16
  | .s16wSel3 _ => .simple16
  | .s16wSel4 _ => .simple16
  | .s16wSel5 _ => .simple16
  | .s16wSel6 _ => .simple16
  | .s16wSel7 _ => .simple16
  | .s16wSel8 _ => .simple16
  | .s16wSel9 _ => .simple16
  | .s16wSel10 _ => .simple16
  | .s16wSel11 _ => .simple16
  | .s16wSel12 _ => .simple16
  | .s16wSel13 _ => .simple16
  | .s16wSel14 _ => .simple16
  | .s16wSel15 _ => .simple16
  | .svbc _ _ _ _ => .streamVByte

/-- The bits of an instruction as an unsigned number, from the tables of R91, R101 and R111. -/
def encodeBits : Instr → Nat
  | .s16Enc n => (commandWord 0x10 n).toNat
  | .s16Dec n => (commandWord 0x11 n).toNat
  | .svbEnc n => (commandWord 0x20 n).toNat
  | .svbDec n => (commandWord 0x21 n).toNat
  | .seqDstep => (commandWord 0x30 0).toNat
  | .seqEstep => (commandWord 0x31 0).toNat
  | .seqDrun => (commandWord 0x32 0).toNat
  | .seqErun => (commandWord 0x33 0).toNat
  | .s16wSel0 d => (s16Word 0 d).toNat
  | .s16wSel1 d => (s16Word 1 d).toNat
  | .s16wSel2 d => (s16Word 2 d).toNat
  | .s16wSel3 d => (s16Word 3 d).toNat
  | .s16wSel4 d => (s16Word 4 d).toNat
  | .s16wSel5 d => (s16Word 5 d).toNat
  | .s16wSel6 d => (s16Word 6 d).toNat
  | .s16wSel7 d => (s16Word 7 d).toNat
  | .s16wSel8 d => (s16Word 8 d).toNat
  | .s16wSel9 d => (s16Word 9 d).toNat
  | .s16wSel10 d => (s16Word 10 d).toNat
  | .s16wSel11 d => (s16Word 11 d).toNat
  | .s16wSel12 d => (s16Word 12 d).toNat
  | .s16wSel13 d => (s16Word 13 d).toNat
  | .s16wSel14 d => (s16Word 14 d).toNat
  | .s16wSel15 d => (s16Word 15 d).toNat
  | .svbc t0 t1 t2 t3 => (controlByte t0 t1 t2 t3).toNat

/-- The encoder: the bytes of an instruction, least significant first: R61 for a Simple16 word in `EB`, DESIGN CHOICE
(log 20) for a command word, to which the spec gives no byte form (R62). -/
def encode (i : Instr) : List Byte := leBytes i.port.size (encodeBits i)

/-! The host's view: an instruction's bits as one number, with the row's width. -/

/-- The instruction the decoder reads from the bits `w` of an opcode-table row `nbits` wide. The table's 32-bit rows
share words (`S16.ENC n` is `0x100000nn`, and so is a `S16W.SEL1` word): a word that is a legal command is read as
the command, any other 32-bit word as a Simple16 word (DESIGN CHOICE, log 6). -/
def decodeTableWord (nbits w : Nat) : Option Instr :=
  if nbits = 32 then
    match decode .command (leBytes 4 w) with
    | .ok (i, _) => some i
    | .error _ =>
      match decode .simple16 (leBytes 4 w) with
      | .ok (i, _) => some i
      | .error _ => none
  else if nbits = 8 then
    match decode .streamVByte (leBytes 1 w) with
    | .ok (i, _) => some i
    | .error _ => none
  else none

end Sys2Proof
end

