-- ==== Sys2Proof/Config.lean ====
section
/-! DEFINITION. The implementation parameters of 00_scope.md R9, which the spec makes arguments of the model, and
the free values: what the spec leaves unspecified after reset (10_state.md R43). -/

namespace Sys2Proof

/-- One layout of the Simple16 catalogue: how many fields a word carries and how wide each is (R103). -/
structure Layout where
  cnt : Nat
  wid : Nat
deriving DecidableEq, Repr

/-- The parameter `S16_CATALOG` (R9): entry `s` is the layout selector `s` names. -/
abbrev Catalog := Vector Layout 16

/-- The parameter `NONCANONICAL_DECODE` of 93_implementation_defined.md U1, with its two settings. -/
inductive NoncanonicalDecode where
  /-- The decoder computes the functions of R156 and R185 on whatever bytes exist. -/
  | natural
  /-- A decode whose bytes are not canonical for its codec and count has no meaning. -/
  | refuse
deriving DecidableEq, Repr

/-- The parameters of one build of the block (R9, R42). `PTR_W` is fixed at 32 and `HOST_BINDING` has no rule
that depends on it, so neither stands here. -/
structure Params where
  /-- `EB_CAP`: most bytes the encoded buffer can hold. -/
  ebCap : Nat
  /-- `LIN_CAP`: most values the list-input store can hold. -/
  linCap : Nat
  /-- `LOUT_CAP`: most values the list-output store can hold. -/
  loutCap : Nat
  /-- `S16_CATALOG`. -/
  catalog : Catalog
  /-- `NONCANONICAL_DECODE`. -/
  noncanonical : NoncanonicalDecode
deriving DecidableEq, Repr

/-- The layout selector `s` names, `(CNT[s], WID[s])` (R103). -/
def Catalog.layout (cat : Catalog) (s : Fin 16) : Layout := cat[s.1]

/-- The widest width of a catalogue, `S16_WMAX`: that of its last entry (R104 (d)). -/
def wmax (cat : Catalog) : Nat := (cat.layout 15).wid

/-- What any catalogue must satisfy, conditions (a) to (d) of R104. -/
abbrev Catalog.wf (cat : Catalog) : Prop :=
  (∀ s : Fin 16, 1 ≤ (cat.layout s).cnt ∧ 1 ≤ (cat.layout s).wid ∧ (cat.layout s).cnt * (cat.layout s).wid ≤ 28) ∧
  cat.layout 0 = ⟨28, 1⟩ ∧
  (∀ s t : Fin 16, s < t → (cat.layout t).cnt ≤ (cat.layout s).cnt ∧ (cat.layout s).wid < (cat.layout t).wid) ∧
  (cat.layout 15).cnt = 1

/-- The bounds R9 puts on the parameters. -/
abbrev Params.wf (p : Params) : Prop :=
  (1 ≤ p.ebCap ∧ p.ebCap ≤ 2 ^ 32 - 1) ∧ p.linCap ≤ 2 ^ 32 - 1 ∧ p.loutCap ≤ 2 ^ 32 - 1 ∧ p.catalog.wf

/-- The default catalogue, the table of R103. -/
def Config.catalog : Catalog :=
  #v[⟨28, 1⟩, ⟨14, 2⟩, ⟨9, 3⟩, ⟨7, 4⟩, ⟨5, 5⟩, ⟨4, 6⟩, ⟨4, 7⟩, ⟨3, 8⟩,
     ⟨3, 9⟩, ⟨2, 10⟩, ⟨2, 11⟩, ⟨2, 12⟩, ⟨2, 13⟩, ⟨2, 14⟩, ⟨1, 16⟩, ⟨1, 28⟩]

/-- The parameters `State.reset` carries: the spec's default catalogue and default `natural` decode; DESIGN CHOICE
(log 2): the OPEN capacities at the largest value R9 allows. -/
def Config.params : Params where
  ebCap := 2 ^ 32 - 1
  linCap := 2 ^ 32 - 1
  loutCap := 2 ^ 32 - 1
  catalog := Config.catalog
  noncanonical := .natural

/-! Free values (DESIGN CHOICE, log 1): nothing constrains what a slot or a scratch location holds after reset
number `epoch` until a rule writes it. They depend on nothing else, so not on which instance it is (log 19). -/

/-- `IN[i]` after reset number `epoch` (R43: unspecified). -/
opaque Config.freeIn : Nat → Nat → Word

/-- `OUT[i]` after reset number `epoch` (R43: unspecified). -/
opaque Config.freeOut : Nat → Nat → Word

/-- Scratch `TMP[j]` after reset number `epoch` (R41, R43: unspecified). -/
opaque Config.freeTmp : Nat → Nat → Word

/-- Scratch `L[k]`, the lane lengths, after reset number `epoch` (R43: unspecified). -/
opaque Config.freeLen : Nat → Nat → Nat

/-- Scratch `STG[i]` after reset number `epoch` (R41, R43: unspecified). -/
opaque Config.freeStg : Nat → Nat → Byte

end Sys2Proof
end

