-- ==== Sys2Proof/Machine/State.lean ====
section
/-! DEFINITION. The state of one instance (10_state.md R21 to R43), its reset, the host's moves, and the reasons a step
can stop. -/

namespace Sys2Proof.Machine

/-- The causes recorded in `FAULT` (60_exceptions.md R261). Codes 10 to 255 are never recorded, so there is no
constructor for them. A recorded cause is a next state of the machine, not a stop of the model. -/
inductive Cause where
  | noFault
  | illegalCommand
  | badCount
  | representationOverflow
  | encodeOverflow
  | decodeUnderrun
  | seqDone
  | badCodec
  | listUnderrun
  | listOverflow
deriving DecidableEq, Repr

/-- One item of encoded data as a codec takes it apart: a Simple16 word (R101) or a StreamVByte control byte
(R111). -/
inductive DataUnit where
  | word (w : Word)
  | tags (c : Byte)
deriving DecidableEq, Repr

/-- The host's moves (44_host_access.md) and reset. A slot index is 0 to 127 by its type: the host has no other move
on `IN` or `OUT` (R230). -/
inductive Move where
  /-- Write `v` to control register `r`; `r = 0` is `CMD` and starts a command (R236). -/
  | wr (r : Nat) (v : Word)
  /-- Read control register `r` (R236). -/
  | rd (r : Nat)
  /-- Write `IN[i]` (R231). -/
  | inWr (i : Fin 128) (v : Word)
  /-- Read `IN[i]` (R231). -/
  | inRd (i : Fin 128)
  /-- Read `OUT[i]` (R232). -/
  | outRd (i : Fin 128)
  /-- Append a byte to `EB` (R233). -/
  | ebApp (b : Byte)
  /-- Read `EB[a]` (R237). -/
  | ebRd (a : Nat)
  /-- Append a value to `LIN` (R234). -/
  | linApp (v : Word)
  /-- Read `LOUT[i]` (R235). -/
  | loutRd (i : Nat)
  /-- Assert reset (R300). -/
  | reset
  /-- DESIGN CHOICE (log 5): hand one data unit to the codec that takes it apart, outside a command. -/
  | present (u : DataUnit)
deriving DecidableEq, Repr

/-- The encoded buffer: bytes keyed by their index. -/
abbrev Memory := List Host.Cell

/-- The one canonical form: the listed indexes are 0, 1, ... in order with none left out, since `EB` is append-only
and the bytes `EB[0..EBLEN-1]` exist (R24). In particular they rise strictly. No entry can equal what an unlisted
index reads as, because that is no value. -/
abbrev Memory.wf (m : Memory) : Prop := m.map (·.1) = List.range m.length

/-- What an unlisted index reads as: nothing, "no byte at or beyond EBLEN exists" (R24). -/
def Memory.unlisted : Option Byte := none

/-- Scratch (R41): working storage no command reads before writing it. `lens` is the StreamVByte decoder's four lane
lengths `L_k` of the group in hand (R185, R188). -/
structure Scratch where
  /-- The temporary decode buffer `TMP[0..27]`. -/
  tmp : Vector Word 28
  /-- The lane lengths `L[0..3]`. -/
  lens : Vector Nat 4
  /-- The byte staging area `STG` of 544 bytes. -/
  stg : Vector Byte 544
deriving DecidableEq, Repr

/-- The whole state of one instance, with the build parameters it was made with and the host's side of its moves. -/
structure State where
  /-- The parameters (R9), which no step changes. -/
  params : Params
  /-- `IN[0..127]` (R22). -/
  inBuf : Vector Word 128
  /-- `OUT[0..127]` (R23). -/
  outBuf : Vector Word 128
  /-- `EB`; its length is `EBLEN` (R24, R38). -/
  eb : Memory
  /-- `LIN`; its length is `LINLEN` (R27, R39). -/
  lin : List Word
  /-- `LOUT`; its length is `LOUTLEN` (R27, R39). -/
  lout : List Word
  /-- `FAULT` (R31). -/
  fault : Cause
  /-- `FINFO` (R32). -/
  finfo : Word
  /-- `SUM` (R33). -/
  sum : Word
  /-- `CODEC` (R34). -/
  codec : Word
  /-- `REM` (R36). -/
  rem : Word
  /-- `CUR` (R25, R37). -/
  cur : Word
  /-- `LRP` (R39). -/
  lrp : Word
  /-- Scratch (R41), not architectural. -/
  scratch : Scratch
  /-- The model's own: how many resets came before, which picks the free values of R43 (log 1). -/
  epoch : Nat
  /-- The model's own: the host's moves still to come, first one first (log 4). -/
  inbox : List Move
  /-- The model's own: the values host reads returned, latest first (log 4). -/
  reads : List Word
deriving DecidableEq, Repr

/-- Scratch after reset number `epoch`: unspecified (R43), so free values (log 1). -/
def Scratch.unspecified (epoch : Nat) : Scratch where
  tmp := Vector.ofFn fun j => Config.freeTmp epoch j.1
  lens := Vector.ofFn fun k => Config.freeLen epoch k.1
  stg := Vector.ofFn fun i => Config.freeStg epoch i.1

/-- An instance built with parameters `p` after reset number `epoch` (R43, R300), the host having no move pending.
DESIGN CHOICE (log 19): the spec leaves `IN`, `OUT` and scratch unspecified in each instance and after each reset; here
two instances, or two histories of one, that stand after the same reset number hold the same unspecified contents. -/
def State.resetWith (p : Params) (epoch : Nat) : State where
  params := p
  inBuf := Vector.ofFn fun i => Config.freeIn epoch i.1
  outBuf := Vector.ofFn fun i => Config.freeOut epoch i.1
  eb := []
  lin := []
  lout := []
  fault := .noFault
  finfo := 0
  sum := 0
  codec := 0
  rem := 0
  cur := 0
  lrp := 0
  scratch := Scratch.unspecified epoch
  epoch := epoch
  inbox := []
  reads := []

/-- The machine right after reset (R43, R300): the default parameters and the first reset. -/
def State.reset : State := State.resetWith Config.params 0

/-- Why the machine stops. The faults of R261 are NOT here: they are recorded in `FAULT` and the machine goes on. -/
inductive Fault where
  /-- Raised by a host read of `EB[a]` with `a ≥ EBLEN`: the byte does not exist and the host has no such move (R24,
  R230, R237). Safe: the model stops where the spec gives nothing. -/
  | noSuchByte (a : Nat)
  /-- Raised by a host read of `LOUT[i]` with `i ≥ LOUTLEN`: the host has no such move (R230, R235). Safe. -/
  | noSuchListValue (i : Nat)
deriving DecidableEq, Repr

/-- Why the model gives a step no meaning. -/
inductive Refusal where
  /-- An instruction with no meaning yet, by mnemonic. Raised by `exec` alone. Safe. -/
  | notModelled (mnemonic : String)
  /-- Raised by a decode whose bytes exist but are not canonical for its codec and count, and ONLY in a build whose
  parameter `NONCANONICAL_DECODE` is `refuse` (93_implementation_defined.md U1). Safe. -/
  | noncanonicalDecode
deriving DecidableEq, Repr

end Sys2Proof.Machine
end

