-- ==== Sys2Proof/Machine/Ops.lean ====
section
/-! DEFINITION. The named operations over the encoded buffer, the slot buffers and the fault registers, with raising
a fault (60_exceptions.md R262) and reset (70_reset_and_hazards.md R300), the only way out of the faulted state. -/

namespace Sys2Proof.Machine

/-- The answer of every step of this machine. -/
abbrev Answer := Host.Outcome State Fault Refusal

/-! The encoded buffer (R24, R61, R65, R66). -/

/-- The byte at index `a`, if it exists. -/
def Memory.byteAt (m : Memory) (a : Nat) : Option Byte := (m.lookup a).or Memory.unlisted

/-- The `k` bytes from index `a` on, if all of them exist. -/
def Memory.bytesAt (m : Memory) (a : Nat) : Nat → Option (List Byte)
  | 0 => some []
  | k + 1 => do
    let b ← m.byteAt a
    let bs ← Memory.bytesAt m (a + 1) k
    some (b :: bs)

/-- `MemRead(a, k)`: the unsigned integer of `k` little-endian bytes, defined only when `a + k ≤ EBLEN` (R12, R65). -/
def Memory.read (m : Memory) (a k : Nat) : Option Nat :=
  if m.length < a + k then none else (m.bytesAt a k).map ofLeBytes

/-- The cells that hold the bytes `bs` from index `a` on. -/
def cellsFrom (a : Nat) : List Byte → List Host.Cell
  | [] => []
  | b :: bs => (a, b) :: cellsFrom (a + 1) bs

/-- `MemAppend(bs)`: the bytes go to `EBLEN` and on, and nothing below is touched (R12, R24). -/
def Memory.append (m : Memory) (bs : List Byte) : Memory := m ++ cellsFrom m.length bs

/-! Slot buffers. -/

/-- Write the listed values to slots 0, 1, ... and leave the other slots as they were. -/
def overwrite {α : Type} {n : Nat} (v : Vector α n) (l : List α) : Vector α n :=
  Vector.ofFn fun i => (l[i.1]?).getD v[i]

/-! Faults. -/

/-- The code of a cause in `FAULT[7:0]` (R261). -/
def Cause.code : Cause → Word
  | .noFault => 0
  | .illegalCommand => 1
  | .badCount => 2
  | .representationOverflow => 3
  | .encodeOverflow => 4
  | .decodeUnderrun => 5
  | .seqDone => 6
  | .badCodec => 7
  | .listUnderrun => 8
  | .listOverflow => 9

/-- `raise F(info)` from the state before the command or iteration: the two fault registers are written and nothing
else changes (R262). No mode changes and control goes nowhere. -/
def State.raise (s : State) (f : Cause) (info : Word) : State := { s with fault := f, finfo := info }

/-- A command or move that ends by raising a fault. -/
def fail (f : Cause) (info : Word) (s : State) : Answer := .next (s.raise f info)

/-- Reset (R300): every piece of the instance's state to its reset value, the slots and scratch unspecified anew. The
build's parameters and the host's side of its moves are not the block's state and stay. -/
def State.resetBlock (s : State) : State :=
  { State.resetWith s.params (s.epoch + 1) with inbox := s.inbox, reads := s.reads }

/-- While `FAULT ≠ 0` a command or host write is ignored and changes nothing (R130 line 1, R230, R263). -/
def ifAccepting (s : State) (k : Answer) : Answer := if s.fault = .noFault then k else .next s

/-- The value a host read returns is handed to the host and the block does not change (R68). -/
def State.answerRead (s : State) (v : Word) : State := { s with reads := v :: s.reads }

/-! Scratch. -/

/-- The bit a field of a Simple16 word starts at: field `j` of width `W` is shifted left by `28 - (j+1)*W` (R102). -/
def laneShift (width j : Nat) : Nat := 28 - (j + 1) * width

/-- Field `j` of width `W` of a word: `(w >> (28 - (j+1)*W)) & (2^W - 1)` (R102, R156). -/
def laneOf (w : Word) (width j : Nat) : Word :=
  (w >>> laneShift width j) &&& BitVec.ofNat 32 (2 ^ width - 1)

/-- The layout a selector names. -/
def layoutOf (cat : Catalog) (sel : BitVec 4) : Layout := cat.layout ⟨sel.toNat, sel.isLt⟩

/-- The unpacker: all the fields of a word, cut at once by its selector's layout (R156, R159). -/
def unpackWord (cat : Catalog) (w : Word) : List Word :=
  let l := layoutOf cat (fieldSel w)
  (List.range l.cnt).map (laneOf w l.wid)

/-- The data bytes of lane `k` by its tag: `T_k + 1` (R112, R185). -/
def tagLength (c : Byte) (k : Nat) : Nat := (fieldTag c k).toNat + 1

/-- What taking one data unit apart leaves in scratch: a word's fields in `TMP` (R156), a control byte's four lane
lengths in `L` (R185). -/
def Scratch.absorb (cat : Catalog) (sc : Scratch) : DataUnit → Scratch
  | .word w => { sc with tmp := overwrite sc.tmp (unpackWord cat w) }
  | .tags c => { sc with lens := Vector.ofFn fun k => tagLength c k.1 }

/-- A codec takes one data unit apart outside a command; ignored while faulted (log 5). -/
def presentUnit (u : DataUnit) (s : State) : Answer :=
  ifAccepting s (.next { s with scratch := s.scratch.absorb s.params.catalog u })

end Sys2Proof.Machine
end

