-- ==== Sys2Proof/Machine/Operands.lean ====
section
/-! DEFINITION. The operands of commands (30_encoding.md R92) and the control registers as operands of host moves
(10_state.md R28 to R40). -/

namespace Sys2Proof.Machine

/-- The count operand of a block command, `n = zext(N)`, checked to be 1 to 128; otherwise `BadCount` with `N` as
information (R92, R95, R265). -/
def withCount (n : BitVec 8) (s : State) (k : Nat → Answer) : Answer :=
  if countLegal n then k n.toNat else fail .badCount (n.setWidth 32) s

/-- The values operand of an encode command: `v[i] = IN[i]`, `i < n` (R131). -/
def State.inValues (s : State) (n : Nat) : List Word := s.inBuf.toList.take n

/-- `EBLEN`, `LINLEN`, `LOUTLEN` as registers. -/
def State.ebLen (s : State) : Word := BitVec.ofNat 32 s.eb.length
def State.linLen (s : State) : Word := BitVec.ofNat 32 s.lin.length
def State.loutLen (s : State) : Word := BitVec.ofNat 32 s.lout.length

/-- The codec a `SEQ.*` command dispatches on: 0 Simple16, 1 StreamVByte, none other (R34, R202). -/
def codecOf (r : Word) : Option Codec :=
  if r = 0 then some .simple16 else if r = 1 then some .streamVByte else none

/-- The block size of a driver step, `min(128, REM)` (R201). -/
def State.stepSize (s : State) : Nat := min blockSize s.rem.toNat

/-- The chunk an encode step takes, `LIN[LRP .. LRP+n-1]` (R206). -/
def State.chunk (s : State) (n : Nat) : List Word := (s.lin.drop s.lrp.toNat).take n

/-- The sum of a chunk modulo 2^32 (R143, R206). -/
def sumOf (v : List Word) : Word := v.foldl (· + ·) 0

end Sys2Proof.Machine
end

