-- ==== Sys2Proof/Machine/Flags.lean ====
section
/-! DEFINITION. `STATUS`, the block's only flags, computed at the read (10_state.md R30), and the control registers'
read and write (R28 to R40, R236). -/

namespace Sys2Proof.Machine

/-- `STATUS.FAULTED`, bit 0 (R30). -/
def State.faulted (s : State) : Bool := decide (s.fault ≠ .noFault)

/-- `STATUS.PENDING`, bit 1 (R30, R36). -/
def State.pending (s : State) : Bool := decide (s.rem ≠ 0)

/-- `STATUS`: bit 0 `FAULTED`, bit 1 `PENDING`, bits 31:2 zero (R30). -/
def State.status (s : State) : Word :=
  (BitVec.ofBool s.faulted).setWidth 32 ||| ((BitVec.ofBool s.pending).setWidth 32 <<< 1)

/-- A read of control register `r`, any number: `CMD` and the reserved numbers read as 0 (R28 to R40, R236). -/
def State.readReg (s : State) (r : Nat) : Word :=
  match r with
  | 1 => s.status
  | 2 => s.fault.code
  | 3 => s.finfo
  | 4 => s.sum
  | 5 => s.codec
  | 6 => s.rem
  | 7 => s.cur
  | 8 => s.ebLen
  | 9 => s.lrp
  | 10 => s.linLen
  | 11 => s.loutLen
  | _ => 0

/-- A write of a control register other than `CMD`: the five writable registers store the 32 bits as given, a
read-only or reserved register ignores the write (R40, R236). -/
def State.writeReg (s : State) (r : Nat) (v : Word) : State :=
  match r with
  | 4 => { s with sum := v }
  | 5 => { s with codec := v }
  | 6 => { s with rem := v }
  | 7 => { s with cur := v }
  | 9 => { s with lrp := v }
  | _ => s

end Sys2Proof.Machine
end

