-- ==== Sys2Proof/Machine/Simple16.lean ====
section
/-! DEFINITION. The Simple16 codec's three units (41_simple16.md): the bit-width selector, the packer and the
unpacker, as functions of the values or of the encoded buffer. -/

namespace Sys2Proof.Machine

/-- Feasibility of selector `s` for the values left: each of the first `min(CNT[s], r)` is below `2^WID[s]` (R151). -/
def feasible (cat : Catalog) (v : List Word) (s : Fin 16) : Bool :=
  (v.take (cat.layout s).cnt).all fun x => decide (x.toNat < 2 ^ (cat.layout s).wid)

/-- The selector of the next word: the least feasible one, if any is (R152, R153). -/
def selectLayout (cat : Catalog) (v : List Word) : Option (Fin 16) :=
  (List.finRange 16).find? (feasible cat v)

/-- The packer's fields: value `i` of the list goes to lane `j + i` (R102, R152). -/
def packLanes (width : Nat) : Nat → List Word → Word
  | _, [] => 0
  | j, x :: xs => (x <<< laneShift width j) ||| packLanes width (j + 1) xs

/-- The packed word: the selector in the top bits, the values taken below it, every other bit 0 (R105, R152). -/
def packWord (cat : Catalog) (s : Fin 16) (taken : List Word) : Word :=
  (BitVec.ofNat 32 s.1 <<< 28) ||| packLanes (cat.layout s).wid 0 taken

/-- The words of `S16Enc` for the values left, the first of which stands at block position `i`; an error is the
position no selector fits (R152, R154). `fuel` bounds the number of words (R142). -/
def s16Words (cat : Catalog) : (fuel i : Nat) → List Word → Except Nat (List Word)
  | _, _, [] => .ok []
  | 0, i, _ :: _ => .error i
  | fuel + 1, i, x :: xs =>
    match selectLayout cat (x :: xs) with
    | none => .error i
    | some s =>
      let taken := (x :: xs).take (cat.layout s).cnt
      match s16Words cat fuel (i + taken.length) ((x :: xs).drop (cat.layout s).cnt) with
      | .error e => .error e
      | .ok ws => .ok (packWord cat s taken :: ws)

/-- `S16Enc`: the words' bytes, each word little-endian (R100, R152). -/
def s16Enc (cat : Catalog) (v : List Word) : Except Nat (List Byte) :=
  (s16Words cat v.length 0 v).map fun ws => ws.flatMap fun w => leBytes 4 w.toNat

/-- What a decode function computes: the values, the index past the last byte consumed, and the data units it took
apart, in order. -/
structure Decoded where
  vals : List Word
  past : Nat
  units : List DataUnit
deriving DecidableEq, Repr

/-- `S16Dec` from index `p` with `left` values still wanted; an error is the index of the word that does not exist
(R106, R156, R268). `fuel` bounds the number of words (R142). -/
def s16DecFrom (cat : Catalog) (eb : Memory) : (fuel p left : Nat) → Except Nat Decoded
  | _, p, 0 => .ok ⟨[], p, []⟩
  | 0, p, _ + 1 => .error p
  | fuel + 1, p, left + 1 =>
    match eb.read p 4 with
    | none => .error p
    | some b =>
      let w := BitVec.ofNat 32 b
      let fields := (unpackWord cat w).take (left + 1)
      match s16DecFrom cat eb fuel (p + 4) (left + 1 - fields.length) with
      | .error a => .error a
      | .ok d => .ok ⟨fields ++ d.vals, d.past, .word w :: d.units⟩

/-- `S16Dec(EB, EBLEN, CUR, n)` (R156). -/
def s16Dec (cat : Catalog) (eb : Memory) (cur n : Nat) : Except Nat Decoded := s16DecFrom cat eb n cur n

end Sys2Proof.Machine
end

