-- ==== Sys2Proof/Machine/StreamVByte.lean ====
section
/-! DEFINITION. The StreamVByte codec (42_streamvbyte.md): byte lengths, groups of four with the control byte laid
directly before the group's data, and the decoder's two cursors. -/

namespace Sys2Proof.Machine

/-- `bytelen(x)`: the least number of bytes that hold the value, 1 to 4 (R181). -/
def bytelen (x : Word) : Nat :=
  if x.toNat < 2 ^ 8 then 1 else if x.toNat < 2 ^ 16 then 2 else if x.toNat < 2 ^ 24 then 3 else 4

/-- The tags of a group's values at bits `[2k+1 : 2k]`, those of absent values 0 (R111, R114, R182). -/
def packTags : Nat → List Word → Byte
  | _, [] => 0
  | k, x :: xs => (BitVec.ofNat 8 (bytelen x - 1) <<< (2 * k)) ||| packTags (k + 1) xs

/-- The data bytes of a group's values, in value order (R113). -/
def groupData (vs : List Word) : List Byte := vs.flatMap fun x => leBytes (bytelen x) x.toNat

/-- One group: its control byte, then its data (R110, R183). -/
def svbGroup (vs : List Word) : List Byte := packTags 0 vs :: groupData vs

/-- `SVBEnc`: groups of four values in order, the last perhaps shorter (R110, R182). -/
def svbEnc : List Word → List Byte
  | a :: b :: c :: d :: rest => svbGroup [a, b, c, d] ++ svbEnc rest
  | [] => []
  | vs => svbGroup vs

/-- The values of one group from data cursor `q`: lanes `k`, `k+1`, ... while `m` are left; an error is the index of
the data bytes that do not exist (R185, R268). -/
def svbLanes (eb : Memory) (c : Byte) : (k q m : Nat) → Except Nat (List Word × Nat)
  | _, q, 0 => .ok ([], q)
  | k, q, m + 1 =>
    match eb.read q (tagLength c k) with
    | none => .error q
    | some x =>
      match svbLanes eb c (k + 1) (q + tagLength c k) m with
      | .error a => .error a
      | .ok (ds, q') => .ok (BitVec.ofNat 32 x :: ds, q')

/-- `SVBDec` from control cursor `p` with `left` values still wanted (R185). `fuel` bounds the number of groups
(R142). -/
def svbDecFrom (eb : Memory) : (fuel p left : Nat) → Except Nat Decoded
  | _, p, 0 => .ok ⟨[], p, []⟩
  | 0, p, _ + 1 => .error p
  | fuel + 1, p, left + 1 =>
    match eb.read p 1 with
    | none => .error p
    | some b =>
      let c := BitVec.ofNat 8 b
      match svbLanes eb c 0 (p + 1) (min 4 (left + 1)) with
      | .error a => .error a
      | .ok (ds, q) =>
        match svbDecFrom eb fuel q (left + 1 - min 4 (left + 1)) with
        | .error a => .error a
        | .ok d => .ok ⟨ds ++ d.vals, d.past, .tags c :: d.units⟩

/-- `SVBDec(EB, EBLEN, CUR, n)` (R185). -/
def svbDec (eb : Memory) (cur n : Nat) : Except Nat Decoded := svbDecFrom eb n cur n

end Sys2Proof.Machine
end

