-- ==== Sys2Proof/Machine/Codec.lean ====
section
/-! DEFINITION. The block codec contract (40_contract.md): what encode and decode commands of both codecs share, and
the meanings of the four block commands and of the data units. -/

namespace Sys2Proof.Machine

/-- `Enc` of a codec (R132). -/
def encOf (c : Codec) (cat : Catalog) (v : List Word) : Except Nat (List Byte) :=
  match c with
  | .simple16 => s16Enc cat v
  | .streamVByte => .ok (svbEnc v)

/-- `Dec` of a codec (R135). -/
def decOf (c : Codec) (cat : Catalog) (eb : Memory) (cur n : Nat) : Except Nat Decoded :=
  match c with
  | .simple16 => s16Dec cat eb cur n
  | .streamVByte => svbDec eb cur n

/-- The bytes a decode consumed, `[CUR, p)`, are canonical: exactly what the codec's encode appends for the decoded
values (R16, 93_implementation_defined.md U1). -/
def canonicalBytes (c : Codec) (cat : Catalog) (eb : Memory) (cur : Nat) (d : Decoded) : Bool :=
  match encOf c cat d.vals with
  | .ok bs => decide (eb.bytesAt cur (d.past - cur) = some bs)
  | .error _ => false

/-- Run a codec's decoder at `CUR` and go on with what it computed: `DecodeUnderrun` when bytes are missing (R268);
in a build set to `refuse`, no meaning for bytes that exist but are not canonical (U1). -/
def withDecoded (c : Codec) (n : Nat) (s : State) (k : Decoded → Answer) : Answer :=
  match decOf c s.params.catalog s.eb s.cur.toNat n with
  | .error a => fail .decodeUnderrun (BitVec.ofNat 32 a) s
  | .ok d =>
    if s.params.noncanonical = .refuse ∧ canonicalBytes c s.params.catalog s.eb s.cur.toNat d = false then
      .refused .noncanonicalDecode
    else k d

/-- The write-back of a decode: `OUT[0..n-1]` and `CUR`, with the scratch the decoder used (R41, R135). -/
def State.writeDecoded (s : State) (d : Decoded) : State :=
  { s with
    outBuf := overwrite s.outBuf d.vals
    cur := BitVec.ofNat 32 d.past
    scratch := d.units.foldl (Scratch.absorb s.params.catalog) s.scratch }

/-- Run a codec's encoder on values and go on with its bytes: `RepresentationOverflow` with the position of the value
no layout holds (R154, R266), then `EncodeOverflow` when the bytes do not fit (R66, R133, R269). -/
def withEncoded (c : Codec) (v : List Word) (s : State) (k : List Byte → Answer) : Answer :=
  match encOf c s.params.catalog v with
  | .error i => fail .representationOverflow (BitVec.ofNat 32 i) s
  | .ok bs => if s.params.ebCap < s.eb.length + bs.length then fail .encodeOverflow s.ebLen s else k bs

/-- The commit of an encode: the staged bytes are appended to `EB` (R41, R133). -/
def State.appendEncoded (s : State) (bs : List Byte) : State :=
  { s with eb := s.eb.append bs, scratch := { s.scratch with stg := overwrite s.scratch.stg bs } }

/-- An encode command (R131 to R133). -/
def blockEncode (c : Codec) (n : BitVec 8) (s : State) : Answer :=
  ifAccepting s (withCount n s fun m =>
    withEncoded c (s.inValues m) s fun bs => .next (s.appendEncoded bs))

/-- A decode command (R134, R135). -/
def blockDecode (c : Codec) (n : BitVec 8) (s : State) : Answer :=
  ifAccepting s (withCount n s fun m =>
    withDecoded c m s fun d => .next (s.writeDecoded d))

/-! The block commands. -/

/-- `S16.ENC n` (R152). -/
def execS16Enc (n : BitVec 8) (s : State) : Answer := blockEncode .simple16 n s

/-- `S16.DEC n` (R156). -/
def execS16Dec (n : BitVec 8) (s : State) : Answer := blockDecode .simple16 n s

/-- `SVB.ENC n` (R182). -/
def execSvbEnc (n : BitVec 8) (s : State) : Answer := blockEncode .streamVByte n s

/-- `SVB.DEC n` (R185). -/
def execSvbDec (n : BitVec 8) (s : State) : Answer := blockDecode .streamVByte n s

end Sys2Proof.Machine
end

