-- ==== Sys2Proof/Machine/Driver.lean ====
section
/-! DEFINITION. The sequence driver (43_sequence_driver.md): its two steps, each one atomic transition, its two runs,
and the meanings of the four `SEQ.*` commands. -/

namespace Sys2Proof.Machine

/-- The checks both steps begin with, in order: `SeqDone` in Done, then `BadCodec` (R203, R204, R206, R275). -/
def withStep (s : State) (k : Codec → Answer) : Answer :=
  if s.rem = 0 then fail .seqDone 0 s
  else match codecOf s.codec with
    | none => fail .badCodec s.codec s
    | some c => k c

/-- The commit of a decode step: the block decode's write-back, the values appended to `LOUT`, and `REM` lowered by
the block size (R204). -/
def State.commitDecodeStep (s : State) (d : Decoded) : State :=
  { s.writeDecoded d with lout := s.lout ++ d.vals, rem := s.rem - BitVec.ofNat 32 s.stepSize }

/-- A decode step once its block is decoded: `ListOverflow` when `LOUT` cannot hold it, else the commit (R204, R273). -/
def finishDecodeStep (s : State) (d : Decoded) : Answer :=
  if s.params.loutCap < s.lout.length + s.stepSize then fail .listOverflow s.loutLen s
  else .next (s.commitDecodeStep d)

/-- The transition of `SEQ.DSTEP` (R204). -/
def decodeStep (s : State) : Answer :=
  withStep s fun c => withDecoded c s.stepSize s (finishDecodeStep s)

/-- The commit of an encode step: the block encode's append, the chunk in `IN`, its sum in `SUM`, `LRP` raised and
`REM` lowered by the block size (R206). -/
def State.commitEncodeStep (s : State) (bs : List Byte) : State :=
  { s.appendEncoded bs with
    inBuf := overwrite s.inBuf (s.chunk s.stepSize)
    sum := sumOf (s.chunk s.stepSize)
    lrp := s.lrp + BitVec.ofNat 32 s.stepSize
    rem := s.rem - BitVec.ofNat 32 s.stepSize }

/-- The transition of `SEQ.ESTEP` (R206), `ListUnderrun` when `LIN` is too short (R272). -/
def encodeStep (s : State) : Answer :=
  withStep s fun c =>
    if s.lin.length < s.lrp.toNat + s.stepSize then fail .listUnderrun s.lrp s
    else withEncoded c (s.chunk s.stepSize) s fun bs => .next (s.commitEncodeStep bs)

/-- `while REM ≠ 0 and FAULT = 0: do the transition of SEQ.DSTEP` (R208), at most `fuel` times. -/
def decodeLoop : (fuel : Nat) → State → Answer
  | 0, s => .next s
  | fuel + 1, s =>
    if s.rem ≠ 0 ∧ s.fault = .noFault then
      match decodeStep s with
      | .next t => decodeLoop fuel t
      | .fault e => .fault e
      | .refused e => .refused e
    else .next s

/-- `while REM ≠ 0 and FAULT = 0: do the transition of SEQ.ESTEP` (R209), at most `fuel` times. -/
def encodeLoop : (fuel : Nat) → State → Answer
  | 0, s => .next s
  | fuel + 1, s =>
    if s.rem ≠ 0 ∧ s.fault = .noFault then
      match encodeStep s with
      | .next t => encodeLoop fuel t
      | .fault e => .fault e
      | .refused e => .refused e
    else .next s

/-- The iterations a run can need: `ceil(REM / 128)` (R210). -/
def State.runFuel (s : State) : Nat := (s.rem.toNat + 127) / 128

/-- `SEQ.DSTEP` (R204). -/
def execSeqDstep (s : State) : Answer := ifAccepting s (decodeStep s)

/-- `SEQ.ESTEP` (R206). -/
def execSeqEstep (s : State) : Answer := ifAccepting s (encodeStep s)

/-- `SEQ.DRUN` (R208). -/
def execSeqDrun (s : State) : Answer := ifAccepting s (decodeLoop s.runFuel s)

/-- `SEQ.ERUN` (R209). -/
def execSeqErun (s : State) : Answer := ifAccepting s (encodeLoop s.runFuel s)

end Sys2Proof.Machine
end

