-- ==== Sys2Proof/Machine/DataWords.lean ====
section
/-! DEFINITION. The meanings of the opcode table's data rows: a Simple16 word of each selector and a StreamVByte
control byte. Such an item is no command; what the spec gives it is what the codec that reads it does with it: the
unpacker cuts a word into all the fields of its layout (41_simple16.md R150, R156, R159), the StreamVByte decoder
takes four lane lengths from a control byte (42_streamvbyte.md R185, R188). The decode commands take apart every word
and control byte they read by the same operation (`State.writeDecoded`). -/

namespace Sys2Proof.Machine

/-- A word of selector 0 (28 x 1 in the default catalogue) is cut into its fields, `TMP[j]` for `j < CNT[0]` (R103, R156). -/
def execS16wSel0 (data : BitVec 28) (s : State) : Answer := presentUnit (.word (s16Word 0 data)) s

/-- A word of selector 1 (14 x 2 in the default catalogue) is cut into its fields, `TMP[j]` for `j < CNT[1]` (R103, R156). -/
def execS16wSel1 (data : BitVec 28) (s : State) : Answer := presentUnit (.word (s16Word 1 data)) s

/-- A word of selector 2 (9 x 3 in the default catalogue) is cut into its fields, `TMP[j]` for `j < CNT[2]` (R103, R156). -/
def execS16wSel2 (data : BitVec 28) (s : State) : Answer := presentUnit (.word (s16Word 2 data)) s

/-- A word of selector 3 (7 x 4 in the default catalogue) is cut into its fields, `TMP[j]` for `j < CNT[3]` (R103, R156). -/
def execS16wSel3 (data : BitVec 28) (s : State) : Answer := presentUnit (.word (s16Word 3 data)) s

/-- A word of selector 4 (5 x 5 in the default catalogue) is cut into its fields, `TMP[j]` for `j < CNT[4]` (R103, R156). -/
def execS16wSel4 (data : BitVec 28) (s : State) : Answer := presentUnit (.word (s16Word 4 data)) s

/-- A word of selector 5 (4 x 6 in the default catalogue) is cut into its fields, `TMP[j]` for `j < CNT[5]` (R103, R156). -/
def execS16wSel5 (data : BitVec 28) (s : State) : Answer := presentUnit (.word (s16Word 5 data)) s

/-- A word of selector 6 (4 x 7 in the default catalogue) is cut into its fields, `TMP[j]` for `j < CNT[6]` (R103, R156). -/
def execS16wSel6 (data : BitVec 28) (s : State) : Answer := presentUnit (.word (s16Word 6 data)) s

/-- A word of selector 7 (3 x 8 in the default catalogue) is cut into its fields, `TMP[j]` for `j < CNT[7]` (R103, R156). -/
def execS16wSel7 (data : BitVec 28) (s : State) : Answer := presentUnit (.word (s16Word 7 data)) s

/-- A word of selector 8 (3 x 9 in the default catalogue) is cut into its fields, `TMP[j]` for `j < CNT[8]` (R103, R156). -/
def execS16wSel8 (data : BitVec 28) (s : State) : Answer := presentUnit (.word (s16Word 8 data)) s

/-- A word of selector 9 (2 x 10 in the default catalogue) is cut into its fields, `TMP[j]` for `j < CNT[9]` (R103, R156). -/
def execS16wSel9 (data : BitVec 28) (s : State) : Answer := presentUnit (.word (s16Word 9 data)) s

/-- A word of selector 10 (2 x 11 in the default catalogue) is cut into its fields, `TMP[j]` for `j < CNT[10]` (R103, R156). -/
def execS16wSel10 (data : BitVec 28) (s : State) : Answer := presentUnit (.word (s16Word 10 data)) s

/-- A word of selector 11 (2 x 12 in the default catalogue) is cut into its fields, `TMP[j]` for `j < CNT[11]` (R103, R156). -/
def execS16wSel11 (data : BitVec 28) (s : State) : Answer := presentUnit (.word (s16Word 11 data)) s

/-- A word of selector 12 (2 x 13 in the default catalogue) is cut into its fields, `TMP[j]` for `j < CNT[12]` (R103, R156). -/
def execS16wSel12 (data : BitVec 28) (s : State) : Answer := presentUnit (.word (s16Word 12 data)) s

/-- A word of selector 13 (2 x 14 in the default catalogue) is cut into its fields, `TMP[j]` for `j < CNT[13]` (R103, R156). -/
def execS16wSel13 (data : BitVec 28) (s : State) : Answer := presentUnit (.word (s16Word 13 data)) s

/-- A word of selector 14 (1 x 16 in the default catalogue) is cut into its fields, `TMP[j]` for `j < CNT[14]` (R103, R156). -/
def execS16wSel14 (data : BitVec 28) (s : State) : Answer := presentUnit (.word (s16Word 14 data)) s

/-- A word of selector 15 (1 x 28 in the default catalogue) is cut into its fields, `TMP[j]` for `j < CNT[15]` (R103, R156). -/
def execS16wSel15 (data : BitVec 28) (s : State) : Answer := presentUnit (.word (s16Word 15 data)) s

/-- A control byte gives the lane lengths `L_k = T_k + 1` (R111, R112, R185). -/
def execSvbc (t0 t1 t2 t3 : BitVec 2) (s : State) : Answer := presentUnit (.tags (controlByte t0 t1 t2 t3)) s

end Sys2Proof.Machine
end

