-- ==== Sys2Proof/Machine/Dispatch.lean ====
section
/-! DEFINITION. One arm per constructor of Instr: the meaning of each row of the opcode table. -/

namespace Sys2Proof.Machine

def exec (i : Instr) (s : State) : Host.Outcome State Fault Refusal :=
  match i with
  -- Simple16 and StreamVByte block commands
  | .s16Enc n => Sys2Proof.Machine.execS16Enc n s
  | .s16Dec n => Sys2Proof.Machine.execS16Dec n s
  | .svbEnc n => Sys2Proof.Machine.execSvbEnc n s
  | .svbDec n => Sys2Proof.Machine.execSvbDec n s
  -- the sequence driver
  | .seqDstep => Sys2Proof.Machine.execSeqDstep s
  | .seqEstep => Sys2Proof.Machine.execSeqEstep s
  | .seqDrun => Sys2Proof.Machine.execSeqDrun s
  | .seqErun => Sys2Proof.Machine.execSeqErun s
  -- Simple16 words
  | .s16wSel0 d => Sys2Proof.Machine.execS16wSel0 d s
  | .s16wSel1 d => Sys2Proof.Machine.execS16wSel1 d s
  | .s16wSel2 d => Sys2Proof.Machine.execS16wSel2 d s
  | .s16wSel3 d => Sys2Proof.Machine.execS16wSel3 d s
  | .s16wSel4 d => Sys2Proof.Machine.execS16wSel4 d s
  | .s16wSel5 d => Sys2Proof.Machine.execS16wSel5 d s
  | .s16wSel6 d => Sys2Proof.Machine.execS16wSel6 d s
  | .s16wSel7 d => Sys2Proof.Machine.execS16wSel7 d s
  | .s16wSel8 d => Sys2Proof.Machine.execS16wSel8 d s
  | .s16wSel9 d => Sys2Proof.Machine.execS16wSel9 d s
  | .s16wSel10 d => Sys2Proof.Machine.execS16wSel10 d s
  | .s16wSel11 d => Sys2Proof.Machine.execS16wSel11 d s
  | .s16wSel12 d => Sys2Proof.Machine.execS16wSel12 d s
  | .s16wSel13 d => Sys2Proof.Machine.execS16wSel13 d s
  | .s16wSel14 d => Sys2Proof.Machine.execS16wSel14 d s
  | .s16wSel15 d => Sys2Proof.Machine.execS16wSel15 d s
  -- StreamVByte control bytes
  | .svbc t0 t1 t2 t3 => Sys2Proof.Machine.execSvbc t0 t1 t2 t3 s

end Sys2Proof.Machine
end

