-- ==== Sys2Proof/Machine/HostMoves.lean ====
section
/-! DEFINITION. The host's moves (44_host_access.md): what each does to the block, the writes ignored while a fault is
recorded (R230), and the acceptance of a command word (40_contract.md R130). -/

namespace Sys2Proof.Machine

/-- A write of `cw` to `CMD` (R29, R130): ignored while faulted; an illegal word raises `IllegalCommand` with the word
as information (R94, R264); a legal one is executed, its meaning checking the count first. -/
def writeCommand (cw : Word) (s : State) : Answer :=
  ifAccepting s (match decodeCommand cw with
    | .error _ => fail .illegalCommand cw s
    | .ok i => exec i s)

/-- A register write (R236): `CMD` starts a command, every other register is written or ignores the write. -/
def moveWrite (r : Nat) (v : Word) (s : State) : Answer :=
  if r = 0 then writeCommand v s else ifAccepting s (.next (s.writeReg r v))

/-- Write `IN[i]` (R231). -/
def moveIn (i : Fin 128) (v : Word) (s : State) : Answer :=
  ifAccepting s (.next { s with inBuf := s.inBuf.set i.1 v i.2 })

/-- Append a byte to `EB`, or raise `EncodeOverflow` when `EB` is full (R233, R269). -/
def moveEbAppend (b : Byte) (s : State) : Answer :=
  ifAccepting s (if s.eb.length < s.params.ebCap then .next { s with eb := s.eb.append [b] }
    else fail .encodeOverflow s.ebLen s)

/-- Append a value to `LIN`, or raise `ListOverflow` when `LIN` is full (R234, R273). -/
def moveLinAppend (v : Word) (s : State) : Answer :=
  ifAccepting s (if s.lin.length < s.params.linCap then .next { s with lin := s.lin ++ [v] }
    else fail .listOverflow s.linLen s)

/-- Read `EB[a]`, `a < EBLEN`; there is no move beyond (R230, R237). -/
def moveEbRead (a : Nat) (s : State) : Answer :=
  match s.eb.byteAt a with
  | some b => .next (s.answerRead (b.setWidth 32))
  | none => .fault (.noSuchByte a)

/-- Read `LOUT[i]`, `i < LOUTLEN`; there is no move beyond (R230, R235). -/
def moveLoutRead (i : Nat) (s : State) : Answer :=
  match s.lout[i]? with
  | some v => .next (s.answerRead v)
  | none => .fault (.noSuchListValue i)

/-- A data unit handed to its codec runs as the instruction its bits decode to (log 5). -/
def movePresent (u : DataUnit) (s : State) : Answer :=
  match u with
  | .word w => exec (decodeS16Word w) s
  | .tags c => exec (decodeControlByte c) s

/-- One move of the host. -/
def hostMove (m : Move) (s : State) : Answer :=
  match m with
  | .wr r v => moveWrite r v s
  | .rd r => .next (s.answerRead (s.readReg r))
  | .inWr i v => moveIn i v s
  | .inRd i => .next (s.answerRead s.inBuf[i])
  | .outRd i => .next (s.answerRead s.outBuf[i])
  | .ebApp b => moveEbAppend b s
  | .ebRd a => moveEbRead a s
  | .linApp v => moveLinAppend v s
  | .loutRd i => moveLoutRead i s
  | .reset => .next s.resetBlock
  | .present u => movePresent u s

/-- The next move of the host, if it has one; without one the block is idle and nothing changes (R20, R301). -/
def nextMove (s : State) : Answer :=
  match s.inbox with
  | [] => .next s
  | m :: rest => hostMove m { s with inbox := rest }

/-- Put the item of an opcode-table row where the next step takes it from: a legal command word as a write to `CMD`, any
other 32-bit word and a control byte as a data unit handed to its codec (log 6). -/
def State.withItem (s : State) (nbits w : Nat) : State :=
  if nbits = 8 then { s with inbox := .present (.tags (BitVec.ofNat 8 w)) :: s.inbox }
  else match decodeCommand (BitVec.ofNat 32 w) with
    | .ok _ => { s with inbox := .wr 0 (BitVec.ofNat 32 w) :: s.inbox }
    | .error _ => { s with inbox := .present (.word (BitVec.ofNat 32 w)) :: s.inbox }

end Sys2Proof.Machine
end

