-- ==== Sys2Proof/Machine/Step.lean ====
section
/-! DEFINITION. One step: the host's next move, a command being one move and one atomic transition (20_memory.md R67,
R71). -/

namespace Sys2Proof.Machine

/-- One step of the machine. -/
def step (s : State) : Host.Outcome State Fault Refusal := nextMove s

/-- `s` with the instruction of bits `w`, of an opcode-table row `nbits` wide, as the very next move. -/
def State.withFetchWord (s : State) (nbits w : Nat) : State := s.withItem nbits w

end Sys2Proof.Machine
end

