-- ==== Sys2Proof/Machine/Program.lean ====
section
/-! DEFINITION. Test programs in the spec's line syntax (30_encoding.md R125): the moves each line stands for, loading a
program into the host's queue, and the end of a program (70_reset_and_hazards.md R321). -/

namespace Sys2Proof.Machine

/-- One line of a program (R125). Numbers have the widths their moves give them. -/
inductive Line where
  | s16Enc (n : BitVec 8)
  | s16Dec (n : BitVec 8)
  | svbEnc (n : BitVec 8)
  | svbDec (n : BitVec 8)
  | seqDstep
  | seqEstep
  | seqDrun
  | seqErun
  | wr (reg : Nat) (v : Word)
  | rd (reg : Nat)
  | inSlots (i : Nat) (vs : List Word)
  | outSlot (i : Nat)
  | ebApp (bs : List Byte)
  | ebRd (a : Nat)
  | linApp (vs : List Word)
  | lout (i : Nat)
  | reset
deriving DecidableEq, Repr

/-- The write to `CMD` a command line stands for. -/
def commandMove (op n : BitVec 8) : List Move := [.wr 0 (commandWord op n)]

/-- The writes of `in i.., v0, v1, ...`: consecutive slots from `i`; none beyond slot 127, where the host has no move
(R230, R231). -/
def inMoves (i : Nat) : List Word → List Move
  | [] => []
  | v :: vs => (if h : i < 128 then [.inWr ⟨i, h⟩ v] else []) ++ inMoves (i + 1) vs

/-- The moves a line stands for, in order (R125). -/
def Line.moves : Line → List Move
  | .s16Enc n => commandMove 0x10 n
  | .s16Dec n => commandMove 0x11 n
  | .svbEnc n => commandMove 0x20 n
  | .svbDec n => commandMove 0x21 n
  | .seqDstep => commandMove 0x30 0
  | .seqEstep => commandMove 0x31 0
  | .seqDrun => commandMove 0x32 0
  | .seqErun => commandMove 0x33 0
  | .wr r v => [.wr r v]
  | .rd r => [.rd r]
  | .inSlots i vs => inMoves i vs
  | .outSlot i => if h : i < 128 then [.outRd ⟨i, h⟩] else []
  | .ebApp bs => bs.map .ebApp
  | .ebRd a => [.ebRd a]
  | .linApp vs => vs.map .linApp
  | .lout i => [.loutRd i]
  | .reset => [.reset]

/-- The state with a program queued behind the moves already pending. -/
def State.load (s : State) (prog : List Line) : State :=
  { s with inbox := s.inbox ++ prog.flatMap Line.moves }

/-- The program has ended (R321). -/
def State.programEnded (s : State) : Bool := s.inbox.isEmpty

/-- It has ended well: no fault is recorded (R321, R263). -/
def State.goodEnd (s : State) : Bool := s.programEnded && !s.faulted

end Sys2Proof.Machine
end

