-- ==== Sys2Proof/Machine/System.lean ====
section
/-! DEFINITION. Several instances (60_exceptions.md R285): they share no state, so a system is the list of their states
and a step of one replaces that one. -/

namespace Sys2Proof.Machine

/-- A system of instances. -/
abbrev System := List State

/-- Instance `i` takes its next step; `none` when there is no such instance or its step does not answer a next state. -/
def System.stepAt (sys : System) (i : Nat) : Option System :=
  match sys[i]? with
  | none => none
  | some s =>
    match step s with
    | .next t => some (sys.set i t)
    | .fault _ => none
    | .refused _ => none

end Sys2Proof.Machine
end

