-- ==== Sys2Proof/Safety.lean ====
section
/-! DEFINITION. What counts as a sound state and a safe run, in the terms claims use. -/

namespace Sys2Proof.Machine

/-- The states a run can be in: the parameters meet R9 and R104, the encoded buffer has its canonical form and no store
holds more than its capacity (R24, R27), and `FINFO = 0` while no fault is recorded (R32). -/
structure State.Inv (s : State) : Prop where
  params : s.params.wf
  ebWf : s.eb.wf
  ebFits : s.eb.length ≤ s.params.ebCap
  linFits : s.lin.length ≤ s.params.linCap
  loutFits : s.lout.length ≤ s.params.loutCap
  finfoZero : s.fault = .noFault → s.finfo = 0

/-- A safe state: a sound one with no fault recorded. The faulted state is never a good end of anything (R263). -/
def State.Safe (s : State) : Prop := s.Inv ∧ s.fault = .noFault

/-- The state some number of steps leads to. -/
inductive Reaches (s : State) : State → Prop where
  | here : Reaches s s
  | next {t u : State} (h : Reaches s t) (hstep : step t = .next u) : Reaches s u

/-- A program runs well from `s`: its last line completes with no fault recorded (R321). -/
def RunsWell (s : State) : Prop := ∃ t, Reaches s t ∧ t.goodEnd = true

end Sys2Proof.Machine
end

