-- ==== Sys2Proof/Certificates/Slice0/Terms.lean ====
section
/-! DEFINITION. The terms the statements are made in, written from the rules as relations and exact arithmetic and not
from the model's own codec functions: what bytes an encode must append, what values stand at an index of the encoded
buffer, and how a state may differ from another. -/

namespace Sys2Proof.Terms

open Sys2Proof.Machine

/-! How parts of a state change. -/

/-- `new` is `old` with the listed values in slots 0, 1, ... and every other slot as it was. -/
def SlotsWritten {α : Type} {n : Nat} (old new : Vector α n) (d : List α) : Prop :=
  ∀ (i : Nat) (h : i < n), new[i] = if h' : i < d.length then d[i] else old[i]

/-- `new` is `old` with the bytes `bs` appended: every byte below the old length reads as before, the new bytes follow
it, and nothing exists beyond. -/
def Appended (old new : Memory) (bs : List Byte) : Prop :=
  new.length = old.length + bs.length ∧
  ∀ a, new.byteAt a = if a < old.length then old.byteAt a else bs[a - old.length]?

/-- The values of the first `n` slots. -/
def firstSlots (b : Vector Word 128) (n : Nat) : List Word := b.toList.take n

/-- The exact sum of a list of values. -/
def total (v : List Word) : Nat := (v.map (·.toNat)).sum

/-- Apply a function to the state of an answer. -/
def onNext (f : State → State) : Host.Outcome State Fault Refusal → Host.Outcome State Fault Refusal
  | .next t => .next (f t)
  | .fault e => .fault e
  | .refused e => .refused e

/-! Command words (R90, R91, R94). -/

/-- The word is a legal command: bits 23:8 are 0, and either the opcode is a block command's, or it is a driver
command's and bits 7:0 are 0. -/
def LegalWord (w : Word) : Prop :=
  w.toNat / 2 ^ 8 % 2 ^ 16 = 0 ∧
  (w.toNat / 2 ^ 24 ∈ [0x10, 0x11, 0x20, 0x21] ∨
    (w.toNat / 2 ^ 24 ∈ [0x30, 0x31, 0x32, 0x33] ∧ w.toNat % 2 ^ 8 = 0))

/-- The encode and decode command of a codec, and the codec a value of `CODEC` names (R34, R91). -/
def encodeCommand : Codec → BitVec 8 → Instr
  | .simple16, n => .s16Enc n
  | .streamVByte, n => .svbEnc n

def decodeCommandOf : Codec → BitVec 8 → Instr
  | .simple16, n => .s16Dec n
  | .streamVByte, n => .svbDec n

def codecNumber : Codec → Word
  | .simple16 => 0
  | .streamVByte => 1

/-- The sixteen data-word rows `S16W.SEL0` to `S16W.SEL15`, by selector. -/
def s16wRow (k : Fin 16) : BitVec 28 → Instr :=
  match k.1 with
  | 0 => .s16wSel0
  | 1 => .s16wSel1
  | 2 => .s16wSel2
  | 3 => .s16wSel3
  | 4 => .s16wSel4
  | 5 => .s16wSel5
  | 6 => .s16wSel6
  | 7 => .s16wSel7
  | 8 => .s16wSel8
  | 9 => .s16wSel9
  | 10 => .s16wSel10
  | 11 => .s16wSel11
  | 12 => .s16wSel12
  | 13 => .s16wSel13
  | 14 => .s16wSel14
  | _ => .s16wSel15

/-! What an encode appends. -/

/-- The values lie in the codec's range: below `2^S16_WMAX` for Simple16, any for StreamVByte (R138, R154, R181). -/
def Encodable (c : Codec) (cat : Catalog) (v : List Word) : Prop :=
  c = .simple16 → ∀ x ∈ v, x.toNat < 2 ^ (cat.layout 15).wid

/-- The data field of a word that carries the values `taken` in lanes of width `W`: value `j` times `2^(28-(j+1)*W)`
(R102), every other bit 0 (R105). -/
def laneTotal (width : Nat) (taken : List Word) : Nat :=
  (taken.zipIdx.map fun x => x.1.toNat * 2 ^ (28 - (x.2 + 1) * width)).sum

/-- `ws` are the words the greedy encoder packs the values `v` into (R151 to R153): each word's selector is the least
one whose width holds the next `min(CNT, r)` values, and the word carries exactly those. -/
inductive S16Words (cat : Catalog) : List Word → List Word → Prop where
  | done : S16Words cat [] []
  | word (v ws : List Word) (s : Fin 16) (w : Word) (hne : v ≠ [])
      (hfits : ∀ x ∈ v.take (cat.layout s).cnt, x.toNat < 2 ^ (cat.layout s).wid)
      (hleast : ∀ t < s, ∃ x ∈ v.take (cat.layout t).cnt, 2 ^ (cat.layout t).wid ≤ x.toNat)
      (hword : w.toNat = s.1 * 2 ^ 28 + laneTotal (cat.layout s).wid (v.take (cat.layout s).cnt))
      (hrest : S16Words cat (v.drop (cat.layout s).cnt) ws) : S16Words cat v (w :: ws)

/-- The bytes of words, each little-endian: `w[7:0]`, `w[15:8]`, `w[23:16]`, `w[31:24]` (R61, R100). -/
def wordBytes (ws : List Word) : List Byte :=
  ws.flatMap fun w => [w.extractLsb' 0 8, w.extractLsb' 8 8, w.extractLsb' 16 8, w.extractLsb' 24 8]

/-- Group `g` of the values: its control byte, tag `T_k = L_k - 1` at bits `[2k+1 : 2k]`, then the low `L_k` bytes of
each of its values (R110 to R114). -/
def svbGroupBytes (v : List Word) (g : Nat) : List Byte :=
  let vs := (v.drop (4 * g)).take 4
  BitVec.ofNat 8 (vs.zipIdx.map fun x => (bytelen x.1 - 1) * 4 ^ x.2).sum ::
    vs.flatMap fun x => (List.range (bytelen x)).map fun i => BitVec.ofNat 8 (x.toNat / 256 ^ i)

/-- The `ceil(n/4)` groups end to end (R110). -/
def svbBytes (v : List Word) : List Byte := (List.range ((v.length + 3) / 4)).flatMap (svbGroupBytes v)

/-- `bs` is what the codec's encode appends for the values `v`. -/
def EncodesTo (c : Codec) (cat : Catalog) (v : List Word) (bs : List Byte) : Prop :=
  match c with
  | .simple16 => ∃ ws, S16Words cat v ws ∧ bs = wordBytes ws
  | .streamVByte => bs = svbBytes v

/-- `bs` is the blocks of the list's chunks of 128 values laid end to end (R118). -/
inductive EncodesRun (c : Codec) (cat : Catalog) : List Word → List Byte → Prop where
  | done : EncodesRun c cat [] []
  | block (v : List Word) (bs cs : List Byte) (hne : v ≠ []) (h : EncodesTo c cat (v.take 128) bs)
      (hrest : EncodesRun c cat (v.drop 128) cs) : EncodesRun c cat v (bs ++ cs)

/-! What stands in the encoded buffer. -/

/-- All the fields of a word, by the layout its top four bits name (R101, R102). -/
def fieldsOf (cat : Catalog) (w : Word) : List Word :=
  let l := cat.layout (Fin.ofNat 16 (w.toNat / 2 ^ 28))
  (List.range l.cnt).map fun j => BitVec.ofNat 32 (w.toNat / 2 ^ (28 - (j + 1) * l.wid) % 2 ^ l.wid)

/-- The words `ws` stand in the buffer one after another from index `p`. -/
def WordsAt (eb : Memory) (p : Nat) (ws : List Word) : Prop :=
  ∀ (i : Nat) (h : i < ws.length), eb.read (p + 4 * i) 4 = some ws[i].toNat

/-- `n` values `d` stand as Simple16 words from index `p` up to `q`: the least number of words whose fields number at
least `n` (R106). -/
def S16Reads (cat : Catalog) (eb : Memory) (p n : Nat) (d : List Word) (q : Nat) : Prop :=
  ∃ ws, WordsAt eb p ws ∧ (ws.dropLast.flatMap (fieldsOf cat)).length < n ∧
    n ≤ (ws.flatMap (fieldsOf cat)).length ∧ d = (ws.flatMap (fieldsOf cat)).take n ∧ q = p + 4 * ws.length

/-- The words from index `p` hold fewer than `n` values and the next word, at `a`, does not exist whole. -/
def S16Short (cat : Catalog) (eb : Memory) (p n a : Nat) : Prop :=
  ∃ ws, WordsAt eb p ws ∧ (ws.flatMap (fieldsOf cat)).length < n ∧ a = p + 4 * ws.length ∧ eb.length < a + 4

/-- The data bytes of lane `k` by the control byte's value `c`: bits `[2k+1 : 2k]` plus one (R112). -/
def laneBytes (c k : Nat) : Nat := c / 4 ^ k % 4 + 1

/-- Where lane `k`'s data starts inside its group's data: the running sum of the lengths before it (R185, R188). -/
def laneStart (c k : Nat) : Nat := ((List.range k).map (laneBytes c)).sum

/-- The values `d` stand as StreamVByte groups from index `p` up to `q`; only the last group has fewer than four
values (R110, R113, R185). -/
inductive SvbReads (eb : Memory) : Nat → List Word → Nat → Prop where
  | done (p : Nat) : SvbReads eb p [] p
  | group (p c : Nat) (vs ds : List Word) (q : Nat) (hne : vs ≠ []) (hle : vs.length ≤ 4)
      (hlast : vs.length < 4 → ds = []) (hc : eb.read p 1 = some c)
      (hv : ∀ (k : Nat) (h : k < vs.length), eb.read (p + 1 + laneStart c k) (laneBytes c k) = some vs[k].toNat)
      (hrest : SvbReads eb (p + 1 + laneStart c vs.length) ds q) : SvbReads eb p (vs ++ ds) q

/-- Reading `n` values from index `p` meets, at `a`, the first control byte or data bytes that do not exist whole
(R185, R268). -/
inductive SvbShort (eb : Memory) : Nat → Nat → Nat → Prop where
  | control (p n : Nat) (hn : 1 ≤ n) (h : eb.length < p + 1) : SvbShort eb p n p
  | lane (p n c k : Nat) (hk : k < min 4 n) (hc : eb.read p 1 = some c)
      (hv : ∀ j < k, ∃ x, eb.read (p + 1 + laneStart c j) (laneBytes c j) = some x)
      (h : eb.length < p + 1 + laneStart c k + laneBytes c k) : SvbShort eb p n (p + 1 + laneStart c k)
  | later (p n c a : Nat) (hn : 4 < n) (hc : eb.read p 1 = some c)
      (hv : ∀ j < 4, ∃ x, eb.read (p + 1 + laneStart c j) (laneBytes c j) = some x)
      (hrest : SvbShort eb (p + 1 + laneStart c 4) (n - 4) a) : SvbShort eb p n a

/-- `n` values `d` stand in the codec's format from index `p` up to `q`. -/
def Reads (c : Codec) (cat : Catalog) (eb : Memory) (p n : Nat) (d : List Word) (q : Nat) : Prop :=
  match c with
  | .simple16 => S16Reads cat eb p n d q
  | .streamVByte => d.length = n ∧ SvbReads eb p d q

/-- Reading `n` values in the codec's format from index `p` runs out of bytes at `a`. -/
def Short (c : Codec) (cat : Catalog) (eb : Memory) (p n a : Nat) : Prop :=
  match c with
  | .simple16 => S16Short cat eb p n a
  | .streamVByte => SvbShort eb p n a

/-- The bytes from index `p` up to `q` are canonical for the codec and the count `n`: exactly what the codec's encode
appends for some `n` values (R16). -/
def Canonical (c : Codec) (cat : Catalog) (eb : Memory) (p n q : Nat) : Prop :=
  ∃ v bs, v.length = n ∧ EncodesTo c cat v bs ∧ eb.bytesAt p (q - p) = some bs

/-- The bytes from index `p` up to `q` are exactly the blocks an encode of some list of `len` values lays end to end
(R16, R118). -/
def CanonicalRun (c : Codec) (cat : Catalog) (eb : Memory) (p len q : Nat) : Prop :=
  ∃ v bs, v.length = len ∧ EncodesRun c cat v bs ∧ eb.bytesAt p (q - p) = some bs

/-- A list of `L` values `ds` stands as blocks of at most 128 from index `p` up to `q` (R118, R201). -/
inductive ReadsRun (c : Codec) (cat : Catalog) (eb : Memory) : Nat → Nat → List Word → Nat → Prop where
  | done (p : Nat) : ReadsRun c cat eb p 0 [] p
  | block (p len : Nat) (d ds : List Word) (m q : Nat) (hlen : 0 < len)
      (h : Reads c cat eb p (min 128 len) d m) (hrest : ReadsRun c cat eb m (len - min 128 len) ds q) :
      ReadsRun c cat eb p len (d ++ ds) q

/-! Driver runs as chains of driver steps (R208, R209). -/

/-- `k` iterations of a run whose step is the command `i` lead from one state to another. -/
inductive Iterates (i : Instr) : Nat → State → State → Prop where
  | none (s : State) : Iterates i 0 s s
  | more (k : Nat) (s u t : State) (hrem : s.rem ≠ 0) (hf : s.fault = .noFault) (hstep : exec i s = .next u)
      (hrest : Iterates i k u t) : Iterates i (k + 1) s t

/-- What `IN` or `OUT` holds after a run has passed the values `v` through it in chunks of 128: the last chunk in the
first slots, above it the chunk before, and nothing changed where no chunk came. -/
def SlotsAfterRun (old new : Vector Word 128) (v : List Word) : Prop :=
  SlotsWritten old new (v.drop ((v.length - 1) / 128 * 128)) ∧ v.length ≤ 128 ∨
  128 < v.length ∧ ∀ (i : Nat) (h : i < 128), some new[i] =
    if i < v.length - (v.length - 1) / 128 * 128 then v[(v.length - 1) / 128 * 128 + i]?
    else v[((v.length - 1) / 128 - 1) * 128 + i]?

end Sys2Proof.Terms
end

