-- ==== Sys2Proof/Certificates/Slice0/Obligations.lean ====
section
/-! DEFINITION. The statements for the provers. Where a next state is given, every field it does not name is unchanged,
so each such equation is the instruction's frame too; scratch (R41) is not architectural and only the part named may
change. `s.Inv` (Safety.lean) is the invariant `StepKeepsInvariant` states. -/

open Sys2Proof Sys2Proof.Machine Sys2Proof.Terms

/-! Reset. -/

/-- After reset every control register reads 0 and the three stores are empty (10_state.md section 5). -/
def Obligations.ResetReadsZero : Prop :=
  (∀ r, State.reset.readReg r = 0) ∧ State.reset.fault = .noFault ∧ State.reset.eb = [] ∧ State.reset.lin = [] ∧
    State.reset.lout = []

/-- The invariant holds right after reset. -/
def Obligations.ResetHasInvariant : Prop := State.reset.Inv

/-- Reset from any state, the faulted state included, clears the fault, the registers and the stores; and no other
move leaves the faulted state (R300). `IN`, `OUT` and scratch are unspecified after it and nothing is said of them. -/
def Obligations.ResetMoveClearsBlock : Prop :=
  (∀ (s : State) (rest : List Move), s.inbox = .reset :: rest →
    ∃ t, step s = .next t ∧ (∀ r, t.readReg r = 0) ∧ t.fault = .noFault ∧ t.eb = [] ∧ t.lin = [] ∧ t.lout = [] ∧
      t.params = s.params ∧ t.inbox = rest ∧ t.reads = s.reads) ∧
  (∀ (s t : State), s.fault ≠ .noFault → step s = .next t → t.fault = .noFault →
    ∃ rest, s.inbox = .reset :: rest)

/-! Decoding, encoding and the step. -/

/-- A step with a pending command word runs the instruction the word decodes to; one with a pending data unit runs the
instruction its bits decode to; with no move pending the block is idle. `withFetchWord` puts an opcode-table item where
the very next step runs it. -/
def Obligations.StepRunsDecodedInstruction : Prop :=
  (∀ (s : State) (w : Word) (rest : List Move) (i : Instr), s.inbox = .wr 0 w :: rest → decodeCommand w = .ok i →
    step s = exec i { s with inbox := rest }) ∧
  (∀ (s : State) (w : Word) (rest : List Move), s.inbox = .present (.word w) :: rest →
    step s = exec (decodeS16Word w) { s with inbox := rest }) ∧
  (∀ (s : State) (c : Byte) (rest : List Move), s.inbox = .present (.tags c) :: rest →
    step s = exec (decodeControlByte c) { s with inbox := rest }) ∧
  (∀ (s : State), s.inbox = [] → step s = .next s) ∧
  (∀ (s : State) (nbits w : Nat) (i : Instr), decodeTableWord nbits w = some i →
    step (s.withFetchWord nbits w) = exec i s)

/-- A word written to `CMD` that is no legal command raises `IllegalCommand` with the word as information and changes
nothing else; every legal word is a command (R94, R264). -/
def Obligations.IllegalWordRaises : Prop :=
  (∀ (s : State) (w : Word) (rest : List Move), s.inbox = .wr 0 w :: rest → s.fault = .noFault → ¬ LegalWord w →
    step s = .next { s with inbox := rest, fault := .illegalCommand, finfo := w }) ∧
  (∀ w : Word, LegalWord w → ∃ i, decodeCommand w = .ok i)

/-- Words written out from the encoding tables decode to the instructions they stand for. -/
def Obligations.TableWordsDecode : Prop :=
  decodeCommand 0x10000080#32 = .ok (.s16Enc 128) ∧ decodeCommand 0x11000001#32 = .ok (.s16Dec 1) ∧
  decodeCommand 0x20000004#32 = .ok (.svbEnc 4) ∧ decodeCommand 0x21000004#32 = .ok (.svbDec 4) ∧
  decodeCommand 0x30000000#32 = .ok .seqDstep ∧ decodeCommand 0x33000000#32 = .ok .seqErun ∧
  decodeS16Word 0x83232258#32 = .s16wSel8 0x3232258#28 ∧ decodeControlByte 0x90#8 = .svbc 0 0 1 2

/-- Decoding the encoding of any instruction gives it back, with the bytes after it, for every operand value. That a command
word's bytes go least significant first is the model's choice (log 20). -/
def Obligations.DecodeEncodeRoundTrip : Prop :=
  ∀ (i : Instr) (rest : List Byte), decode i.port (encode i ++ rest) = .ok (i, rest)

/-- Each stream's item has one meaning: what decodes to an instruction is that instruction's encoding (for a command word in
the model's byte form, log 20). -/
def Obligations.DecodedBytesAreEncoding : Prop :=
  ∀ (p : Port) (bs rest : List Byte) (i : Instr), decode p bs = .ok (i, rest) → i.port = p ∧ bs = encode i ++ rest

/-! Faults and the faulted state. -/

/-- The faulted state (R263): while a fault is recorded every `CMD` write and every host write is ignored, every host
read of the block's registers and slots answers what the state holds, no step but reset changes the fault registers, and
a program that ends so does not end well. -/
def Obligations.FaultedStateIgnoresWrites : Prop :=
  ∀ (s : State) (m : Move) (rest : List Move), s.fault ≠ .noFault → s.inbox = m :: rest →
    (∀ r v, m = .wr r v → step s = .next { s with inbox := rest }) ∧
    (∀ i v, m = .inWr i v → step s = .next { s with inbox := rest }) ∧
    (∀ b, m = .ebApp b → step s = .next { s with inbox := rest }) ∧
    (∀ v, m = .linApp v → step s = .next { s with inbox := rest }) ∧
    (∀ r, m = .rd r → step s = .next { s with inbox := rest, reads := s.readReg r :: s.reads }) ∧
    (∀ i, m = .inRd i → step s = .next { s with inbox := rest, reads := s.inBuf[i] :: s.reads }) ∧
    (∀ i, m = .outRd i → step s = .next { s with inbox := rest, reads := s.outBuf[i] :: s.reads }) ∧
    (∀ a b, m = .ebRd a → s.eb.byteAt a = some b →
      step s = .next { s with inbox := rest, reads := b.setWidth 32 :: s.reads }) ∧
    (∀ i v, m = .loutRd i → s.lout[i]? = some v → step s = .next { s with inbox := rest, reads := v :: s.reads }) ∧
    (∀ t, step s = .next t → m ≠ .reset → t.fault = s.fault ∧ t.finfo = s.finfo) ∧
    (m = .reset → ∃ t, step s = .next t ∧ t.fault = .noFault ∧ t.finfo = 0) ∧
    { s with inbox := [] }.goodEnd = false

/-- Every instruction executed while a fault is recorded changes nothing (R130 line 1). -/
def Obligations.ExecWhileFaultedChangesNothing : Prop :=
  ∀ (i : Instr) (s : State), s.fault ≠ .noFault → exec i s = .next s

/-- A block command whose count is 0 or above 128 raises `BadCount` with the count (R265). -/
def Obligations.BadCountRaises : Prop :=
  ∀ (c : Codec) (n : BitVec 8) (s : State), s.fault = .noFault → n.toNat = 0 ∨ 128 < n.toNat →
    exec (encodeCommand c n) s = .next { s with fault := .badCount, finfo := BitVec.ofNat 32 n.toNat } ∧
    exec (decodeCommandOf c n) s = .next { s with fault := .badCount, finfo := BitVec.ofNat 32 n.toNat }

/-- Faults are precise (R262): a command that records a fault leaves the state before it, plus the two fault registers;
a run leaves the state its completed iterations reached, the one before the iteration that records the fault, plus the two
fault registers. -/
def Obligations.FaultsArePrecise : Prop :=
  ∀ (i : Instr) (s t : State), s.fault = .noFault → exec i s = .next t → t.fault ≠ .noFault →
    (i ≠ .seqDrun ∧ i ≠ .seqErun ∧ t = { s with fault := t.fault, finfo := t.finfo }) ∨
    (i = .seqDrun ∧ ∃ k u, Iterates .seqDstep k s u ∧ u.fault = .noFault ∧ u.rem ≠ 0 ∧
      exec .seqDstep u = .next t ∧ t = { u with fault := t.fault, finfo := t.finfo }) ∨
    (i = .seqErun ∧ ∃ k u, Iterates .seqEstep k s u ∧ u.fault = .noFault ∧ u.rem ≠ 0 ∧
      exec .seqEstep u = .next t ∧ t = { u with fault := t.fault, finfo := t.finfo })

/-! Registers and host moves. -/

/-- `STATUS`: bit 0 is 1 exactly when a fault is recorded, bit 1 exactly when `REM` is not 0, all else 0 (R30). -/
def Obligations.StatusIsComputed : Prop :=
  ∀ s : State, (s.readReg 1).toNat =
    (if s.fault ≠ .noFault then 1 else 0) + (if s.rem ≠ 0 then 2 else 0)

/-- The code read from `FAULT` is the cause's number in the table of R261. -/
def Obligations.FaultCodes : Prop :=
  ∀ s : State, (s.readReg 2).toNat = (match s.fault with
    | .noFault => 0 | .illegalCommand => 1 | .badCount => 2 | .representationOverflow => 3 | .encodeOverflow => 4
    | .decodeUnderrun => 5 | .seqDone => 6 | .badCodec => 7 | .listUnderrun => 8 | .listOverflow => 9)

/-- Host accesses of the control registers (R236): a read answers the register and changes nothing; a write stores the
32 bits in `SUM`, `CODEC`, `REM`, `CUR`, `LRP` and does nothing for a read-only or reserved number. -/
def Obligations.RegisterAccess : Prop :=
  (∀ (s : State) (r : Nat) (rest : List Move), s.inbox = .rd r :: rest →
    step s = .next { s with inbox := rest, reads := s.readReg r :: s.reads }) ∧
  (∀ s : State, s.readReg 0 = 0 ∧ s.readReg 3 = s.finfo ∧ s.readReg 4 = s.sum ∧ s.readReg 5 = s.codec ∧
    s.readReg 6 = s.rem ∧ s.readReg 7 = s.cur ∧ s.readReg 8 = BitVec.ofNat 32 s.eb.length ∧ s.readReg 9 = s.lrp ∧
    s.readReg 10 = BitVec.ofNat 32 s.lin.length ∧ s.readReg 11 = BitVec.ofNat 32 s.lout.length ∧
    ∀ r, 12 ≤ r → s.readReg r = 0) ∧
  (∀ (s : State) (r : Nat) (v : Word) (rest : List Move), s.inbox = .wr r v :: rest → s.fault = .noFault →
    (r = 4 → step s = .next { s with inbox := rest, sum := v }) ∧
    (r = 5 → step s = .next { s with inbox := rest, codec := v }) ∧
    (r = 6 → step s = .next { s with inbox := rest, rem := v }) ∧
    (r = 7 → step s = .next { s with inbox := rest, cur := v }) ∧
    (r = 9 → step s = .next { s with inbox := rest, lrp := v }) ∧
    (r = 1 ∨ r = 2 ∨ r = 3 ∨ r = 8 ∨ r = 10 ∨ r = 11 ∨ 12 ≤ r → step s = .next { s with inbox := rest }))

/-- The host's write of `IN[i]` stores the value in that slot and changes nothing else; a read answers the slot (R231). -/
def Obligations.InputSlotAccess : Prop :=
  (∀ (s : State) (i : Fin 128) (v : Word) (rest : List Move), s.inbox = .inWr i v :: rest → s.fault = .noFault →
    ∃ b, step s = .next { s with inbox := rest, inBuf := b } ∧ b[i] = v ∧
      ∀ j : Fin 128, j ≠ i → b[j] = s.inBuf[j]) ∧
  (∀ (s : State) (i : Fin 128) (rest : List Move), s.inbox = .inRd i :: rest →
    step s = .next { s with inbox := rest, reads := s.inBuf[i] :: s.reads })

/-- A host append to `EB` puts the byte at `EBLEN`, changes no byte below and raises `EBLEN`; with `EB` full it raises
`EncodeOverflow(EBLEN)` and appends nothing (R233). -/
def Obligations.EbAppend : Prop :=
  ∀ (s : State) (b : Byte) (rest : List Move), s.Inv → s.inbox = .ebApp b :: rest → s.fault = .noFault →
    (s.eb.length < s.params.ebCap →
      ∃ eb, step s = .next { s with inbox := rest, eb := eb } ∧ Appended s.eb eb [b]) ∧
    (s.eb.length = s.params.ebCap →
      step s = .next { s with inbox := rest, fault := .encodeOverflow, finfo := BitVec.ofNat 32 s.eb.length })

/-- A host append to `LIN` puts the value at `LINLEN`; with `LIN` full it raises `ListOverflow(LINLEN)` and appends
nothing (R234). -/
def Obligations.LinAppend : Prop :=
  ∀ (s : State) (v : Word) (rest : List Move), s.Inv → s.inbox = .linApp v :: rest → s.fault = .noFault →
    (s.lin.length < s.params.linCap → step s = .next { s with inbox := rest, lin := s.lin ++ [v] }) ∧
    (s.lin.length = s.params.linCap →
      step s = .next { s with inbox := rest, fault := .listOverflow, finfo := BitVec.ofNat 32 s.lin.length })

/-- Host reads of `OUT`, `EB` and `LOUT` answer the slot, byte or value and change nothing; a read at or beyond the end
of `EB` or `LOUT` is no move of the host and stops the model by name (R232, R235, R237). -/
def Obligations.BufferReads : Prop :=
  (∀ (s : State) (i : Fin 128) (rest : List Move), s.inbox = .outRd i :: rest →
    step s = .next { s with inbox := rest, reads := s.outBuf[i] :: s.reads }) ∧
  (∀ (s : State) (a : Nat) (rest : List Move), s.Inv → s.inbox = .ebRd a :: rest →
    (a < s.eb.length → ∃ b, s.eb.byteAt a = some b ∧
      step s = .next { s with inbox := rest, reads := BitVec.ofNat 32 b.toNat :: s.reads }) ∧
    (s.eb.length ≤ a → step s = .fault (.noSuchByte a))) ∧
  (∀ (s : State) (i : Nat) (rest : List Move), s.inbox = .loutRd i :: rest →
    (∀ h : i < s.lout.length, step s = .next { s with inbox := rest, reads := s.lout[i] :: s.reads }) ∧
    (s.lout.length ≤ i → step s = .fault (.noSuchListValue i)))

/-! Simple16. -/

/-- The default catalogue has the widths of R103 and the counts `floor(28 / WID)`, and meets R104. -/
def Obligations.DefaultCatalogue : Prop :=
  Config.catalog.toList.map (·.wid) = [1, 2, 3, 4, 5, 6, 7, 8, 9, 10, 11, 12, 13, 14, 16, 28] ∧
  (∀ s : Fin 16, (Config.catalog.layout s).cnt = 28 / (Config.catalog.layout s).wid) ∧ Config.catalog.wf

/-- Among the feasible selectors the encoder takes one that takes the most values, and the least `s` among equals (R153).
-/
def Obligations.SelectorTakesMost : Prop :=
  ∀ (cat : Catalog) (v : List Word) (s : Fin 16), cat.wf → selectLayout cat v = some s →
    feasible cat v s = true ∧ ∀ t, feasible cat v t = true →
      min (cat.layout t).cnt v.length ≤ min (cat.layout s).cnt v.length ∧
      (min (cat.layout t).cnt v.length = min (cat.layout s).cnt v.length → s ≤ t)

/-- At a position some selector is feasible exactly when the value there is below `2^S16_WMAX` (R154). -/
def Obligations.FeasibleExactlyBelowWidest : Prop :=
  ∀ (cat : Catalog) (x : Word) (xs : List Word), cat.wf →
    ((∃ s, feasible cat (x :: xs) s = true) ↔ x.toNat < 2 ^ (cat.layout 15).wid)

/-- `S16.ENC n` (R152): with every value below `2^S16_WMAX` the greedy words exist, at most `n` of them, and the command
appends their bytes and changes nothing else, or raises `EncodeOverflow(EBLEN)` when they do not fit; otherwise it raises
`RepresentationOverflow(i)` for the first value that is not below. -/
def Obligations.S16EncodeResult : Prop :=
  ∀ (s : State) (n : BitVec 8), s.Inv → s.fault = .noFault → countLegal n →
    (Encodable .simple16 s.params.catalog (firstSlots s.inBuf n.toNat) →
      ∃ ws, S16Words s.params.catalog (firstSlots s.inBuf n.toNat) ws ∧ ws.length ≤ n.toNat) ∧
    (∀ ws, S16Words s.params.catalog (firstSlots s.inBuf n.toNat) ws →
      (s.eb.length + 4 * ws.length ≤ s.params.ebCap → ∃ eb stg,
        exec (.s16Enc n) s = .next { s with eb := eb, scratch := { s.scratch with stg := stg } } ∧
        Appended s.eb eb (wordBytes ws)) ∧
      (s.params.ebCap < s.eb.length + 4 * ws.length → exec (.s16Enc n) s =
        .next { s with fault := .encodeOverflow, finfo := BitVec.ofNat 32 s.eb.length })) ∧
    (∀ (i : Nat) (h : i < 128), i < n.toNat → 2 ^ (s.params.catalog.layout 15).wid ≤ s.inBuf[i].toNat →
      (∀ (j : Nat) (hj : j < i), s.inBuf[j].toNat < 2 ^ (s.params.catalog.layout 15).wid) →
      exec (.s16Enc n) s = .next { s with fault := .representationOverflow, finfo := BitVec.ofNat 32 i })

/-- `S16.DEC n` (R156): when the words from `CUR` hold `n` values it writes them to `OUT[0..n-1]`, leaves `CUR` past the
last word consumed and changes nothing else, in a build with `NONCANONICAL_DECODE = natural` on any bytes and in every
build on canonical ones; when they run out it raises `DecodeUnderrun` with the index of the missing word, in every build.
-/
def Obligations.S16DecodeResult : Prop :=
  ∀ (s : State) (n : BitVec 8), s.Inv → s.fault = .noFault → countLegal n →
    (∀ d q, S16Reads s.params.catalog s.eb s.cur.toNat n.toNat d q →
      s.params.noncanonical = .natural ∨ Canonical .simple16 s.params.catalog s.eb s.cur.toNat n.toNat q → ∃ out tmp,
      exec (.s16Dec n) s = .next { s with
        outBuf := out, cur := BitVec.ofNat 32 q, scratch := { s.scratch with tmp := tmp } } ∧
      SlotsWritten s.outBuf out d) ∧
    (∀ a, S16Short s.params.catalog s.eb s.cur.toNat n.toNat a →
      exec (.s16Dec n) s = .next { s with fault := .decodeUnderrun, finfo := BitVec.ofNat 32 a })

/-- A block of `n` values is at least `ceil(n/28)` and at most `n` words of 4 bytes (R10, R155). -/
def Obligations.S16EncodeSize : Prop :=
  ∀ (s t : State) (n : BitVec 8), s.Inv → s.fault = .noFault → exec (.s16Enc n) s = .next t → t.fault = .noFault →
    ∃ k, t.eb.length = s.eb.length + 4 * k ∧ (n.toNat + 27) / 28 ≤ k ∧ k ≤ n.toNat

/-- The boundary blocks of R158, with the default catalogue: 128 zeros encode to 20 zero bytes, `2^28 - 1` alone to
`FF FF FF FF`, and both decode back. -/
def Obligations.S16BoundaryBlocks : Prop :=
  ∀ s : State, s.Inv → s.fault = .noFault → s.params.catalog = Config.catalog →
    s.eb.length + 20 ≤ s.params.ebCap →
    ((∀ i : Fin 128, s.inBuf[i] = 0) → ∃ t u, exec (.s16Enc 128) s = .next t ∧
      Appended s.eb t.eb (List.replicate 20 0) ∧
      exec (.s16Dec 128) { t with cur := BitVec.ofNat 32 s.eb.length } = .next u ∧
      (∀ i : Fin 128, u.outBuf[i] = 0) ∧ u.fault = .noFault ∧ u.cur.toNat = s.eb.length + 20) ∧
    (s.inBuf[0] = 0x0FFFFFFF#32 → ∃ t u, exec (.s16Enc 1) s = .next t ∧
      Appended s.eb t.eb (List.replicate 4 0xFF#8) ∧
      exec (.s16Dec 1) { t with cur := BitVec.ofNat 32 s.eb.length } = .next u ∧
      u.outBuf[0] = 0x0FFFFFFF#32 ∧ u.fault = .noFault ∧ u.cur.toNat = s.eb.length + 4)

/-- Each of the sixteen data-word rows: the unpacker cuts the word into all the fields of the selector's layout, `TMP[j]`
the lane `[27 - j*W : 28 - (j+1)*W]` for `j < CNT`, and changes nothing else (R102, R156, R159). That a data word is
executed by itself is the model's own (log 5). -/
def Obligations.DataWordUnpacks : Prop :=
  ∀ (k : Fin 16) (data : BitVec 28) (s : State), s.params.catalog.wf → s.fault = .noFault → ∃ tmp,
    exec (s16wRow k data) s = .next { s with scratch := { s.scratch with tmp := tmp } } ∧
    ∀ (j : Nat) (h : j < 28), tmp[j] =
      if j < (s.params.catalog.layout k).cnt then
        BitVec.ofNat 32 (data.toNat / 2 ^ (28 - (j + 1) * (s.params.catalog.layout k).wid) %
          2 ^ (s.params.catalog.layout k).wid)
      else s.scratch.tmp[j]

/-! StreamVByte. -/

/-- `bytelen(x)` is the least number of bytes, 1 to 4, that hold the value (R181). -/
def Obligations.ByteLengthIsMinimal : Prop :=
  ∀ x : Word, 1 ≤ bytelen x ∧ bytelen x ≤ 4 ∧ x.toNat < 256 ^ bytelen x ∧
    ∀ k, 1 ≤ k → x.toNat < 256 ^ k → bytelen x ≤ k

/-- `SVB.ENC n` (R182): it appends the groups' bytes, each control byte directly before its group's data, and changes
nothing else, or raises `EncodeOverflow(EBLEN)` when they do not fit; it has no other fault. -/
def Obligations.SvbEncodeResult : Prop :=
  ∀ (s : State) (n : BitVec 8), s.Inv → s.fault = .noFault → countLegal n →
    (s.eb.length + (svbBytes (firstSlots s.inBuf n.toNat)).length ≤ s.params.ebCap → ∃ eb stg,
      exec (.svbEnc n) s = .next { s with eb := eb, scratch := { s.scratch with stg := stg } } ∧
      Appended s.eb eb (svbBytes (firstSlots s.inBuf n.toNat))) ∧
    (s.params.ebCap < s.eb.length + (svbBytes (firstSlots s.inBuf n.toNat)).length →
      exec (.svbEnc n) s = .next { s with fault := .encodeOverflow, finfo := BitVec.ofNat 32 s.eb.length })

/-- `SVB.DEC n` (R185): when the groups from `CUR` hold `n` values it writes them to `OUT[0..n-1]`, leaves `CUR` past the
last group's data and changes nothing else, in a build with `NONCANONICAL_DECODE = natural` on any bytes and in every
build on canonical ones; when bytes run out it raises `DecodeUnderrun` with the index of the first byte of the access that
does not fit, in every build. -/
def Obligations.SvbDecodeResult : Prop :=
  ∀ (s : State) (n : BitVec 8), s.Inv → s.fault = .noFault → countLegal n →
    (∀ d q, d.length = n.toNat → SvbReads s.eb s.cur.toNat d q →
      s.params.noncanonical = .natural ∨ Canonical .streamVByte s.params.catalog s.eb s.cur.toNat n.toNat q →
      ∃ out lens,
      exec (.svbDec n) s = .next { s with
        outBuf := out, cur := BitVec.ofNat 32 q, scratch := { s.scratch with lens := lens } } ∧
      SlotsWritten s.outBuf out d) ∧
    (∀ a, SvbShort s.eb s.cur.toNat n.toNat a →
      exec (.svbDec n) s = .next { s with fault := .decodeUnderrun, finfo := BitVec.ofNat 32 a })

/-- A block of `n` values is between `ceil(n/4) + n` and `ceil(n/4) + 4n` bytes (R10, R182). -/
def Obligations.SvbEncodeSize : Prop :=
  ∀ (s t : State) (n : BitVec 8), s.Inv → s.fault = .noFault → exec (.svbEnc n) s = .next t → t.fault = .noFault →
    s.eb.length + ((n.toNat + 3) / 4 + n.toNat) ≤ t.eb.length ∧
    t.eb.length ≤ s.eb.length + ((n.toNat + 3) / 4 + 4 * n.toNat)

/-- The source's tag property (R187): for 0, 255, 256, 65536 the tags are 0, 0, 1, 2 and decoding gives the values back.
-/
def Obligations.SvbTagExample : Prop :=
  ∀ s : State, s.Inv → s.fault = .noFault → s.eb.length + 8 ≤ s.params.ebCap →
    s.inBuf[0] = 0 → s.inBuf[1] = 255 → s.inBuf[2] = 256 → s.inBuf[3] = 65536 →
    ∃ t u c, exec (.svbEnc 4) s = .next t ∧ t.eb.byteAt s.eb.length = some c ∧
      decodeControlByte c = .svbc 0 0 1 2 ∧ Appended s.eb t.eb [c, 0x00, 0xFF, 0x00, 0x01, 0x00, 0x00, 0x01] ∧
      exec (.svbDec 4) { t with cur := BitVec.ofNat 32 s.eb.length } = .next u ∧ u.fault = .noFault ∧
      u.outBuf[0] = 0 ∧ u.outBuf[1] = 255 ∧ u.outBuf[2] = 256 ∧ u.outBuf[3] = 65536

/-- The control-byte row: the four lane lengths are the tags plus one, and nothing else changes (R111, R112). That a
control byte is executed by itself is the model's own (log 5). -/
def Obligations.ControlByteGivesLengths : Prop :=
  ∀ (t0 t1 t2 t3 : BitVec 2) (s : State), s.fault = .noFault →
    exec (.svbc t0 t1 t2 t3) s = .next { s with scratch := { s.scratch with
      lens := #v[t0.toNat + 1, t1.toNat + 1, t2.toNat + 1, t3.toNat + 1] } }

/-! Laws of the block codec contract. -/

/-- Round trip (R138), for both codecs: what an encode of `n` values appended at `a`, a later decode of the same codec
and count from `CUR = a` gives back, leaving `CUR` just past it. -/
def Obligations.BlockRoundTrip : Prop :=
  ∀ (c : Codec) (n : BitVec 8) (s t u : State), s.Inv → s.fault = .noFault → countLegal n →
    exec (encodeCommand c n) s = .next t → t.fault = .noFault →
    u.fault = .noFault → u.params = t.params → u.eb.wf → t.eb <+: u.eb → u.cur.toNat = s.eb.length →
    ∃ u', exec (decodeCommandOf c n) u = .next u' ∧ u'.fault = .noFault ∧
      SlotsWritten u.outBuf u'.outBuf (firstSlots s.inBuf n.toNat) ∧ u'.cur.toNat = t.eb.length

/-- Non-interference (R139): two blocks laid end to end, of the same or different codecs, decode independently, the first
decode leaving `CUR` at the second block's first byte. -/
def Obligations.TwoBlocksDecodeIndependently : Prop :=
  ∀ (c1 c2 : Codec) (n1 n2 : BitVec 8) (a a' b b' u : State),
    a.Inv → a.fault = .noFault → countLegal n1 → exec (encodeCommand c1 n1) a = .next a' → a'.fault = .noFault →
    b.Inv → b.fault = .noFault → countLegal n2 → exec (encodeCommand c2 n2) b = .next b' → b'.fault = .noFault →
    b.eb = a'.eb → b.params = a.params → u.fault = .noFault → u.params = a.params → u.eb.wf → b'.eb <+: u.eb →
    u.cur.toNat = a.eb.length →
    ∃ u1 u2, exec (decodeCommandOf c1 n1) u = .next u1 ∧ exec (decodeCommandOf c2 n2) u1 = .next u2 ∧
      SlotsWritten u.outBuf u1.outBuf (firstSlots a.inBuf n1.toNat) ∧ u1.cur.toNat = b.eb.length ∧
      SlotsWritten u1.outBuf u2.outBuf (firstSlots b.inBuf n2.toNat) ∧ u2.cur.toNat = b'.eb.length ∧
      u2.fault = .noFault

/-- The sum hint is advisory (R136): a block command does the same whatever `SUM` holds. -/
def Obligations.SumIsAdvisory : Prop :=
  ∀ (c : Codec) (n : BitVec 8) (s : State) (x : Word),
    exec (encodeCommand c n) { s with sum := x } =
      onNext (fun t => { t with sum := x }) (exec (encodeCommand c n) s) ∧
    exec (decodeCommandOf c n) { s with sum := x } =
      onNext (fun t => { t with sum := x }) (exec (decodeCommandOf c n) s)

/-- Determinism (R137): two encodes of the same values and count append the same bytes, whatever the rest of the state;
two decodes of the same bytes and count give the same values and consume the same number of bytes. -/
def Obligations.CodecsAreFunctions : Prop :=
  ∀ (c : Codec) (n : BitVec 8) (s1 s2 t1 t2 : State), s1.Inv → s2.Inv → s1.fault = .noFault → s2.fault = .noFault →
    s1.params.catalog = s2.params.catalog → t1.fault = .noFault → t2.fault = .noFault →
    (firstSlots s1.inBuf n.toNat = firstSlots s2.inBuf n.toNat → exec (encodeCommand c n) s1 = .next t1 →
      exec (encodeCommand c n) s2 = .next t2 → ∃ bs, Appended s1.eb t1.eb bs ∧ Appended s2.eb t2.eb bs) ∧
    ((∀ k, s1.eb.byteAt (s1.cur.toNat + k) = s2.eb.byteAt (s2.cur.toNat + k)) →
      exec (decodeCommandOf c n) s1 = .next t1 → exec (decodeCommandOf c n) s2 = .next t2 →
      firstSlots t1.outBuf n.toNat = firstSlots t2.outBuf n.toNat ∧
      t1.cur.toNat - s1.cur.toNat = t2.cur.toNat - s2.cur.toNat)

/-- No instruction's effect on anything but scratch depends on what scratch holds (R41). -/
def Obligations.ScratchNeverMatters : Prop :=
  ∀ (i : Instr) (s : State) (x y : Scratch),
    onNext (fun t => { t with scratch := y }) (exec i { s with scratch := x }) =
      onNext (fun t => { t with scratch := y }) (exec i s)

/-- In a build with `NONCANONICAL_DECODE = refuse`, a block decode of bytes that exist writes the values to `OUT[0..n-1]`,
leaves `CUR` past the bytes consumed and changes nothing else exactly when the bytes are canonical for its codec and count,
and has no meaning otherwise (93_implementation_defined.md U1, log 3). -/
def Obligations.RefuseBuildNeedsCanonicalBytes : Prop :=
  ∀ (c : Codec) (n : BitVec 8) (s : State) (d : List Word) (q : Nat), s.Inv → s.fault = .noFault → countLegal n →
    s.params.noncanonical = .refuse → Reads c s.params.catalog s.eb s.cur.toNat n.toNat d q →
    (Canonical c s.params.catalog s.eb s.cur.toNat n.toNat q → ∃ out sc,
      exec (decodeCommandOf c n) s = .next { s with outBuf := out, cur := BitVec.ofNat 32 q, scratch := sc } ∧
      SlotsWritten s.outBuf out d ∧ sc.stg = s.scratch.stg) ∧
    (¬ Canonical c s.params.catalog s.eb s.cur.toNat n.toNat q →
      exec (decodeCommandOf c n) s = .refused .noncanonicalDecode)

/-- A decode that completes leaves `CUR` within `EB` (R26). -/
def Obligations.CompletedDecodeKeepsCursorInside : Prop :=
  ∀ (c : Codec) (n : BitVec 8) (s t : State), s.Inv → s.fault = .noFault →
    exec (decodeCommandOf c n) s = .next t → t.fault = .noFault →
    s.cur.toNat < t.cur.toNat ∧ t.cur.toNat ≤ t.eb.length

/-! The sequence driver. -/

/-- `SEQ.DSTEP` (R204), its checks in order and its one commit. The checks before the block's values are in hand are the
same in every build; what follows is R204's in a build with `NONCANONICAL_DECODE = natural` on any bytes and in every build
on canonical ones, and a build set to `refuse` gives bytes that are not canonical no meaning (U1, log 3). -/
def Obligations.DecodeStepResult : Prop :=
  ∀ s : State, s.Inv → s.fault = .noFault →
    (s.rem = 0 → exec .seqDstep s = .next { s with fault := .seqDone, finfo := 0 }) ∧
    (s.rem ≠ 0 → s.codec ≠ 0 → s.codec ≠ 1 →
      exec .seqDstep s = .next { s with fault := .badCodec, finfo := s.codec }) ∧
    (∀ c, s.rem ≠ 0 → s.codec = codecNumber c →
      (∀ a, Short c s.params.catalog s.eb s.cur.toNat (min 128 s.rem.toNat) a →
        exec .seqDstep s = .next { s with fault := .decodeUnderrun, finfo := BitVec.ofNat 32 a }) ∧
      (∀ d q, Reads c s.params.catalog s.eb s.cur.toNat (min 128 s.rem.toNat) d q →
        (s.params.noncanonical = .natural ∨
            Canonical c s.params.catalog s.eb s.cur.toNat (min 128 s.rem.toNat) q →
          (s.params.loutCap < s.lout.length + min 128 s.rem.toNat → exec .seqDstep s =
            .next { s with fault := .listOverflow, finfo := BitVec.ofNat 32 s.lout.length }) ∧
          (s.lout.length + min 128 s.rem.toNat ≤ s.params.loutCap → ∃ out sc,
            exec .seqDstep s = .next { s with
              outBuf := out, cur := BitVec.ofNat 32 q, lout := s.lout ++ d,
              rem := BitVec.ofNat 32 (s.rem.toNat - min 128 s.rem.toNat), scratch := sc } ∧
            SlotsWritten s.outBuf out d ∧ sc.stg = s.scratch.stg)) ∧
        (s.params.noncanonical = .refuse →
          ¬ Canonical c s.params.catalog s.eb s.cur.toNat (min 128 s.rem.toNat) q →
          exec .seqDstep s = .refused .noncanonicalDecode)))

/-- `SEQ.ESTEP` (R206), its checks in order and its one commit. -/
def Obligations.EncodeStepResult : Prop :=
  ∀ s : State, s.Inv → s.fault = .noFault →
    (s.rem = 0 → exec .seqEstep s = .next { s with fault := .seqDone, finfo := 0 }) ∧
    (s.rem ≠ 0 → s.codec ≠ 0 → s.codec ≠ 1 →
      exec .seqEstep s = .next { s with fault := .badCodec, finfo := s.codec }) ∧
    (∀ c, s.rem ≠ 0 → s.codec = codecNumber c →
      (s.lin.length < s.lrp.toNat + min 128 s.rem.toNat →
        exec .seqEstep s = .next { s with fault := .listUnderrun, finfo := s.lrp }) ∧
      (∀ v, s.lrp.toNat + min 128 s.rem.toNat ≤ s.lin.length →
        v = (s.lin.drop s.lrp.toNat).take (min 128 s.rem.toNat) →
        (∀ (i : Nat) (h : i < v.length), c = .simple16 → 2 ^ (s.params.catalog.layout 15).wid ≤ v[i].toNat →
          (∀ (j : Nat) (hj : j < i), v[j].toNat < 2 ^ (s.params.catalog.layout 15).wid) →
          exec .seqEstep s = .next { s with fault := .representationOverflow, finfo := BitVec.ofNat 32 i }) ∧
        (Encodable c s.params.catalog v → ∃ bs, EncodesTo c s.params.catalog v bs) ∧
        (∀ bs, EncodesTo c s.params.catalog v bs →
          (s.params.ebCap < s.eb.length + bs.length → exec .seqEstep s =
            .next { s with fault := .encodeOverflow, finfo := BitVec.ofNat 32 s.eb.length }) ∧
          (s.eb.length + bs.length ≤ s.params.ebCap → ∃ inb eb stg,
            exec .seqEstep s = .next { s with
              inBuf := inb, sum := BitVec.ofNat 32 (total v), eb := eb,
              lrp := BitVec.ofNat 32 (s.lrp.toNat + v.length),
              rem := BitVec.ofNat 32 (s.rem.toNat - v.length), scratch := { s.scratch with stg := stg } } ∧
            SlotsWritten s.inBuf inb v ∧ Appended s.eb eb bs))))

/-- A decode step is the block decode of its codec and count, plus the append to `LOUT` and the lowering of `REM`
(R204). -/
def Obligations.DecodeStepIsBlockDecode : Prop :=
  ∀ (c : Codec) (n : BitVec 8) (s t : State), s.fault = .noFault → s.rem ≠ 0 → s.codec = codecNumber c →
    n.toNat = min 128 s.rem.toNat → exec (decodeCommandOf c n) s = .next t → t.fault = .noFault →
    s.lout.length + n.toNat ≤ s.params.loutCap →
    exec .seqDstep s = .next { t with
      lout := s.lout ++ firstSlots t.outBuf n.toNat, rem := BitVec.ofNat 32 (s.rem.toNat - n.toNat) }

/-- An encode step is "load the chunk, set the hint, run `S16.ENC n` or `SVB.ENC n`", then `LRP` raised and `REM`
lowered by `n` (R206). -/
def Obligations.EncodeStepIsBlockEncode : Prop :=
  ∀ (c : Codec) (n : BitVec 8) (s : State) (inb : Vector Word 128) (t : State), s.Inv → s.fault = .noFault →
    s.rem ≠ 0 → s.codec = codecNumber c → n.toNat = min 128 s.rem.toNat →
    s.lrp.toNat + n.toNat ≤ s.lin.length → SlotsWritten s.inBuf inb ((s.lin.drop s.lrp.toNat).take n.toNat) →
    exec (encodeCommand c n) { s with
      inBuf := inb, sum := BitVec.ofNat 32 (total ((s.lin.drop s.lrp.toNat).take n.toNat)) } = .next t →
    t.fault = .noFault →
    exec .seqEstep s = .next { t with
      lrp := BitVec.ofNat 32 (s.lrp.toNat + n.toNat), rem := BitVec.ofNat 32 (s.rem.toNat - n.toNat) }

/-- A run on an empty list does nothing and raises nothing (R208, R209, R270, R271). -/
def Obligations.EmptyRunDoesNothing : Prop :=
  ∀ s : State, s.rem = 0 → exec .seqDrun s = .next s ∧ exec .seqErun s = .next s

/-- A decode run over a list that stands in `EB` and fits `LOUT` appends its values to `LOUT`, leaves `CUR` past the last
block and `REM = 0`, with the last blocks in `OUT` (R208), in a build with `NONCANONICAL_DECODE = natural` on any bytes and
in every build on a list an encode run laid there. -/
def Obligations.DecodeRunCompletes : Prop :=
  ∀ (c : Codec) (s : State) (ds : List Word) (q : Nat), s.Inv → s.fault = .noFault →
    s.codec = codecNumber c →
    ReadsRun c s.params.catalog s.eb s.cur.toNat s.rem.toNat ds q →
    s.params.noncanonical = .natural ∨ CanonicalRun c s.params.catalog s.eb s.cur.toNat s.rem.toNat q →
    s.lout.length + s.rem.toNat ≤ s.params.loutCap →
    ∃ out sc, exec .seqDrun s = .next { s with
        outBuf := out, cur := BitVec.ofNat 32 q, lout := s.lout ++ ds, rem := 0, scratch := sc } ∧
      SlotsAfterRun s.outBuf out ds

/-- An encode run over encodable values that fit `EB` appends the blocks of their chunks, leaves `LRP` past the run,
`REM = 0`, and the last chunk and its sum in `IN` and `SUM` (R209). -/
def Obligations.EncodeRunCompletes : Prop :=
  ∀ (c : Codec) (s : State) (v : List Word), s.Inv → s.fault = .noFault → s.codec = codecNumber c → s.rem ≠ 0 →
    s.lrp.toNat + s.rem.toNat ≤ s.lin.length → v = (s.lin.drop s.lrp.toNat).take s.rem.toNat →
    (Encodable c s.params.catalog v → ∃ bs, EncodesRun c s.params.catalog v bs) ∧
    (∀ bs, EncodesRun c s.params.catalog v bs → s.eb.length + bs.length ≤ s.params.ebCap →
      ∃ inb eb sc, exec .seqErun s = .next { s with
          inBuf := inb, sum := BitVec.ofNat 32 (total (v.drop ((v.length - 1) / 128 * 128))), eb := eb,
          lrp := BitVec.ofNat 32 (s.lrp.toNat + v.length), rem := 0, scratch := sc } ∧
        SlotsAfterRun s.inBuf inb v ∧ Appended s.eb eb bs)

/-- A run ends after at most `ceil(REM / 128)` iterations of its step, with `REM = 0` or a fault recorded (R210). -/
def Obligations.RunsTerminate : Prop :=
  ∀ (s t : State), s.fault = .noFault →
    (exec .seqDrun s = .next t → ∃ k, k ≤ (s.rem.toNat + 127) / 128 ∧ Iterates .seqDstep k s t ∧
      (t.rem = 0 ∨ t.fault ≠ .noFault)) ∧
    (exec .seqErun s = .next t → ∃ k, k ≤ (s.rem.toNat + 127) / 128 ∧ Iterates .seqEstep k s t ∧
      (t.rem = 0 ∨ t.fault ≠ .noFault))

/-- Whole-list round trip (R212): an encode run, then a decode run of the same codec and length from where the encode run
began to append, gives back exactly the values of the run, provided no capacity fault arises. -/
def Obligations.ListRoundTrip : Prop :=
  ∀ (s t u : State), s.Inv → s.fault = .noFault → exec .seqErun s = .next t → t.fault = .noFault →
    u.fault = .noFault → u.params = t.params → u.eb.wf → t.eb <+: u.eb → u.cur.toNat = s.eb.length →
    u.codec = s.codec → u.rem = s.rem → u.lout.length + u.rem.toNat ≤ u.params.loutCap →
    ∃ u', exec .seqDrun u = .next u' ∧ u'.fault = .noFault ∧ u'.rem = 0 ∧ u'.cur.toNat = t.eb.length ∧
      u'.lout = u.lout ++ (s.lin.drop s.lrp.toNat).take s.rem.toNat

/-- The partial final block (R211, an inference of the spec's own): an encode run of 130 values is two encode steps, one
block of 128 and one of 2, and a decode run gives all 130 back in order, leaving `CUR` where the encode run left `EBLEN`.
-/
def Obligations.PartialFinalBlock : Prop :=
  ∀ (s t u : State), s.Inv → s.fault = .noFault → s.rem = 130 → exec .seqErun s = .next t → t.fault = .noFault →
    u.fault = .noFault → u.params = t.params → u.eb.wf → t.eb <+: u.eb → u.cur.toNat = s.eb.length →
    u.codec = s.codec → u.rem = 130 → u.lout.length + 130 ≤ u.params.loutCap →
    ∃ m u', exec .seqEstep s = .next m ∧ m.fault = .noFault ∧ m.rem = 2 ∧ m.lrp.toNat = s.lrp.toNat + 128 ∧
      exec .seqEstep m = .next t ∧ t.rem = 0 ∧ t.lrp.toNat = s.lrp.toNat + 130 ∧
      exec .seqDrun u = .next u' ∧ u'.fault = .noFault ∧ u'.rem = 0 ∧ u'.cur.toNat = t.eb.length ∧
      u'.lout = u.lout ++ (s.lin.drop s.lrp.toNat).take 130

/-! The whole machine. -/

/-- The invariant is kept by every step from every state that has it. -/
def Obligations.StepKeepsInvariant : Prop := ∀ (s t : State), s.Inv → step s = .next t → t.Inv

/-- Every step but reset keeps every byte of `EB` and only ever appends to `EB`, `LIN` and `LOUT` (R24, R27). -/
def Obligations.StoresAreAppendOnly : Prop :=
  ∀ (s t : State), s.Inv → step s = .next t → (∃ rest, s.inbox = .reset :: rest) ∨
    ((∀ a, a < s.eb.length → t.eb.byteAt a = s.eb.byteAt a) ∧ s.eb.length ≤ t.eb.length ∧
      s.lin <+: t.lin ∧ s.lout <+: t.lout)

/-- No instruction writes `CODEC` or `LIN`, changes the build's parameters or touches the host's side (R27, R28). -/
def Obligations.CommandsNeverTouch : Prop :=
  ∀ (i : Instr) (s t : State), exec i s = .next t →
    t.codec = s.codec ∧ t.lin = s.lin ∧ t.params = s.params ∧ t.inbox = s.inbox ∧ t.reads = s.reads

/-- In a build with `NONCANONICAL_DECODE = natural` every instruction answers a next state from every state. Two parts of
this are the model's choices: that an encode of an `IN` slot nothing has written runs on a free value, where U7 says refuse
(log 1), and that a data item is executed by itself (log 5). -/
def Obligations.EveryInstructionAnswers : Prop :=
  ∀ (i : Instr) (s : State), s.params.noncanonical = .natural → ∃ t, exec i s = .next t

/-- Instances share no state (R285): steps of two instances commute, and a step of one leaves every other as it was. -/
def Obligations.InstancesAreIndependent : Prop :=
  (∀ (sys : System) (i j : Nat), i ≠ j →
    (sys.stepAt i).bind (fun x => System.stepAt x j) = (sys.stepAt j).bind (fun x => System.stepAt x i)) ∧
  (∀ (sys new : System) (i j : Nat), i ≠ j → sys.stepAt i = some new → new[j]? = sys[j]?)

/-- A run is its steps one after another (R208, R209): where some iterations lead to a state with `REM = 0` or a fault
recorded, the run ends in that state; where the next iteration has no meaning in the build, the run has none. -/
def Obligations.RunsFollowTheirSteps : Prop :=
  ∀ (k : Nat) (s u : State), s.fault = .noFault →
    (Iterates .seqDstep k s u → u.rem = 0 ∨ u.fault ≠ .noFault → exec .seqDrun s = .next u) ∧
    (Iterates .seqEstep k s u → u.rem = 0 ∨ u.fault ≠ .noFault → exec .seqErun s = .next u) ∧
    (∀ r, Iterates .seqDstep k s u → u.rem ≠ 0 → u.fault = .noFault → exec .seqDstep u = .refused r →
      exec .seqDrun s = .refused r)
end

