-- ==== Sys2Proof/Laws/State.lean ====
section
/-! SUPPORT. One lemma per field per named update of State, all true by unfolding the update once, so that no proof unfolds an update. -/

namespace Sys2Proof.Machine

/-! `State.raise`. -/

@[simp] theorem State.raise_params (s : State) (f : Cause) (info : Word) : (s.raise f info).params = s.params := rfl
@[simp] theorem State.raise_inBuf (s : State) (f : Cause) (info : Word) : (s.raise f info).inBuf = s.inBuf := rfl
@[simp] theorem State.raise_outBuf (s : State) (f : Cause) (info : Word) : (s.raise f info).outBuf = s.outBuf := rfl
@[simp] theorem State.raise_eb (s : State) (f : Cause) (info : Word) : (s.raise f info).eb = s.eb := rfl
@[simp] theorem State.raise_lin (s : State) (f : Cause) (info : Word) : (s.raise f info).lin = s.lin := rfl
@[simp] theorem State.raise_lout (s : State) (f : Cause) (info : Word) : (s.raise f info).lout = s.lout := rfl
@[simp] theorem State.raise_fault (s : State) (f : Cause) (info : Word) : (s.raise f info).fault = f := rfl
@[simp] theorem State.raise_finfo (s : State) (f : Cause) (info : Word) : (s.raise f info).finfo = info := rfl
@[simp] theorem State.raise_sum (s : State) (f : Cause) (info : Word) : (s.raise f info).sum = s.sum := rfl
@[simp] theorem State.raise_codec (s : State) (f : Cause) (info : Word) : (s.raise f info).codec = s.codec := rfl
@[simp] theorem State.raise_rem (s : State) (f : Cause) (info : Word) : (s.raise f info).rem = s.rem := rfl
@[simp] theorem State.raise_cur (s : State) (f : Cause) (info : Word) : (s.raise f info).cur = s.cur := rfl
@[simp] theorem State.raise_lrp (s : State) (f : Cause) (info : Word) : (s.raise f info).lrp = s.lrp := rfl
@[simp] theorem State.raise_scratch (s : State) (f : Cause) (info : Word) : (s.raise f info).scratch = s.scratch := rfl
@[simp] theorem State.raise_epoch (s : State) (f : Cause) (info : Word) : (s.raise f info).epoch = s.epoch := rfl
@[simp] theorem State.raise_inbox (s : State) (f : Cause) (info : Word) : (s.raise f info).inbox = s.inbox := rfl
@[simp] theorem State.raise_reads (s : State) (f : Cause) (info : Word) : (s.raise f info).reads = s.reads := rfl

/-! `State.answerRead`. -/

@[simp] theorem State.answerRead_params (s : State) (v : Word) : (s.answerRead v).params = s.params := rfl
@[simp] theorem State.answerRead_inBuf (s : State) (v : Word) : (s.answerRead v).inBuf = s.inBuf := rfl
@[simp] theorem State.answerRead_outBuf (s : State) (v : Word) : (s.answerRead v).outBuf = s.outBuf := rfl
@[simp] theorem State.answerRead_eb (s : State) (v : Word) : (s.answerRead v).eb = s.eb := rfl
@[simp] theorem State.answerRead_lin (s : State) (v : Word) : (s.answerRead v).lin = s.lin := rfl
@[simp] theorem State.answerRead_lout (s : State) (v : Word) : (s.answerRead v).lout = s.lout := rfl
@[simp] theorem State.answerRead_fault (s : State) (v : Word) : (s.answerRead v).fault = s.fault := rfl
@[simp] theorem State.answerRead_finfo (s : State) (v : Word) : (s.answerRead v).finfo = s.finfo := rfl
@[simp] theorem State.answerRead_sum (s : State) (v : Word) : (s.answerRead v).sum = s.sum := rfl
@[simp] theorem State.answerRead_codec (s : State) (v : Word) : (s.answerRead v).codec = s.codec := rfl
@[simp] theorem State.answerRead_rem (s : State) (v : Word) : (s.answerRead v).rem = s.rem := rfl
@[simp] theorem State.answerRead_cur (s : State) (v : Word) : (s.answerRead v).cur = s.cur := rfl
@[simp] theorem State.answerRead_lrp (s : State) (v : Word) : (s.answerRead v).lrp = s.lrp := rfl
@[simp] theorem State.answerRead_scratch (s : State) (v : Word) : (s.answerRead v).scratch = s.scratch := rfl
@[simp] theorem State.answerRead_epoch (s : State) (v : Word) : (s.answerRead v).epoch = s.epoch := rfl
@[simp] theorem State.answerRead_inbox (s : State) (v : Word) : (s.answerRead v).inbox = s.inbox := rfl
@[simp] theorem State.answerRead_reads (s : State) (v : Word) : (s.answerRead v).reads = v :: s.reads := rfl

/-! `State.writeDecoded`. -/

@[simp] theorem State.writeDecoded_params (s : State) (d : Decoded) : (s.writeDecoded d).params = s.params := by
  unfold State.writeDecoded; rfl
@[simp] theorem State.writeDecoded_inBuf (s : State) (d : Decoded) : (s.writeDecoded d).inBuf = s.inBuf := by
  unfold State.writeDecoded; rfl
@[simp] theorem State.writeDecoded_outBuf (s : State) (d : Decoded) : (s.writeDecoded d).outBuf = overwrite s.outBuf d.vals := by
  unfold State.writeDecoded; rfl
@[simp] theorem State.writeDecoded_eb (s : State) (d : Decoded) : (s.writeDecoded d).eb = s.eb := by
  unfold State.writeDecoded; rfl
@[simp] theorem State.writeDecoded_lin (s : State) (d : Decoded) : (s.writeDecoded d).lin = s.lin := by
  unfold State.writeDecoded; rfl
@[simp] theorem State.writeDecoded_lout (s : State) (d : Decoded) : (s.writeDecoded d).lout = s.lout := by
  unfold State.writeDecoded; rfl
@[simp] theorem State.writeDecoded_fault (s : State) (d : Decoded) : (s.writeDecoded d).fault = s.fault := by
  unfold State.writeDecoded; rfl
@[simp] theorem State.writeDecoded_finfo (s : State) (d : Decoded) : (s.writeDecoded d).finfo = s.finfo := by
  unfold State.writeDecoded; rfl
@[simp] theorem State.writeDecoded_sum (s : State) (d : Decoded) : (s.writeDecoded d).sum = s.sum := by
  unfold State.writeDecoded; rfl
@[simp] theorem State.writeDecoded_codec (s : State) (d : Decoded) : (s.writeDecoded d).codec = s.codec := by
  unfold State.writeDecoded; rfl
@[simp] theorem State.writeDecoded_rem (s : State) (d : Decoded) : (s.writeDecoded d).rem = s.rem := by
  unfold State.writeDecoded; rfl
@[simp] theorem State.writeDecoded_cur (s : State) (d : Decoded) : (s.writeDecoded d).cur = BitVec.ofNat 32 d.past := by
  unfold State.writeDecoded; rfl
@[simp] theorem State.writeDecoded_lrp (s : State) (d : Decoded) : (s.writeDecoded d).lrp = s.lrp := by
  unfold State.writeDecoded; rfl
@[simp] theorem State.writeDecoded_scratch (s : State) (d : Decoded) : (s.writeDecoded d).scratch = d.units.foldl (Scratch.absorb s.params.catalog) s.scratch := by
  unfold State.writeDecoded; rfl
@[simp] theorem State.writeDecoded_epoch (s : State) (d : Decoded) : (s.writeDecoded d).epoch = s.epoch := by
  unfold State.writeDecoded; rfl
@[simp] theorem State.writeDecoded_inbox (s : State) (d : Decoded) : (s.writeDecoded d).inbox = s.inbox := by
  unfold State.writeDecoded; rfl
@[simp] theorem State.writeDecoded_reads (s : State) (d : Decoded) : (s.writeDecoded d).reads = s.reads := by
  unfold State.writeDecoded; rfl

/-! `State.appendEncoded`. -/

@[simp] theorem State.appendEncoded_params (s : State) (bs : List Byte) : (s.appendEncoded bs).params = s.params := rfl
@[simp] theorem State.appendEncoded_inBuf (s : State) (bs : List Byte) : (s.appendEncoded bs).inBuf = s.inBuf := rfl
@[simp] theorem State.appendEncoded_outBuf (s : State) (bs : List Byte) : (s.appendEncoded bs).outBuf = s.outBuf := rfl
@[simp] theorem State.appendEncoded_eb (s : State) (bs : List Byte) : (s.appendEncoded bs).eb = s.eb.append bs := rfl
@[simp] theorem State.appendEncoded_lin (s : State) (bs : List Byte) : (s.appendEncoded bs).lin = s.lin := rfl
@[simp] theorem State.appendEncoded_lout (s : State) (bs : List Byte) : (s.appendEncoded bs).lout = s.lout := rfl
@[simp] theorem State.appendEncoded_fault (s : State) (bs : List Byte) : (s.appendEncoded bs).fault = s.fault := rfl
@[simp] theorem State.appendEncoded_finfo (s : State) (bs : List Byte) : (s.appendEncoded bs).finfo = s.finfo := rfl
@[simp] theorem State.appendEncoded_sum (s : State) (bs : List Byte) : (s.appendEncoded bs).sum = s.sum := rfl
@[simp] theorem State.appendEncoded_codec (s : State) (bs : List Byte) : (s.appendEncoded bs).codec = s.codec := rfl
@[simp] theorem State.appendEncoded_rem (s : State) (bs : List Byte) : (s.appendEncoded bs).rem = s.rem := rfl
@[simp] theorem State.appendEncoded_cur (s : State) (bs : List Byte) : (s.appendEncoded bs).cur = s.cur := rfl
@[simp] theorem State.appendEncoded_lrp (s : State) (bs : List Byte) : (s.appendEncoded bs).lrp = s.lrp := rfl
@[simp] theorem State.appendEncoded_scratch (s : State) (bs : List Byte) : (s.appendEncoded bs).scratch = { s.scratch with stg := overwrite s.scratch.stg bs } := rfl
@[simp] theorem State.appendEncoded_epoch (s : State) (bs : List Byte) : (s.appendEncoded bs).epoch = s.epoch := rfl
@[simp] theorem State.appendEncoded_inbox (s : State) (bs : List Byte) : (s.appendEncoded bs).inbox = s.inbox := rfl
@[simp] theorem State.appendEncoded_reads (s : State) (bs : List Byte) : (s.appendEncoded bs).reads = s.reads := rfl

/-! `State.commitDecodeStep`. -/

@[simp] theorem State.commitDecodeStep_params (s : State) (d : Decoded) : (s.commitDecodeStep d).params = s.params := by
  simp [State.commitDecodeStep]
@[simp] theorem State.commitDecodeStep_inBuf (s : State) (d : Decoded) : (s.commitDecodeStep d).inBuf = s.inBuf := by
  simp [State.commitDecodeStep]
@[simp] theorem State.commitDecodeStep_outBuf (s : State) (d : Decoded) : (s.commitDecodeStep d).outBuf = overwrite s.outBuf d.vals := by
  simp [State.commitDecodeStep]
@[simp] theorem State.commitDecodeStep_eb (s : State) (d : Decoded) : (s.commitDecodeStep d).eb = s.eb := by
  simp [State.commitDecodeStep]
@[simp] theorem State.commitDecodeStep_lin (s : State) (d : Decoded) : (s.commitDecodeStep d).lin = s.lin := by
  simp [State.commitDecodeStep]
@[simp] theorem State.commitDecodeStep_lout (s : State) (d : Decoded) : (s.commitDecodeStep d).lout = s.lout ++ d.vals := by
  simp [State.commitDecodeStep]
@[simp] theorem State.commitDecodeStep_fault (s : State) (d : Decoded) : (s.commitDecodeStep d).fault = s.fault := by
  simp [State.commitDecodeStep]
@[simp] theorem State.commitDecodeStep_finfo (s : State) (d : Decoded) : (s.commitDecodeStep d).finfo = s.finfo := by
  simp [State.commitDecodeStep]
@[simp] theorem State.commitDecodeStep_sum (s : State) (d : Decoded) : (s.commitDecodeStep d).sum = s.sum := by
  simp [State.commitDecodeStep]
@[simp] theorem State.commitDecodeStep_codec (s : State) (d : Decoded) : (s.commitDecodeStep d).codec = s.codec := by
  simp [State.commitDecodeStep]
@[simp] theorem State.commitDecodeStep_rem (s : State) (d : Decoded) : (s.commitDecodeStep d).rem = s.rem - BitVec.ofNat 32 s.stepSize := by
  simp [State.commitDecodeStep]
@[simp] theorem State.commitDecodeStep_cur (s : State) (d : Decoded) : (s.commitDecodeStep d).cur = BitVec.ofNat 32 d.past := by
  simp [State.commitDecodeStep]
@[simp] theorem State.commitDecodeStep_lrp (s : State) (d : Decoded) : (s.commitDecodeStep d).lrp = s.lrp := by
  simp [State.commitDecodeStep]
@[simp] theorem State.commitDecodeStep_scratch (s : State) (d : Decoded) : (s.commitDecodeStep d).scratch = d.units.foldl (Scratch.absorb s.params.catalog) s.scratch := by
  simp [State.commitDecodeStep]
@[simp] theorem State.commitDecodeStep_epoch (s : State) (d : Decoded) : (s.commitDecodeStep d).epoch = s.epoch := by
  simp [State.commitDecodeStep]
@[simp] theorem State.commitDecodeStep_inbox (s : State) (d : Decoded) : (s.commitDecodeStep d).inbox = s.inbox := by
  simp [State.commitDecodeStep]
@[simp] theorem State.commitDecodeStep_reads (s : State) (d : Decoded) : (s.commitDecodeStep d).reads = s.reads := by
  simp [State.commitDecodeStep]

/-! `State.commitEncodeStep`. -/

@[simp] theorem State.commitEncodeStep_params (s : State) (bs : List Byte) : (s.commitEncodeStep bs).params = s.params := by
  simp [State.commitEncodeStep]
@[simp] theorem State.commitEncodeStep_inBuf (s : State) (bs : List Byte) : (s.commitEncodeStep bs).inBuf = overwrite s.inBuf (s.chunk s.stepSize) := by
  simp [State.commitEncodeStep]
@[simp] theorem State.commitEncodeStep_outBuf (s : State) (bs : List Byte) : (s.commitEncodeStep bs).outBuf = s.outBuf := by
  simp [State.commitEncodeStep]
@[simp] theorem State.commitEncodeStep_eb (s : State) (bs : List Byte) : (s.commitEncodeStep bs).eb = s.eb.append bs := by
  simp [State.commitEncodeStep]
@[simp] theorem State.commitEncodeStep_lin (s : State) (bs : List Byte) : (s.commitEncodeStep bs).lin = s.lin := by
  simp [State.commitEncodeStep]
@[simp] theorem State.commitEncodeStep_lout (s : State) (bs : List Byte) : (s.commitEncodeStep bs).lout = s.lout := by
  simp [State.commitEncodeStep]
@[simp] theorem State.commitEncodeStep_fault (s : State) (bs : List Byte) : (s.commitEncodeStep bs).fault = s.fault := by
  simp [State.commitEncodeStep]
@[simp] theorem State.commitEncodeStep_finfo (s : State) (bs : List Byte) : (s.commitEncodeStep bs).finfo = s.finfo := by
  simp [State.commitEncodeStep]
@[simp] theorem State.commitEncodeStep_sum (s : State) (bs : List Byte) : (s.commitEncodeStep bs).sum = sumOf (s.chunk s.stepSize) := by
  simp [State.commitEncodeStep]
@[simp] theorem State.commitEncodeStep_codec (s : State) (bs : List Byte) : (s.commitEncodeStep bs).codec = s.codec := by
  simp [State.commitEncodeStep]
@[simp] theorem State.commitEncodeStep_rem (s : State) (bs : List Byte) : (s.commitEncodeStep bs).rem = s.rem - BitVec.ofNat 32 s.stepSize := by
  simp [State.commitEncodeStep]
@[simp] theorem State.commitEncodeStep_cur (s : State) (bs : List Byte) : (s.commitEncodeStep bs).cur = s.cur := by
  simp [State.commitEncodeStep]
@[simp] theorem State.commitEncodeStep_lrp (s : State) (bs : List Byte) : (s.commitEncodeStep bs).lrp = s.lrp + BitVec.ofNat 32 s.stepSize := by
  simp [State.commitEncodeStep]
@[simp] theorem State.commitEncodeStep_scratch (s : State) (bs : List Byte) : (s.commitEncodeStep bs).scratch = { s.scratch with stg := overwrite s.scratch.stg bs } := by
  simp [State.commitEncodeStep]
@[simp] theorem State.commitEncodeStep_epoch (s : State) (bs : List Byte) : (s.commitEncodeStep bs).epoch = s.epoch := by
  simp [State.commitEncodeStep]
@[simp] theorem State.commitEncodeStep_inbox (s : State) (bs : List Byte) : (s.commitEncodeStep bs).inbox = s.inbox := by
  simp [State.commitEncodeStep]
@[simp] theorem State.commitEncodeStep_reads (s : State) (bs : List Byte) : (s.commitEncodeStep bs).reads = s.reads := by
  simp [State.commitEncodeStep]

/-! `State.load`. -/

@[simp] theorem State.load_params (s : State) (p : List Line) : (s.load p).params = s.params := rfl
@[simp] theorem State.load_inBuf (s : State) (p : List Line) : (s.load p).inBuf = s.inBuf := rfl
@[simp] theorem State.load_outBuf (s : State) (p : List Line) : (s.load p).outBuf = s.outBuf := rfl
@[simp] theorem State.load_eb (s : State) (p : List Line) : (s.load p).eb = s.eb := rfl
@[simp] theorem State.load_lin (s : State) (p : List Line) : (s.load p).lin = s.lin := rfl
@[simp] theorem State.load_lout (s : State) (p : List Line) : (s.load p).lout = s.lout := rfl
@[simp] theorem State.load_fault (s : State) (p : List Line) : (s.load p).fault = s.fault := rfl
@[simp] theorem State.load_finfo (s : State) (p : List Line) : (s.load p).finfo = s.finfo := rfl
@[simp] theorem State.load_sum (s : State) (p : List Line) : (s.load p).sum = s.sum := rfl
@[simp] theorem State.load_codec (s : State) (p : List Line) : (s.load p).codec = s.codec := rfl
@[simp] theorem State.load_rem (s : State) (p : List Line) : (s.load p).rem = s.rem := rfl
@[simp] theorem State.load_cur (s : State) (p : List Line) : (s.load p).cur = s.cur := rfl
@[simp] theorem State.load_lrp (s : State) (p : List Line) : (s.load p).lrp = s.lrp := rfl
@[simp] theorem State.load_scratch (s : State) (p : List Line) : (s.load p).scratch = s.scratch := rfl
@[simp] theorem State.load_epoch (s : State) (p : List Line) : (s.load p).epoch = s.epoch := rfl
@[simp] theorem State.load_inbox (s : State) (p : List Line) : (s.load p).inbox = s.inbox ++ p.flatMap Line.moves := rfl
@[simp] theorem State.load_reads (s : State) (p : List Line) : (s.load p).reads = s.reads := rfl

/-! `State.resetWith` and `State.resetBlock`. -/

@[simp] theorem State.resetWith_params (p : Params) (e : Nat) : (State.resetWith p e).params = p := rfl
@[simp] theorem State.resetWith_eb (p : Params) (e : Nat) : (State.resetWith p e).eb = [] := rfl
@[simp] theorem State.resetWith_lin (p : Params) (e : Nat) : (State.resetWith p e).lin = [] := rfl
@[simp] theorem State.resetWith_lout (p : Params) (e : Nat) : (State.resetWith p e).lout = [] := rfl
@[simp] theorem State.resetWith_fault (p : Params) (e : Nat) : (State.resetWith p e).fault = .noFault := rfl
@[simp] theorem State.resetWith_finfo (p : Params) (e : Nat) : (State.resetWith p e).finfo = 0 := rfl
@[simp] theorem State.resetWith_sum (p : Params) (e : Nat) : (State.resetWith p e).sum = 0 := rfl
@[simp] theorem State.resetWith_codec (p : Params) (e : Nat) : (State.resetWith p e).codec = 0 := rfl
@[simp] theorem State.resetWith_rem (p : Params) (e : Nat) : (State.resetWith p e).rem = 0 := rfl
@[simp] theorem State.resetWith_cur (p : Params) (e : Nat) : (State.resetWith p e).cur = 0 := rfl
@[simp] theorem State.resetWith_lrp (p : Params) (e : Nat) : (State.resetWith p e).lrp = 0 := rfl
@[simp] theorem State.resetWith_scratch (p : Params) (e : Nat) : (State.resetWith p e).scratch = Scratch.unspecified e := rfl
@[simp] theorem State.resetWith_epoch (p : Params) (e : Nat) : (State.resetWith p e).epoch = e := rfl
@[simp] theorem State.resetWith_inbox (p : Params) (e : Nat) : (State.resetWith p e).inbox = [] := rfl
@[simp] theorem State.resetWith_reads (p : Params) (e : Nat) : (State.resetWith p e).reads = [] := rfl
@[simp] theorem State.resetBlock_params (s : State) : s.resetBlock.params = s.params := by
  simp [State.resetBlock]
@[simp] theorem State.resetBlock_eb (s : State) : s.resetBlock.eb = [] := by
  simp [State.resetBlock]
@[simp] theorem State.resetBlock_lin (s : State) : s.resetBlock.lin = [] := by
  simp [State.resetBlock]
@[simp] theorem State.resetBlock_lout (s : State) : s.resetBlock.lout = [] := by
  simp [State.resetBlock]
@[simp] theorem State.resetBlock_fault (s : State) : s.resetBlock.fault = .noFault := by
  simp [State.resetBlock]
@[simp] theorem State.resetBlock_finfo (s : State) : s.resetBlock.finfo = 0 := by
  simp [State.resetBlock]
@[simp] theorem State.resetBlock_sum (s : State) : s.resetBlock.sum = 0 := by
  simp [State.resetBlock]
@[simp] theorem State.resetBlock_codec (s : State) : s.resetBlock.codec = 0 := by
  simp [State.resetBlock]
@[simp] theorem State.resetBlock_rem (s : State) : s.resetBlock.rem = 0 := by
  simp [State.resetBlock]
@[simp] theorem State.resetBlock_cur (s : State) : s.resetBlock.cur = 0 := by
  simp [State.resetBlock]
@[simp] theorem State.resetBlock_lrp (s : State) : s.resetBlock.lrp = 0 := by
  simp [State.resetBlock]
@[simp] theorem State.resetBlock_scratch (s : State) : s.resetBlock.scratch = Scratch.unspecified (s.epoch + 1) := by
  simp [State.resetBlock]
@[simp] theorem State.resetBlock_epoch (s : State) : s.resetBlock.epoch = s.epoch + 1 := by
  simp [State.resetBlock]
@[simp] theorem State.resetBlock_inbox (s : State) : s.resetBlock.inbox = s.inbox := by
  simp [State.resetBlock]
@[simp] theorem State.resetBlock_reads (s : State) : s.resetBlock.reads = s.reads := by
  simp [State.resetBlock]

/-! `State.writeReg` changes at most the five writable registers. -/

@[simp] theorem State.writeReg_params (s : State) (r : Nat) (v : Word) : (s.writeReg r v).params = s.params := by
  unfold State.writeReg; split <;> rfl
@[simp] theorem State.writeReg_inBuf (s : State) (r : Nat) (v : Word) : (s.writeReg r v).inBuf = s.inBuf := by
  unfold State.writeReg; split <;> rfl
@[simp] theorem State.writeReg_outBuf (s : State) (r : Nat) (v : Word) : (s.writeReg r v).outBuf = s.outBuf := by
  unfold State.writeReg; split <;> rfl
@[simp] theorem State.writeReg_eb (s : State) (r : Nat) (v : Word) : (s.writeReg r v).eb = s.eb := by
  unfold State.writeReg; split <;> rfl
@[simp] theorem State.writeReg_lin (s : State) (r : Nat) (v : Word) : (s.writeReg r v).lin = s.lin := by
  unfold State.writeReg; split <;> rfl
@[simp] theorem State.writeReg_lout (s : State) (r : Nat) (v : Word) : (s.writeReg r v).lout = s.lout := by
  unfold State.writeReg; split <;> rfl
@[simp] theorem State.writeReg_fault (s : State) (r : Nat) (v : Word) : (s.writeReg r v).fault = s.fault := by
  unfold State.writeReg; split <;> rfl
@[simp] theorem State.writeReg_finfo (s : State) (r : Nat) (v : Word) : (s.writeReg r v).finfo = s.finfo := by
  unfold State.writeReg; split <;> rfl
@[simp] theorem State.writeReg_scratch (s : State) (r : Nat) (v : Word) : (s.writeReg r v).scratch = s.scratch := by
  unfold State.writeReg; split <;> rfl
@[simp] theorem State.writeReg_epoch (s : State) (r : Nat) (v : Word) : (s.writeReg r v).epoch = s.epoch := by
  unfold State.writeReg; split <;> rfl
@[simp] theorem State.writeReg_inbox (s : State) (r : Nat) (v : Word) : (s.writeReg r v).inbox = s.inbox := by
  unfold State.writeReg; split <;> rfl
@[simp] theorem State.writeReg_reads (s : State) (r : Nat) (v : Word) : (s.writeReg r v).reads = s.reads := by
  unfold State.writeReg; split <;> rfl

end Sys2Proof.Machine
end

