-- ==== Sys2Proof/Laws/Memory.lean ====
section
/-! SUPPORT. The encoded buffer's laws: appending keeps the canonical form and every byte below, and the bytes
appended read back; writing slots changes exactly the slots written. -/

namespace Sys2Proof.Machine

@[simp] theorem cellsFrom_length (a : Nat) (bs : List Byte) : (cellsFrom a bs).length = bs.length := by
  induction bs generalizing a with
  | nil => rfl
  | cons b bs ih => simp [cellsFrom, ih]

@[simp] theorem Memory.append_length (m : Memory) (bs : List Byte) :
    (m.append bs).length = m.length + bs.length := by
  simp [Memory.append]

theorem cellsFrom_keys (a : Nat) (bs : List Byte) : (cellsFrom a bs).map (·.1) = List.range' a bs.length := by
  induction bs generalizing a with
  | nil => rfl
  | cons b bs ih => simp [cellsFrom, ih, List.range'_succ]

/-- Appending keeps the canonical form. -/
theorem Memory.append_wf {m : Memory} (h : m.wf) (bs : List Byte) : (m.append bs).wf := by
  unfold Memory.wf at *
  rw [Memory.append_length, Memory.append, List.map_append, h, cellsFrom_keys, List.range_eq_range',
    List.range_eq_range']
  simpa using List.range'_append_1 (s := 0) (m := m.length) (n := bs.length)

theorem Memory.nil_wf : Memory.wf [] := rfl

theorem lookup_cellsFrom (a : Nat) (bs : List Byte) (i : Nat) :
    (cellsFrom a bs).lookup (a + i) = bs[i]? := by
  induction bs generalizing a i with
  | nil => rfl
  | cons b bs ih =>
    cases i with
    | zero => simp [cellsFrom]
    | succ i =>
      have h : (a + (i + 1) == a) = false := by simp
      rw [cellsFrom, List.lookup_cons, h]
      have := ih (a + 1) i
      rw [show a + 1 + i = a + (i + 1) by omega] at this
      simpa using this

/-- A canonical buffer is the cells of its bytes from index 0 on. -/
theorem Memory.eq_cellsFrom {m : Memory} (h : m.wf) : m = cellsFrom 0 (m.map (·.2)) := by
  have key : ∀ (m : Memory) (a : Nat), m.map (·.1) = List.range' a m.length → m = cellsFrom a (m.map (·.2)) := by
    intro m
    induction m with
    | nil => intros; rfl
    | cons c m ih =>
      intro a h
      simp only [List.map_cons, List.length_cons, List.range'_succ, List.cons.injEq] at h
      obtain ⟨h1, h2⟩ := h
      simp only [List.map_cons, cellsFrom, List.cons.injEq]
      exact ⟨Prod.ext h1 rfl, ih _ h2⟩
  apply key
  unfold Memory.wf at h
  rw [h, List.range_eq_range']

/-- The byte at an index of a canonical buffer is the one at that place of its bytes. -/
theorem Memory.byteAt_eq {m : Memory} (h : m.wf) (a : Nat) : m.byteAt a = (m.map (·.2))[a]? := by
  conv_lhs => rw [Memory.eq_cellsFrom h]
  have := lookup_cellsFrom 0 (m.map (·.2)) a
  rw [Nat.zero_add] at this
  simp [Memory.byteAt, Memory.unlisted, this]

theorem cellsFrom_bytes (a : Nat) (bs : List Byte) : (cellsFrom a bs).map (·.2) = bs := by
  induction bs generalizing a with
  | nil => rfl
  | cons b bs ih => simp [cellsFrom, ih]

/-- The bytes of a buffer after an append. -/
theorem Memory.append_bytes (m : Memory) (bs : List Byte) :
    (m.append bs).map (·.2) = m.map (·.2) ++ bs := by
  simp [Memory.append, cellsFrom_bytes]

/-- No byte below the old length changes, and the new bytes follow it. -/
theorem Memory.byteAt_append {m : Memory} (h : m.wf) (bs : List Byte) (a : Nat) :
    (m.append bs).byteAt a = if a < m.length then m.byteAt a else bs[a - m.length]? := by
  rw [Memory.byteAt_eq (Memory.append_wf h bs), Memory.append_bytes, Memory.byteAt_eq h]
  by_cases ha : a < m.length
  · rw [if_pos ha, List.getElem?_append_left (by simpa using ha)]
  · rw [if_neg ha, List.getElem?_append_right (by simpa using ha)]
    simp

/-- `bytesAt` is the slice of the buffer's bytes, when it is inside. -/
theorem Memory.bytesAt_eq {m : Memory} (h : m.wf) (a k : Nat) (hk : a + k ≤ m.length) :
    m.bytesAt a k = some (((m.map (·.2)).drop a).take k) := by
  induction k generalizing a with
  | zero => simp [Memory.bytesAt]
  | succ k ih =>
    have ha : a < (m.map (·.2)).length := by simp; omega
    simp only [Memory.bytesAt, ih (a + 1) (by omega), Memory.byteAt_eq h, List.getElem?_eq_getElem ha]
    rw [List.drop_eq_getElem_cons ha]
    simp

/-- `MemRead` in one line: the little-endian number of the slice, when it is inside. -/
theorem Memory.read_eq {m : Memory} (h : m.wf) (a k : Nat) :
    m.read a k = if m.length < a + k then none else some (ofLeBytes (((m.map (·.2)).drop a).take k)) := by
  unfold Memory.read
  split
  · rfl
  · rw [Memory.bytesAt_eq h a k (by omega)]; rfl

/-- What is read inside a buffer is read unchanged after an append. -/
theorem Memory.read_append {m : Memory} (h : m.wf) (bs : List Byte) (a k : Nat) (hk : a + k ≤ m.length) :
    (m.append bs).read a k = m.read a k := by
  rw [Memory.read_eq (Memory.append_wf h bs), Memory.read_eq h, Memory.append_bytes, Memory.append_length,
    if_neg (by omega), if_neg (by omega)]
  congr 2
  rw [List.drop_append_of_le_length (by simp; omega), List.take_append_of_le_length (by simp; omega)]

/-! A buffer that holds given bytes from an index on. -/

/-- The canonical buffer `m` holds the bytes `bs` from index `p` on. -/
def Memory.Holds (m : Memory) (p : Nat) (bs : List Byte) : Prop := m.wf ∧ bs <+: (m.map (·.2)).drop p

theorem Memory.Holds.left {m : Memory} {p : Nat} {a b : List Byte} (h : m.Holds p (a ++ b)) : m.Holds p a :=
  ⟨h.1, (List.prefix_append a b).trans h.2⟩

theorem Memory.Holds.right {m : Memory} {p : Nat} {a b : List Byte} (h : m.Holds p (a ++ b)) :
    m.Holds (p + a.length) b := by
  obtain ⟨hw, t, ht⟩ := h
  refine ⟨hw, t, ?_⟩
  rw [← List.drop_drop, ← ht, List.append_assoc, List.drop_left]

theorem Memory.Holds.read {m : Memory} {p : Nat} {bs : List Byte} (h : m.Holds p bs) (hne : bs ≠ []) :
    m.read p bs.length = some (ofLeBytes bs) := by
  obtain ⟨hw, t, ht⟩ := h
  have hlen := congrArg List.length ht
  have hpos : 0 < bs.length := List.length_pos_iff.2 hne
  simp only [List.length_append, List.length_drop, List.length_map] at hlen
  rw [Memory.read_eq hw, if_neg (by omega), ← ht, List.take_left]

/-- What an append wrote is held from the old length on. -/
theorem Memory.holds_append {m : Memory} (h : m.wf) (bs : List Byte) : (m.append bs).Holds m.length bs := by
  refine ⟨Memory.append_wf h bs, [], ?_⟩
  rw [Memory.append_bytes, List.append_nil, List.drop_left' (by simp)]

/-- What a buffer holds it still holds after an append. -/
theorem Memory.Holds.append {m : Memory} {p : Nat} {bs : List Byte} (h : m.Holds p bs) (hp : p ≤ m.length)
    (cs : List Byte) : (m.append cs).Holds p bs := by
  refine ⟨Memory.append_wf h.1 cs, ?_⟩
  rw [Memory.append_bytes, List.drop_append_of_le_length (by simpa using hp)]
  exact h.2.trans (List.prefix_append _ _)

@[simp] theorem overwrite_getElem {α : Type} {n : Nat} (v : Vector α n) (l : List α) (i : Nat) (h : i < n) :
    (overwrite v l)[i] = (l[i]?).getD v[i] := by
  simp [overwrite]

end Sys2Proof.Machine
end

