-- ==== Sys2Proof/Laws/Simple16.lean ====
section
/-! SUPPORT. The Simple16 codec's laws: which selector is chosen, that a packed word's lanes are the values packed, and
that decoding the words of an encode gives the values back. -/

namespace Sys2Proof.Machine

/-! The selector. -/

theorem feasible_iff {cat : Catalog} {v : List Word} {s : Fin 16} :
    feasible cat v s = true ↔ ∀ x ∈ v.take (cat.layout s).cnt, x.toNat < 2 ^ (cat.layout s).wid := by
  simp [feasible]

/-- The selector chosen is the least feasible one (R153). -/
theorem selectLayout_eq_some {cat : Catalog} {v : List Word} {s : Fin 16} :
    selectLayout cat v = some s ↔ feasible cat v s = true ∧ ∀ t < s, feasible cat v t = false := by
  unfold selectLayout
  rw [List.find?_eq_some_iff_getElem]
  constructor
  · rintro ⟨h, i, hi, rfl, hlt⟩
    simp only [List.getElem_finRange] at *
    refine ⟨h, fun t ht => ?_⟩
    have := hlt t.1 (by simpa [Fin.lt_def] using ht)
    simpa using this
  · rintro ⟨h, hlt⟩
    refine ⟨h, s.1, by simp, by simp, fun j hj => ?_⟩
    have := hlt ⟨j, by omega⟩ hj
    simpa using this

theorem selectLayout_eq_none {cat : Catalog} {v : List Word} :
    selectLayout cat v = none ↔ ∀ s, feasible cat v s = false := by
  unfold selectLayout
  rw [List.find?_eq_none]
  simp

theorem wid_le_wmax {cat : Catalog} (h : cat.wf) (s : Fin 16) : (cat.layout s).wid ≤ wmax cat := by
  obtain ⟨-, -, hmono, -⟩ := h
  rcases Nat.lt_or_ge s.1 15 with hs | hs
  · exact (hmono s 15 hs).2.le
  · obtain rfl : s = 15 := Fin.ext (by have := s.isLt; show s.1 = 15; omega)
    exact Nat.le_refl _

/-- Some selector is feasible exactly when the first value is below `2^S16_WMAX` (R154). -/
theorem selectLayout_isSome {cat : Catalog} (h : cat.wf) (x : Word) (xs : List Word) :
    (∃ s, selectLayout cat (x :: xs) = some s) ↔ x.toNat < 2 ^ wmax cat := by
  constructor
  · rintro ⟨s, hs⟩
    have hf := feasible_iff.1 (selectLayout_eq_some.1 hs).1
    have h1 := (h.1 s).1
    have hx : x ∈ (x :: xs).take (cat.layout s).cnt := by
      obtain ⟨k, hk⟩ : ∃ k, (cat.layout s).cnt = k + 1 := ⟨(cat.layout s).cnt - 1, by omega⟩
      simp [hk]
    exact Nat.lt_of_lt_of_le (hf x hx) (Nat.pow_le_pow_right (by decide) (wid_le_wmax h s))
  · intro hx
    rcases hsel : selectLayout cat (x :: xs) with _ | s
    · have := selectLayout_eq_none.1 hsel 15
      have h15 : feasible cat (x :: xs) 15 = true := by
        rw [feasible_iff]
        have hc : (cat.layout 15).cnt = 1 := h.2.2.2
        simp only [hc, List.take_succ_cons, List.take_zero, List.mem_singleton, forall_eq]
        exact hx
      rw [h15] at this; cases this
    · exact ⟨s, rfl⟩

/-! Lanes. -/

/-- The packed fields as an exact sum: value `i` of the list is worth `2^(28-(j+i+1)*W)`. -/
def laneSum (width : Nat) : Nat → List Word → Nat
  | _, [] => 0
  | j, x :: xs => x.toNat * 2 ^ (28 - (j + 1) * width) + laneSum width (j + 1) xs

theorem laneSum_lt {width cnt : Nat} (hw : cnt * width ≤ 28) :
    ∀ (xs : List Word) (j : Nat), j + xs.length ≤ cnt → (∀ x ∈ xs, x.toNat < 2 ^ width) →
      laneSum width j xs < 2 ^ (28 - j * width)
  | [], _, _, _ => Nat.two_pow_pos _
  | x :: xs, j, hj, hx => by
    simp only [List.length_cons] at hj
    have ih := laneSum_lt hw xs (j + 1) (by omega) fun y hy => hx y (List.mem_cons_of_mem _ hy)
    have h1 : (j + 1) * width ≤ cnt * width := Nat.mul_le_mul_right _ (by omega)
    have h2 : x.toNat + 1 ≤ 2 ^ width := hx x List.mem_cons_self
    have h3 : 2 ^ (28 - j * width) = 2 ^ width * 2 ^ (28 - (j + 1) * width) := by
      rw [← Nat.pow_add]; congr 1
      have : (j + 1) * width = j * width + width := Nat.succ_mul j width
      omega
    rw [laneSum, h3]
    calc x.toNat * 2 ^ (28 - (j + 1) * width) + laneSum width (j + 1) xs
        < x.toNat * 2 ^ (28 - (j + 1) * width) + 2 ^ (28 - (j + 1) * width) := by omega
      _ = (x.toNat + 1) * 2 ^ (28 - (j + 1) * width) := by ring
      _ ≤ _ := Nat.mul_le_mul_right _ h2

theorem packLanes_toNat {width cnt : Nat} (hw : cnt * width ≤ 28) :
    ∀ (xs : List Word) (j : Nat), j + xs.length ≤ cnt → (∀ x ∈ xs, x.toNat < 2 ^ width) →
      (packLanes width j xs).toNat = laneSum width j xs
  | [], _, _, _ => rfl
  | x :: xs, j, hj, hx => by
    have hj' := hj
    simp only [List.length_cons] at hj
    have hxs : ∀ y ∈ xs, y.toNat < 2 ^ width := fun y hy => hx y (List.mem_cons_of_mem _ hy)
    have ih := packLanes_toNat hw xs (j + 1) (by omega) hxs
    have hr := laneSum_lt hw xs (j + 1) (by omega) hxs
    have hall := laneSum_lt hw (x :: xs) j hj' hx
    have h28 : 2 ^ (28 - j * width) ≤ 2 ^ 28 := Nat.pow_le_pow_right (by decide) (by omega)
    rw [laneSum] at hall
    rw [packLanes, BitVec.toNat_or, ih, BitVec.toNat_shiftLeft, laneShift, Nat.shiftLeft_eq,
      Nat.mod_eq_of_lt (by omega), laneSum, Nat.mul_comm, ← Nat.two_pow_add_eq_or_of_lt hr]

/-- Bits above a lane do not show in it. -/
theorem div_mod_of_high {a m e width r : Nat} (h : e + width ≤ m) :
    (a * 2 ^ m + r) / 2 ^ e % 2 ^ width = r / 2 ^ e % 2 ^ width := by
  obtain ⟨d, rfl⟩ : ∃ d, m = e + width + d := ⟨m - (e + width), by omega⟩
  have h1 : a * 2 ^ (e + width + d) = 2 ^ e * (2 ^ width * (a * 2 ^ d)) := by
    rw [Nat.pow_add, Nat.pow_add]; ring
  rw [h1, Nat.mul_add_div (Nat.two_pow_pos e), Nat.mul_add_mod]

/-- Lane `j + k` of the packed fields is value `k`, and 0 where there is none (R105, R159). -/
theorem laneSum_lane {width cnt : Nat} (hw : cnt * width ≤ 28) :
    ∀ (xs : List Word) (j k : Nat), j + xs.length ≤ cnt → j + k < cnt → (∀ x ∈ xs, x.toNat < 2 ^ width) →
      laneSum width j xs / 2 ^ (28 - (j + k + 1) * width) % 2 ^ width = (xs[k]?.getD 0).toNat
  | [], _, _, _, _, _ => by simp [laneSum]
  | x :: xs, j, 0, hj, _, hx => by
    simp only [List.length_cons] at hj
    have hr := laneSum_lt hw xs (j + 1) (by omega) fun y hy => hx y (List.mem_cons_of_mem _ hy)
    rw [laneSum, Nat.add_zero, Nat.mul_comm, Nat.mul_add_div (Nat.two_pow_pos _), Nat.div_eq_of_lt hr,
      Nat.add_zero, Nat.mod_eq_of_lt (hx x List.mem_cons_self)]
    rfl
  | x :: xs, j, k + 1, hj, hk, hx => by
    simp only [List.length_cons] at hj
    have ih := laneSum_lane hw xs (j + 1) k (by omega) (by omega) fun y hy => hx y (List.mem_cons_of_mem _ hy)
    have h1 : (j + (k + 1) + 1) * width ≤ cnt * width := Nat.mul_le_mul_right _ (by omega)
    have h2 : (j + (k + 1) + 1) * width = (j + 1) * width + (k + 1) * width := by ring
    have h3 : (k + 1) * width = k * width + width := Nat.succ_mul k width
    rw [laneSum, div_mod_of_high (by omega)]
    rw [show j + 1 + k + 1 = j + (k + 1) + 1 by omega] at ih
    simpa using ih

theorem laneOf_toNat {width : Nat} (hw : width ≤ 28) (w : Word) (j : Nat) :
    (laneOf w width j).toNat = w.toNat / 2 ^ (28 - (j + 1) * width) % 2 ^ width := by
  have h : 2 ^ width ≤ 2 ^ 28 := Nat.pow_le_pow_right (by decide) hw
  have hp : 0 < 2 ^ width := Nat.two_pow_pos _
  rw [laneOf, BitVec.toNat_and, BitVec.toNat_ofNat, Nat.mod_eq_of_lt (a := 2 ^ width - 1) (by omega),
    Nat.and_two_pow_sub_one_eq_mod, BitVec.toNat_ushiftRight, Nat.shiftRight_eq_div_pow, laneShift]

/-- The packed word as an exact sum: the selector in the top four bits, the fields below it. -/
theorem packWord_toNat {cat : Catalog} (h : cat.wf) (s : Fin 16) (taken : List Word)
    (hl : taken.length ≤ (cat.layout s).cnt) (hx : ∀ x ∈ taken, x.toNat < 2 ^ (cat.layout s).wid) :
    (packWord cat s taken).toNat = s.1 * 2 ^ 28 + laneSum (cat.layout s).wid 0 taken := by
  have hw := (h.1 s).2.2
  have hr := laneSum_lt hw taken 0 (by omega) hx
  rw [Nat.zero_mul, Nat.sub_zero] at hr
  have hs := s.isLt
  rw [packWord, BitVec.toNat_or, packLanes_toNat hw taken 0 (by omega) hx, BitVec.toNat_shiftLeft,
    BitVec.toNat_ofNat, Nat.shiftLeft_eq, Nat.mod_eq_of_lt (a := s.1) (by omega),
    Nat.mod_eq_of_lt (by omega), Nat.mul_comm, ← Nat.two_pow_add_eq_or_of_lt hr]

theorem fieldSel_toNat (w : Word) : (fieldSel w).toNat = w.toNat / 2 ^ 28 := by
  have := w.isLt
  simp only [fieldSel, BitVec.extractLsb'_toNat, Nat.shiftRight_eq_div_pow]
  omega

theorem fieldSel_packWord {cat : Catalog} (h : cat.wf) (s : Fin 16) (taken : List Word)
    (hl : taken.length ≤ (cat.layout s).cnt) (hx : ∀ x ∈ taken, x.toNat < 2 ^ (cat.layout s).wid) :
    (fieldSel (packWord cat s taken)).toNat = s.1 := by
  have hr := laneSum_lt (h.1 s).2.2 taken 0 (by omega) hx
  rw [Nat.zero_mul, Nat.sub_zero] at hr
  rw [fieldSel_toNat, packWord_toNat h s taken hl hx]
  omega

theorem layoutOf_eq {cat : Catalog} {sel : BitVec 4} {s : Fin 16} (h : sel.toNat = s.1) :
    layoutOf cat sel = (cat.layout s) := by
  unfold layoutOf; congr 1; exact Fin.ext h

/-- The unpacker gives back the values packed, then zeros up to the layout's count. -/
theorem unpackWord_packWord {cat : Catalog} (h : cat.wf) (s : Fin 16) (taken : List Word)
    (hl : taken.length ≤ (cat.layout s).cnt) (hx : ∀ x ∈ taken, x.toNat < 2 ^ (cat.layout s).wid) :
    unpackWord cat (packWord cat s taken) =
      taken ++ List.replicate ((cat.layout s).cnt - taken.length) 0 := by
  have hw := (h.1 s).2.2
  have hwid : (cat.layout s).wid ≤ 28 := Nat.le_trans (Nat.le_mul_of_pos_left _ (h.1 s).1) hw
  simp only [unpackWord, layoutOf_eq (fieldSel_packWord h s taken hl hx)]
  apply List.ext_getElem
  · simp; omega
  · intro i h1 _
    have hi : i < (cat.layout s).cnt := by simpa using h1
    apply BitVec.eq_of_toNat_eq
    have hi1 : (i + 1) * (cat.layout s).wid ≤ (cat.layout s).cnt * (cat.layout s).wid := Nat.mul_le_mul_right _ hi
    have hi2 : (i + 1) * (cat.layout s).wid = i * (cat.layout s).wid + (cat.layout s).wid := Nat.succ_mul _ _
    have hlane := laneSum_lane hw taken 0 i (by omega) (by omega) hx
    rw [Nat.zero_add] at hlane
    rw [List.getElem_map, List.getElem_range, laneOf_toNat hwid, packWord_toNat h s taken hl hx,
      div_mod_of_high (by omega), hlane]
    by_cases hit : i < taken.length
    · rw [List.getElem_append_left hit, List.getElem?_eq_getElem hit]; rfl
    · rw [List.getElem_append_right (by omega), List.getElem_replicate, List.getElem?_eq_none (by omega)]; rfl

/-! Whole blocks. -/

/-- An encode of values below `2^S16_WMAX` yields words (R154), the first failing position otherwise. -/
theorem s16Words_ok {cat : Catalog} (h : cat.wf) :
    ∀ (fuel i : Nat) (v : List Word), v.length ≤ fuel → (∀ x ∈ v, x.toNat < 2 ^ wmax cat) →
      ∃ ws, s16Words cat fuel i v = .ok ws
  | _, _, [], _, _ => ⟨[], by simp [s16Words]⟩
  | fuel + 1, i, x :: xs, hf, hx => by
    obtain ⟨s, hs⟩ := (selectLayout_isSome h x xs).2 (hx x List.mem_cons_self)
    have hc := (h.1 s).1
    obtain ⟨ws, hws⟩ := s16Words_ok h fuel (i + ((x :: xs).take (cat.layout s).cnt).length) ((x :: xs).drop (cat.layout s).cnt)
      (by simp only [List.length_drop, List.length_cons] at *; omega)
      (fun y hy => hx y (List.mem_of_mem_drop hy))
    exact ⟨packWord cat s ((x :: xs).take (cat.layout s).cnt) :: ws, by simp only [s16Words, hs, hws]⟩

/-- The words of an encode, read from the buffer one after another, decode to the values encoded. -/
theorem s16DecFrom_words {cat : Catalog} (h : cat.wf) (eb : Memory) :
    ∀ (fuel i : Nat) (v ws : List Word), s16Words cat fuel i v = .ok ws →
      ∀ (fuel' p : Nat), v.length ≤ fuel' →
      (∀ k (hk : k < ws.length), eb.read (p + 4 * k) 4 = some ws[k].toNat) →
      s16DecFrom cat eb fuel' p v.length = .ok ⟨v, p + 4 * ws.length, ws.map .word⟩
  | _, _, [], ws, henc, fuel', p, _, _ => by
    simp only [s16Words, Except.ok.injEq] at henc
    subst henc
    cases fuel' <;> simp [s16DecFrom]
  | 0, _, x :: xs, ws, henc, _, _, _, _ => by simp [s16Words] at henc
  | fuel + 1, i, x :: xs, ws, henc, 0, p, hf, _ => by simp at hf
  | fuel + 1, i, x :: xs, ws, henc, fuel' + 1, p, hf, hread => by
    simp only [s16Words] at henc
    split at henc
    · cases henc
    · rename_i s hs
      split at henc
      · cases henc
      · rename_i ws' hws'
        simp only [Except.ok.injEq] at henc
        subst henc
        have hc := (h.1 s).1
        have hfe := feasible_iff.1 (selectLayout_eq_some.1 hs).1
        have hl : ((x :: xs).take (cat.layout s).cnt).length ≤ (cat.layout s).cnt := by simp
        have hun := unpackWord_packWord h s _ hl hfe
        have h0 : eb.read p 4 = some (packWord cat s ((x :: xs).take (cat.layout s).cnt)).toNat := by
          have := hread 0 (Nat.zero_lt_succ _)
          rwa [Nat.mul_zero, Nat.add_zero] at this
        have hfields : (unpackWord cat (packWord cat s ((x :: xs).take (cat.layout s).cnt))).take (xs.length + 1)
            = (x :: xs).take (cat.layout s).cnt := by
          rw [hun]
          rcases Nat.le_total (cat.layout s).cnt (x :: xs).length with hle | hle
          · have : ((x :: xs).take (cat.layout s).cnt).length = (cat.layout s).cnt := by
              rw [List.length_take, Nat.min_eq_left hle]
            rw [this, Nat.sub_self, List.replicate_zero, List.append_nil,
              List.take_of_length_le (by rw [this]; simpa using hle)]
          · rw [List.take_of_length_le hle]
            exact List.take_left' (by simp)
        have ih := s16DecFrom_words h eb fuel _ _ ws' hws' fuel' (p + 4)
          (by simp only [List.length_drop, List.length_cons] at *; omega)
          (fun k hk => by
            have := hread (k + 1) (by simpa using hk)
            rw [show p + 4 + 4 * k = p + 4 * (k + 1) by omega]
            simpa using this)
        have hleft : xs.length + 1 - ((x :: xs).take (cat.layout s).cnt).length = ((x :: xs).drop (cat.layout s).cnt).length := by
          simp only [List.length_take, List.length_drop, List.length_cons]; omega
        simp only [List.length_cons, s16DecFrom, h0, BitVec.ofNat_toNat, BitVec.setWidth_eq, hfields, hleft, ih,
          List.take_append_drop, List.map_cons, Except.ok.injEq, Decoded.mk.injEq, and_true, true_and]
        omega

end Sys2Proof.Machine
end

