-- ==== Sys2Proof/Laws/StreamVByte.lean ====
section
/-! SUPPORT. The StreamVByte codec's laws: byte lengths, tags, and that decoding the bytes of an encode gives the values
back. -/

namespace Sys2Proof.Machine

theorem bytelen_bounds (x : Word) : 1 ≤ bytelen x ∧ bytelen x ≤ 4 := by
  unfold bytelen; split_ifs <;> omega

/-- A value fits in its byte length. -/
theorem lt_of_bytelen (x : Word) : x.toNat < 256 ^ bytelen x := by
  have := x.isLt
  unfold bytelen; split_ifs <;> omega

/-- Its low bytes give the value back. -/
theorem ofLeBytes_bytelen (x : Word) : ofLeBytes (leBytes (bytelen x) x.toNat) = x.toNat := by
  rw [ofLeBytes_leBytes, Nat.mod_eq_of_lt (lt_of_bytelen x)]

@[simp] theorem groupData_cons (x : Word) (xs : List Word) :
    groupData (x :: xs) = leBytes (bytelen x) x.toNat ++ groupData xs := by
  simp [groupData]

@[simp] theorem groupData_nil : groupData [] = [] := rfl

/-! Tags. -/

/-- The four tags of a control byte are the byte lengths less one, 0 for an absent value (R112, R114). -/
theorem tagLength_packTags (vs : List Word) (hl : vs.length ≤ 4) (k : Nat) (hk : k < vs.length) :
    tagLength (packTags 0 vs) k = bytelen vs[k] := by
  have key : ∀ a b c d : Fin 4, ∀ k : Fin 4,
      ((fieldTag (BitVec.ofNat 8 a.1 <<< 0 ||| (BitVec.ofNat 8 b.1 <<< 2 ||| (BitVec.ofNat 8 c.1 <<< 4 |||
        BitVec.ofNat 8 d.1 <<< 6))) k.1).toNat) = [a.1, b.1, c.1, d.1][k.1] := by decide
  have hb : ∀ x : Word, bytelen x - 1 < 4 := fun x => by have := bytelen_bounds x; omega
  have hb1 : ∀ x : Word, bytelen x - 1 + 1 = bytelen x := fun x => by have := bytelen_bounds x; omega
  match vs, hl, hk with
  | [a], _, hk =>
    obtain rfl : k = 0 := by simpa using hk
    have := key ⟨_, hb a⟩ 0 0 0 0
    simp [tagLength, packTags] at this ⊢
    have := hb1 a
    omega
  | [a, b], _, hk =>
    have h := fun i => key ⟨_, hb a⟩ ⟨_, hb b⟩ 0 0 i
    have hk' : k < 2 := by simpa using hk
    have := h ⟨k, by omega⟩
    interval_cases k <;> simp [tagLength, packTags] at this ⊢ <;> have := hb1 a <;> have := hb1 b <;> omega
  | [a, b, c], _, hk =>
    have h := fun i => key ⟨_, hb a⟩ ⟨_, hb b⟩ ⟨_, hb c⟩ 0 i
    have hk' : k < 3 := by simpa using hk
    have := h ⟨k, by omega⟩
    interval_cases k <;> simp [tagLength, packTags] at this ⊢ <;> have := hb1 a <;> have := hb1 b <;>
      have := hb1 c <;> omega
  | [a, b, c, d], _, hk =>
    have h := fun i => key ⟨_, hb a⟩ ⟨_, hb b⟩ ⟨_, hb c⟩ ⟨_, hb d⟩ i
    have hk' : k < 4 := by simpa using hk
    have := h ⟨k, by omega⟩
    interval_cases k <;> simp [tagLength, packTags] at this ⊢ <;> have := hb1 a <;> have := hb1 b <;>
      have := hb1 c <;> have := hb1 d <;> omega

/-- The lanes of a group, read from a buffer that holds its data, are the group's values. -/
theorem svbLanes_groupData (eb : Memory) (c : Byte) :
    ∀ (vs : List Word) (k q : Nat), (∀ i (hi : i < vs.length), tagLength c (k + i) = bytelen vs[i]) →
      eb.Holds q (groupData vs) →
      svbLanes eb c k q vs.length = .ok (vs, q + (groupData vs).length)
  | [], _, _, _, _ => rfl
  | x :: xs, k, q, htag, hh => by
    rw [groupData_cons] at hh
    have h0 : tagLength c k = bytelen x := htag 0 (Nat.zero_lt_succ _)
    have hb := bytelen_bounds x
    have hne : leBytes (bytelen x) x.toNat ≠ [] := by
      intro h; have := congrArg List.length h; simp at this; omega
    have hread := hh.left.read hne
    rw [leBytes_length, ofLeBytes_bytelen] at hread
    have hr := hh.right
    rw [leBytes_length] at hr
    have ih := svbLanes_groupData eb c xs (k + 1) (q + bytelen x)
      (fun i hi => by
        have := htag (i + 1) (by simpa using hi)
        rw [show k + 1 + i = k + (i + 1) by omega]
        simpa using this) hr
    simp only [List.length_cons, svbLanes, h0, hread, ih, BitVec.ofNat_toNat, BitVec.setWidth_eq, groupData_cons,
      List.length_append, leBytes_length, Except.ok.injEq, Prod.mk.injEq, true_and]
    omega

/-- An encode is its first group, then the encode of the rest (R110). -/
theorem svbEnc_eq_group {v : List Word} (h : v ≠ []) : svbEnc v = svbGroup (v.take 4) ++ svbEnc (v.drop 4) := by
  match v, h with
  | [a], _ => simp [svbEnc]
  | [a, b], _ => simp [svbEnc]
  | [a, b, c], _ => simp [svbEnc]
  | a :: b :: c :: d :: rest, _ => simp [svbEnc]

/-- The bytes of an encode, held by the buffer, decode to the values encoded. -/
theorem svbDecFrom_enc (eb : Memory) :
    ∀ (fuel p : Nat) (v : List Word), v.length ≤ fuel → eb.Holds p (svbEnc v) →
      ∃ us, svbDecFrom eb fuel p v.length = .ok ⟨v, p + (svbEnc v).length, us⟩
  | fuel, p, [], _, _ => ⟨[], by cases fuel <;> simp [svbDecFrom, svbEnc]⟩
  | 0, _, _ :: _, hf, _ => by simp at hf
  | fuel + 1, p, x :: xs, hf, hh => by
    rw [svbEnc_eq_group (List.cons_ne_nil x xs), svbGroup] at hh
    have hg := hh.left
    rw [show packTags 0 ((x :: xs).take 4) :: groupData ((x :: xs).take 4)
      = [packTags 0 ((x :: xs).take 4)] ++ groupData ((x :: xs).take 4) from rfl] at hg
    have hread := hg.left.read (by simp)
    simp only [List.length_singleton, ofLeBytes, Nat.mul_zero, Nat.add_zero] at hread
    have hlanes := svbLanes_groupData eb (packTags 0 ((x :: xs).take 4)) ((x :: xs).take 4) 0 (p + 1)
      (fun i hi => by rw [Nat.zero_add]; exact tagLength_packTags _ (by simp) i hi) hg.right
    have hlen : ((x :: xs).take 4).length = min 4 (xs.length + 1) := by
      rw [List.length_take, List.length_cons]
    have hdrop : ((x :: xs).drop 4).length = xs.length + 1 - min 4 (xs.length + 1) := by
      simp only [List.length_drop, List.length_cons]; omega
    have hrest := hh.right
    obtain ⟨us, ih⟩ := svbDecFrom_enc eb fuel (p + 1 + (groupData ((x :: xs).take 4)).length) ((x :: xs).drop 4)
      (by simp only [List.length_cons] at hf; omega)
      (by simpa [Nat.add_assoc, Nat.add_comm 1] using hrest)
    rw [hlen] at hlanes
    rw [hdrop] at ih
    refine ⟨.tags (packTags 0 ((x :: xs).take 4)) :: us, ?_⟩
    simp only [List.length_cons, svbDecFrom, hread, BitVec.ofNat_toNat, BitVec.setWidth_eq, hlanes, ih,
      List.take_append_drop, Except.ok.injEq, Decoded.mk.injEq, true_and, and_true]
    rw [svbEnc_eq_group (List.cons_ne_nil x xs), svbGroup, List.length_append, List.length_cons]
    omega

end Sys2Proof.Machine
end

