-- ==== Sys2Proof/Laws/Contract.lean ====
section
/-! SUPPORT. What the shared operations of the commands can do, said once: acceptance, counts, the codecs' outcomes,
block commands, driver steps and runs, and `exec` as a whole. -/

namespace Sys2Proof.Machine

/-! Acceptance and counts. -/

theorem ifAccepting_ready {s : State} (h : s.fault = .noFault) (k : Answer) : ifAccepting s k = k := if_pos h

theorem ifAccepting_faulted {s : State} (h : s.fault ≠ .noFault) (k : Answer) : ifAccepting s k = .next s := if_neg h

theorem ifAccepting_next {s t : State} {k : Answer} (h : ifAccepting s k = .next t) :
    (s.fault ≠ .noFault ∧ t = s) ∨ (s.fault = .noFault ∧ k = .next t) := by
  by_cases hf : s.fault = .noFault
  · exact .inr ⟨hf, by rwa [ifAccepting_ready hf] at h⟩
  · rw [ifAccepting_faulted hf] at h
    exact .inl ⟨hf, (Host.Outcome.next.inj h).symm⟩

theorem withCount_legal {n : BitVec 8} (h : countLegal n) (s : State) (k : Nat → Answer) :
    withCount n s k = k n.toNat := if_pos h

theorem withCount_illegal {n : BitVec 8} (h : ¬ countLegal n) (s : State) (k : Nat → Answer) :
    withCount n s k = .next (s.raise .badCount (n.setWidth 32)) := if_neg h

/-! The codecs inside a command. -/

/-- Running an encoder ends in one of three ways (R66, R132, R133). -/
theorem withEncoded_cases (c : Codec) (v : List Word) (s : State) (k : List Byte → Answer) :
    (∃ i, encOf c s.params.catalog v = .error i ∧
      withEncoded c v s k = .next (s.raise .representationOverflow (BitVec.ofNat 32 i))) ∨
    (∃ bs, encOf c s.params.catalog v = .ok bs ∧ s.params.ebCap < s.eb.length + bs.length ∧
      withEncoded c v s k = .next (s.raise .encodeOverflow s.ebLen)) ∨
    (∃ bs, encOf c s.params.catalog v = .ok bs ∧ s.eb.length + bs.length ≤ s.params.ebCap ∧
      withEncoded c v s k = k bs) := by
  unfold withEncoded
  rcases henc : encOf c s.params.catalog v with i | bs
  · exact .inl ⟨i, rfl, rfl⟩
  · by_cases hc : s.params.ebCap < s.eb.length + bs.length
    · exact .inr (.inl ⟨bs, rfl, hc, if_pos hc⟩)
    · exact .inr (.inr ⟨bs, rfl, by omega, if_neg hc⟩)

/-- Running a decoder ends in one of three ways (R135, U1). -/
theorem withDecoded_cases (c : Codec) (n : Nat) (s : State) (k : Decoded → Answer) :
    (∃ a, decOf c s.params.catalog s.eb s.cur.toNat n = .error a ∧
      withDecoded c n s k = .next (s.raise .decodeUnderrun (BitVec.ofNat 32 a))) ∨
    (∃ d, decOf c s.params.catalog s.eb s.cur.toNat n = .ok d ∧
      ((s.params.noncanonical = .refuse ∧ canonicalBytes c s.params.catalog s.eb s.cur.toNat d = false ∧
          withDecoded c n s k = .refused .noncanonicalDecode) ∨
        (¬ (s.params.noncanonical = .refuse ∧ canonicalBytes c s.params.catalog s.eb s.cur.toNat d = false) ∧
          withDecoded c n s k = k d))) := by
  unfold withDecoded
  rcases hdec : decOf c s.params.catalog s.eb s.cur.toNat n with a | d
  · exact .inl ⟨a, rfl, rfl⟩
  · refine .inr ⟨d, rfl, ?_⟩
    by_cases hc : s.params.noncanonical = .refuse ∧ canonicalBytes c s.params.catalog s.eb s.cur.toNat d = false
    · exact .inl ⟨hc.1, hc.2, if_pos hc⟩
    · exact .inr ⟨hc, if_neg hc⟩

/-! Everything one atomic transition of a command can do. -/

/-- One atomic transition of an accepted command (R67): a fault, an encode's commit, a decode's write-back, a driver
step's commit, or a data unit taken apart. -/
inductive Transition (s : State) : State → Prop where
  | raised (f : Cause) (info : Word) (hf : f ≠ .noFault) : Transition s (s.raise f info)
  | encoded (bs : List Byte) (hfit : s.eb.length + bs.length ≤ s.params.ebCap) : Transition s (s.appendEncoded bs)
  | decoded (d : Decoded) : Transition s (s.writeDecoded d)
  | decodeStep (d : Decoded) (hfit : s.lout.length + s.stepSize ≤ s.params.loutCap)
      (hlen : d.vals.length = s.stepSize) :
      Transition s (s.commitDecodeStep d)
  | encodeStep (bs : List Byte) (hfit : s.eb.length + bs.length ≤ s.params.ebCap) :
      Transition s (s.commitEncodeStep bs)
  | absorbed (u : DataUnit) : Transition s { s with scratch := s.scratch.absorb s.params.catalog u }

/-- A decoder that succeeds yields exactly the count asked for. -/
theorem s16DecFrom_vals_length (cat : Catalog) (eb : Memory) :
    ∀ (fuel p left : Nat) (d : Decoded), s16DecFrom cat eb fuel p left = .ok d → d.vals.length = left
  | fuel, p, 0, d, h => by cases fuel <;> (simp only [s16DecFrom, Except.ok.injEq] at h; subst h; rfl)
  | 0, p, left + 1, d, h => by simp [s16DecFrom] at h
  | fuel + 1, p, left + 1, d, h => by
    simp only [s16DecFrom] at h
    split at h
    · cases h
    · split at h
      · cases h
      · rename_i b _ d' hd'
        have ih := s16DecFrom_vals_length cat eb fuel _ _ d' hd'
        simp only [Except.ok.injEq] at h
        subst h
        simp only [List.length_append, ih, List.length_take]
        omega

theorem svbLanes_length (eb : Memory) (c : Byte) :
    ∀ (m k q : Nat) (r : List Word × Nat), svbLanes eb c k q m = .ok r → r.1.length = m
  | 0, k, q, r, h => by simp only [svbLanes, Except.ok.injEq] at h; subst h; rfl
  | m + 1, k, q, r, h => by
    simp only [svbLanes] at h
    split at h
    · cases h
    · split at h
      · cases h
      · rename_i hr
        have ih := svbLanes_length eb c m _ _ _ hr
        simp only [Except.ok.injEq] at h
        subst h
        simpa using ih

theorem svbDecFrom_vals_length (eb : Memory) :
    ∀ (fuel p left : Nat) (d : Decoded), svbDecFrom eb fuel p left = .ok d → d.vals.length = left
  | fuel, p, 0, d, h => by cases fuel <;> (simp only [svbDecFrom, Except.ok.injEq] at h; subst h; rfl)
  | 0, p, left + 1, d, h => by simp [svbDecFrom] at h
  | fuel + 1, p, left + 1, d, h => by
    simp only [svbDecFrom] at h
    split at h
    · cases h
    · split at h
      · cases h
      · rename_i hl
        split at h
        · cases h
        · rename_i hd
          have h1 := svbLanes_length eb _ _ _ _ _ hl
          have h2 := svbDecFrom_vals_length eb fuel _ _ _ hd
          simp only [Except.ok.injEq] at h
          subst h
          simp only [List.length_append, h1, h2]
          omega

theorem decOf_vals_length {c : Codec} {cat : Catalog} {eb : Memory} {p n : Nat} {d : Decoded}
    (h : decOf c cat eb p n = .ok d) : d.vals.length = n := by
  cases c
  · exact s16DecFrom_vals_length cat eb n p n d h
  · exact svbDecFrom_vals_length eb n p n d h

/-- What a block encode can answer. -/
theorem blockEncode_next {c : Codec} {n : BitVec 8} {s t : State} (h : blockEncode c n s = .next t) :
    (s.fault ≠ .noFault ∧ t = s) ∨ (s.fault = .noFault ∧ Transition s t) := by
  rcases ifAccepting_next h with h | ⟨hf, h⟩
  · exact .inl h
  refine .inr ⟨hf, ?_⟩
  by_cases hn : countLegal n
  · rw [withCount_legal hn] at h
    rcases withEncoded_cases c (s.inValues n.toNat) s (fun bs => .next (s.appendEncoded bs)) with
      ⟨i, -, e⟩ | ⟨bs, -, -, e⟩ | ⟨bs, -, hfit, e⟩ <;> rw [e] at h <;> cases h
    · exact .raised _ _ (by decide)
    · exact .raised _ _ (by decide)
    · exact .encoded bs hfit
  · rw [withCount_illegal hn] at h
    cases h
    exact .raised _ _ (by decide)

/-- What a block decode can answer. -/
theorem blockDecode_next {c : Codec} {n : BitVec 8} {s t : State} (h : blockDecode c n s = .next t) :
    (s.fault ≠ .noFault ∧ t = s) ∨ (s.fault = .noFault ∧ Transition s t) := by
  rcases ifAccepting_next h with h | ⟨hf, h⟩
  · exact .inl h
  refine .inr ⟨hf, ?_⟩
  by_cases hn : countLegal n
  · rw [withCount_legal hn] at h
    rcases withDecoded_cases c n.toNat s (fun d => .next (s.writeDecoded d)) with
      ⟨a, -, e⟩ | ⟨d, -, ⟨-, -, e⟩ | ⟨-, e⟩⟩ <;> rw [e] at h <;> cases h
    · exact .raised _ _ (by decide)
    · exact .decoded d
  · rw [withCount_illegal hn] at h
    cases h
    exact .raised _ _ (by decide)

/-- A driver step begins with its two checks, in order (R275). -/
theorem withStep_cases (s : State) (k : Codec → Answer) :
    (s.rem = 0 ∧ withStep s k = .next (s.raise .seqDone 0)) ∨
    (s.rem ≠ 0 ∧ codecOf s.codec = none ∧ withStep s k = .next (s.raise .badCodec s.codec)) ∨
    (∃ c, s.rem ≠ 0 ∧ codecOf s.codec = some c ∧ withStep s k = k c) := by
  unfold withStep
  by_cases hr : s.rem = 0
  · exact .inl ⟨hr, if_pos hr⟩
  · rw [if_neg hr]
    rcases hc : codecOf s.codec with _ | c
    · exact .inr (.inl ⟨hr, rfl, rfl⟩)
    · exact .inr (.inr ⟨c, hr, rfl, rfl⟩)

/-- What a decode step can answer. -/
theorem decodeStep_next {s t : State} (h : decodeStep s = .next t) : Transition s t := by
  unfold decodeStep at h
  rcases withStep_cases s _ with ⟨-, e⟩ | ⟨-, -, e⟩ | ⟨c, -, -, e⟩ <;> rw [e] at h
  · cases h; exact .raised _ _ (by decide)
  · cases h; exact .raised _ _ (by decide)
  · rcases withDecoded_cases c s.stepSize s (finishDecodeStep s) with ⟨a, -, e⟩ | ⟨d, hd, ⟨-, -, e⟩ | ⟨-, e⟩⟩ <;>
      rw [e] at h
    · cases h; exact .raised _ _ (by decide)
    · cases h
    · unfold finishDecodeStep at h
      split at h <;> cases h
      · exact .raised _ _ (by decide)
      · exact .decodeStep d (by omega) (decOf_vals_length hd)

/-- What an encode step can answer. -/
theorem encodeStep_next {s t : State} (h : encodeStep s = .next t) : Transition s t := by
  unfold encodeStep at h
  rcases withStep_cases s _ with ⟨-, e⟩ | ⟨-, -, e⟩ | ⟨c, -, -, e⟩ <;> rw [e] at h
  · cases h; exact .raised _ _ (by decide)
  · cases h; exact .raised _ _ (by decide)
  · split at h
    · cases h; exact .raised _ _ (by decide)
    · rcases withEncoded_cases c (s.chunk s.stepSize) s (fun bs => .next (s.commitEncodeStep bs)) with
        ⟨i, -, e⟩ | ⟨bs, -, -, e⟩ | ⟨bs, -, hfit, e⟩ <;> rw [e] at h <;> cases h
      · exact .raised _ _ (by decide)
      · exact .raised _ _ (by decide)
      · exact .encodeStep bs hfit

/-- A driver run is a chain of atomic steps (R67, R208). -/
theorem decodeLoop_next {fuel : Nat} {s t : State} (h : decodeLoop fuel s = .next t) :
    Relation.ReflTransGen Transition s t := by
  induction fuel generalizing s with
  | zero => cases h; exact .refl
  | succ fuel ih =>
    simp only [decodeLoop] at h
    split at h
    · split at h
      · rename_i u hu
        exact .head (decodeStep_next hu) (ih h)
      · cases h
      · cases h
    · cases h; exact .refl

/-- A driver run is a chain of atomic steps (R67, R209). -/
theorem encodeLoop_next {fuel : Nat} {s t : State} (h : encodeLoop fuel s = .next t) :
    Relation.ReflTransGen Transition s t := by
  induction fuel generalizing s with
  | zero => cases h; exact .refl
  | succ fuel ih =>
    simp only [encodeLoop] at h
    split at h
    · split at h
      · rename_i u hu
        exact .head (encodeStep_next hu) (ih h)
      · cases h
      · cases h
    · cases h; exact .refl

theorem presentUnit_next {u : DataUnit} {s t : State} (h : presentUnit u s = .next t) :
    (s.fault ≠ .noFault ∧ t = s) ∨ (s.fault = .noFault ∧ Transition s t) := by
  rcases ifAccepting_next h with h | ⟨hf, h⟩
  · exact .inl h
  · cases h; exact .inr ⟨hf, .absorbed u⟩

/-- Everything an instruction can do when it answers a next state: a chain of atomic transitions. -/
theorem exec_next {i : Instr} {s t : State} (h : exec i s = .next t) : Relation.ReflTransGen Transition s t := by
  have one : ∀ {s t : State}, ((s.fault ≠ .noFault ∧ t = s) ∨ (s.fault = .noFault ∧ Transition s t)) →
      Relation.ReflTransGen Transition s t := by
    rintro s t (⟨-, rfl⟩ | ⟨-, h⟩)
    · exact .refl
    · exact .single h
  cases i
  case s16Enc n => exact one (blockEncode_next h)
  case s16Dec n => exact one (blockDecode_next h)
  case svbEnc n => exact one (blockEncode_next h)
  case svbDec n => exact one (blockDecode_next h)
  case seqDstep =>
    rcases ifAccepting_next h with ⟨-, rfl⟩ | ⟨-, h⟩
    · exact .refl
    · exact .single (decodeStep_next h)
  case seqEstep =>
    rcases ifAccepting_next h with ⟨-, rfl⟩ | ⟨-, h⟩
    · exact .refl
    · exact .single (encodeStep_next h)
  case seqDrun =>
    rcases ifAccepting_next h with ⟨-, rfl⟩ | ⟨-, h⟩
    · exact .refl
    · exact decodeLoop_next h
  case seqErun =>
    rcases ifAccepting_next h with ⟨-, rfl⟩ | ⟨-, h⟩
    · exact .refl
    · exact encodeLoop_next h
  all_goals exact one (presentUnit_next h)

end Sys2Proof.Machine
end

