-- ==== Sys2Proof/Laws/Invariant.lean ====
section
/-! SUPPORT. Every atomic transition of a command keeps the invariant, and what no transition touches. -/

namespace Sys2Proof.Machine

theorem Transition.keeps_inv {s t : State} (h : Transition s t) (hs : s.Inv) : t.Inv := by
  have hp := hs.params
  have he := hs.ebWf
  have h1 := hs.ebFits
  have h2 := hs.linFits
  have h3 := hs.loutFits
  have h4 := hs.finfoZero
  cases h with
  | raised f info hf => exact ⟨hp, he, h1, h2, h3, fun h => absurd h hf⟩
  | encoded bs hfit =>
    exact ⟨by simpa using hp, by simpa using Memory.append_wf he bs, by simpa using hfit, by simpa using h2,
      by simpa using h3, by simpa using h4⟩
  | decoded d =>
    exact ⟨by simpa using hp, by simpa using he, by simpa using h1, by simpa using h2, by simpa using h3,
      by simpa using h4⟩
  | decodeStep d hfit hlen =>
    exact ⟨by simpa using hp, by simpa using he, by simpa using h1, by simpa using h2,
      by simpa [hlen] using hfit, by simpa using h4⟩
  | encodeStep bs hfit =>
    exact ⟨by simpa using hp, by simpa using Memory.append_wf he bs, by simpa using hfit, by simpa using h2,
      by simpa using h3, by simpa using h4⟩
  | absorbed u => exact ⟨hp, he, h1, h2, h3, h4⟩

/-- A property every atomic transition keeps, every instruction keeps. -/
theorem exec_preserves {P : State → Prop} (hP : ∀ s t, Transition s t → P s → P t) {i : Instr} {s t : State}
    (h : exec i s = .next t) (hs : P s) : P t := by
  replace h := exec_next h
  induction h with
  | refl => exact hs
  | tail _ h2 ih => exact hP _ _ h2 ih

/-- No command touches the parameters, `LIN`, `CODEC` or the host's side. -/
theorem Transition.untouched {s t : State} (h : Transition s t) :
    t.params = s.params ∧ t.lin = s.lin ∧ t.codec = s.codec ∧ t.epoch = s.epoch ∧ t.inbox = s.inbox ∧
      t.reads = s.reads := by
  cases h <;> simp

end Sys2Proof.Machine
end

