-- ==== Sys2Proof/Laws/PerInstr.lean ====
section
/-! SUPPORT. The families of LAWS.json: one statement about an instruction as syntax, one lemma per constructor. -/

/-- The encoding of an instruction is as many bytes as an item of its port (R61, R100, R111). -/
def Sys2Proof.Laws.EncodeLength.Statement (i : Sys2Proof.Instr) : Prop :=
  (Sys2Proof.encode i).length = i.port.size

namespace Sys2Proof.Laws.EncodeLength

theorem s16Enc (n : BitVec 8) : Statement (.s16Enc n) := rfl

theorem s16Dec (n : BitVec 8) : Statement (.s16Dec n) := rfl

theorem svbEnc (n : BitVec 8) : Statement (.svbEnc n) := rfl

theorem svbDec (n : BitVec 8) : Statement (.svbDec n) := rfl

theorem seqDstep : Statement (.seqDstep) := rfl

theorem seqEstep : Statement (.seqEstep) := rfl

theorem seqDrun : Statement (.seqDrun) := rfl

theorem seqErun : Statement (.seqErun) := rfl

theorem s16wSel0 (data : BitVec 28) : Statement (.s16wSel0 data) := rfl

theorem s16wSel1 (data : BitVec 28) : Statement (.s16wSel1 data) := rfl

theorem s16wSel2 (data : BitVec 28) : Statement (.s16wSel2 data) := rfl

theorem s16wSel3 (data : BitVec 28) : Statement (.s16wSel3 data) := rfl

theorem s16wSel4 (data : BitVec 28) : Statement (.s16wSel4 data) := rfl

theorem s16wSel5 (data : BitVec 28) : Statement (.s16wSel5 data) := rfl

theorem s16wSel6 (data : BitVec 28) : Statement (.s16wSel6 data) := rfl

theorem s16wSel7 (data : BitVec 28) : Statement (.s16wSel7 data) := rfl

theorem s16wSel8 (data : BitVec 28) : Statement (.s16wSel8 data) := rfl

theorem s16wSel9 (data : BitVec 28) : Statement (.s16wSel9 data) := rfl

theorem s16wSel10 (data : BitVec 28) : Statement (.s16wSel10 data) := rfl

theorem s16wSel11 (data : BitVec 28) : Statement (.s16wSel11 data) := rfl

theorem s16wSel12 (data : BitVec 28) : Statement (.s16wSel12 data) := rfl

theorem s16wSel13 (data : BitVec 28) : Statement (.s16wSel13 data) := rfl

theorem s16wSel14 (data : BitVec 28) : Statement (.s16wSel14 data) := rfl

theorem s16wSel15 (data : BitVec 28) : Statement (.s16wSel15 data) := rfl

theorem svbc (t0 t1 t2 t3 : BitVec 2) : Statement (.svbc t0 t1 t2 t3) := rfl

end Sys2Proof.Laws.EncodeLength
end

