-- ==== Sys2Proof/Tests/Slice0.lean ====
section
/-! SUPPORT. The model's own tests, their expected results taken from the spec's vectors (95_test_vectors.md, named in
each comment) or its encoding tables, and a witness for the hypotheses of every statement that has some. -/

namespace Sys2Proof.Tests

open Sys2Proof.Machine Sys2Proof.Terms

set_option maxRecDepth 8000
set_option Elab.async false

/-! Helpers. -/

/-- A small state: everything at its reset value, the unspecified slots and scratch at 0. -/
def base : State :=
  { State.resetWith Config.params 0 with
    inBuf := Vector.replicate 128 0, outBuf := Vector.replicate 128 0,
    scratch := ⟨Vector.replicate 28 0, Vector.replicate 4 0, Vector.replicate 544 0⟩ }

/-- The values `v` in `IN[0..]`. -/
def withIn (v : List Word) : State := { base with inBuf := overwrite base.inBuf v }

/-- The bytes `bs` in `EB` and the cursor at `cur`. -/
def withEb (bs : List Byte) (cur : Word) : State := { base with eb := Memory.append [] bs, cur := cur }

/-- The answer is a next state that passes the check. -/
def passes (a : Answer) (p : State → Bool) : Bool :=
  match a with
  | .next t => p t
  | .fault _ => false
  | .refused _ => false

/-- The bytes of `EB` are these and no fault is recorded. -/
def ebIs (bs : List Byte) (t : State) : Bool := decide (t.eb.map (·.2) = bs) && decide (t.fault = .noFault)

/-- The recorded fault and its information. -/
def faultIs (f : Cause) (info : Word) (t : State) : Bool := decide (t.fault = f) && decide (t.finfo = info)

/-- The first slots of `OUT` hold these values, `CUR` this one, and no fault is recorded. -/
def outIs (d : List Word) (cur : Word) (t : State) : Bool :=
  decide (t.outBuf.toList.take d.length = d) && decide (t.cur = cur) && decide (t.fault = .noFault)

/-! Well-formedness (R95): the check refuses a count of 0 and one above 128. -/

theorem test_wf_s16Enc :
    Instr.wf (.s16Enc 0) = false ∧ Instr.wf (.s16Enc 129) = false ∧ Instr.wf (.s16Enc 128) = true := by decide

theorem test_wf_s16Dec :
    Instr.wf (.s16Dec 0) = false ∧ Instr.wf (.s16Dec 129) = false ∧ Instr.wf (.s16Dec 128) = true := by decide

theorem test_wf_svbEnc :
    Instr.wf (.svbEnc 0) = false ∧ Instr.wf (.svbEnc 129) = false ∧ Instr.wf (.svbEnc 128) = true := by decide

theorem test_wf_svbDec :
    Instr.wf (.svbDec 0) = false ∧ Instr.wf (.svbDec 129) = false ∧ Instr.wf (.svbDec 128) = true := by decide

/-! Decoding (R91, R101, R111): words written out from the encoding tables; V-CW-1 to V-CW-12, V-S16F-0 to V-S16F-15. -/

theorem test_decode_s16Enc : decodeCommand 0x10000080#32 = .ok (.s16Enc 128) ∧ decodeTableWord 32 0x10000080 = some (.s16Enc 128) := by decide

theorem test_decode_s16Dec : decodeCommand 0x11000001#32 = .ok (.s16Dec 1) ∧ decodeTableWord 32 0x11000001 = some (.s16Dec 1) := by decide

theorem test_decode_svbEnc : decodeCommand 0x20000004#32 = .ok (.svbEnc 4) ∧ decodeTableWord 32 0x20000004 = some (.svbEnc 4) := by decide

theorem test_decode_svbDec : decodeCommand 0x21000004#32 = .ok (.svbDec 4) ∧ decodeTableWord 32 0x21000004 = some (.svbDec 4) := by decide

theorem test_decode_seqDstep : decodeCommand 0x30000000#32 = .ok (.seqDstep) ∧ decodeTableWord 32 0x30000000 = some (.seqDstep) := by decide

theorem test_decode_seqEstep : decodeCommand 0x31000000#32 = .ok (.seqEstep) ∧ decodeTableWord 32 0x31000000 = some (.seqEstep) := by decide

theorem test_decode_seqDrun : decodeCommand 0x32000000#32 = .ok (.seqDrun) ∧ decodeTableWord 32 0x32000000 = some (.seqDrun) := by decide

theorem test_decode_seqErun : decodeCommand 0x33000000#32 = .ok (.seqErun) ∧ decodeTableWord 32 0x33000000 = some (.seqErun) := by decide

theorem test_decode_illegal :
    decodeCommand 0x00000000#32 = .error .reservedOpcode ∧ decodeCommand 0x12000004#32 = .error .reservedOpcode ∧
    decodeCommand 0x10010004#32 = .error .reservedBits ∧ decodeCommand 0x30000001#32 = .error .seqCount := by decide

theorem test_decode_s16wSel0 : decodeTableWord 32 0x0AAAAAAA = some (.s16wSel0 0xAAAAAAA#28) := by decide

theorem test_decode_s16wSel1 : decodeTableWord 32 0x16C6C6C6 = some (.s16wSel1 0x6C6C6C6#28) := by decide

theorem test_decode_s16wSel2 : decodeTableWord 32 0x229CBB82 = some (.s16wSel2 0x29CBB82#28) := by decide

theorem test_decode_s16wSel3 : decodeTableWord 32 0x31234567 = some (.s16wSel3 0x1234567#28) := by decide

theorem test_decode_s16wSel4 : decodeTableWord 32 0x40886428 = some (.s16wSel4 0x0886428#28) := by decide

theorem test_decode_s16wSel5 : decodeTableWord 32 0x50420C40 = some (.s16wSel5 0x0420C40#28) := by decide

theorem test_decode_s16wSel6 : decodeTableWord 32 0x60208184 = some (.s16wSel6 0x0208184#28) := by decide

theorem test_decode_s16wSel7 : decodeTableWord 32 0x70102030 = some (.s16wSel7 0x0102030#28) := by decide

theorem test_decode_s16wSel8 : decodeTableWord 32 0x80080806 = some (.s16wSel8 0x0080806#28) := by decide

theorem test_decode_s16wSel9 : decodeTableWord 32 0x90040200 = some (.s16wSel9 0x0040200#28) := by decide

theorem test_decode_s16wSel10 : decodeTableWord 32 0xA0020080 = some (.s16wSel10 0x0020080#28) := by decide

theorem test_decode_s16wSel11 : decodeTableWord 32 0xB0010020 = some (.s16wSel11 0x0010020#28) := by decide

theorem test_decode_s16wSel12 : decodeTableWord 32 0xC0008008 = some (.s16wSel12 0x0008008#28) := by decide

theorem test_decode_s16wSel13 : decodeTableWord 32 0xD0004002 = some (.s16wSel13 0x0004002#28) := by decide

theorem test_decode_s16wSel14 : decodeTableWord 32 0xE0001000 = some (.s16wSel14 0x0001000#28) := by decide

theorem test_decode_s16wSel15 : decodeTableWord 32 0xF0000001 = some (.s16wSel15 0x0000001#28) := by decide

/-- The source's example: tags 0, 0, 1, 2 are control byte 0x90 (V-SRC-1). -/
theorem test_decode_svbc : decodeTableWord 8 0x90 = some (.svbc 0 0 1 2) := by decide

theorem test_encode_s16Enc : encode (.s16Enc 4) = [0x04, 0x00, 0x00, 0x10] := by decide

theorem test_encode_s16wSel8 : encode (.s16wSel8 0x3232258#28) = [0x58, 0x22, 0x23, 0x83] := by decide

theorem test_encode_svbc : encode (.svbc 0 0 1 2) = [0x90] := by decide

/-! Data words (R102, R156): each word of V-S16F-0 to V-S16F-15 is cut into the fields of its row. -/

theorem test_s16wSel0 : passes (exec (.s16wSel0 0xAAAAAAA#28) base)
    (fun t => decide (t.scratch.tmp.toList.take 28 = [1, 0, 1, 0, 1, 0, 1, 0, 1, 0, 1, 0, 1, 0, 1, 0, 1, 0, 1, 0, 1, 0, 1, 0, 1, 0, 1, 0])) = true := by decide

theorem test_s16wSel1 : passes (exec (.s16wSel1 0x6C6C6C6#28) base)
    (fun t => decide (t.scratch.tmp.toList.take 14 = [1, 2, 3, 0, 1, 2, 3, 0, 1, 2, 3, 0, 1, 2])) = true := by decide

theorem test_s16wSel2 : passes (exec (.s16wSel2 0x29CBB82#28) base)
    (fun t => decide (t.scratch.tmp.toList.take 9 = [1, 2, 3, 4, 5, 6, 7, 0, 1])) = true := by decide

theorem test_s16wSel3 : passes (exec (.s16wSel3 0x1234567#28) base)
    (fun t => decide (t.scratch.tmp.toList.take 7 = [1, 2, 3, 4, 5, 6, 7])) = true := by decide

theorem test_s16wSel4 : passes (exec (.s16wSel4 0x0886428#28) base)
    (fun t => decide (t.scratch.tmp.toList.take 5 = [1, 2, 3, 4, 5])) = true := by decide

theorem test_s16wSel5 : passes (exec (.s16wSel5 0x0420C40#28) base)
    (fun t => decide (t.scratch.tmp.toList.take 4 = [1, 2, 3, 4])) = true := by decide

theorem test_s16wSel6 : passes (exec (.s16wSel6 0x0208184#28) base)
    (fun t => decide (t.scratch.tmp.toList.take 4 = [1, 2, 3, 4])) = true := by decide

theorem test_s16wSel7 : passes (exec (.s16wSel7 0x0102030#28) base)
    (fun t => decide (t.scratch.tmp.toList.take 3 = [1, 2, 3])) = true := by decide

theorem test_s16wSel8 : passes (exec (.s16wSel8 0x0080806#28) base)
    (fun t => decide (t.scratch.tmp.toList.take 3 = [1, 2, 3])) = true := by decide

theorem test_s16wSel9 : passes (exec (.s16wSel9 0x0040200#28) base)
    (fun t => decide (t.scratch.tmp.toList.take 2 = [1, 2])) = true := by decide

theorem test_s16wSel10 : passes (exec (.s16wSel10 0x0020080#28) base)
    (fun t => decide (t.scratch.tmp.toList.take 2 = [1, 2])) = true := by decide

theorem test_s16wSel11 : passes (exec (.s16wSel11 0x0010020#28) base)
    (fun t => decide (t.scratch.tmp.toList.take 2 = [1, 2])) = true := by decide

theorem test_s16wSel12 : passes (exec (.s16wSel12 0x0008008#28) base)
    (fun t => decide (t.scratch.tmp.toList.take 2 = [1, 2])) = true := by decide

theorem test_s16wSel13 : passes (exec (.s16wSel13 0x0004002#28) base)
    (fun t => decide (t.scratch.tmp.toList.take 2 = [1, 2])) = true := by decide

theorem test_s16wSel14 : passes (exec (.s16wSel14 0x0001000#28) base)
    (fun t => decide (t.scratch.tmp.toList.take 1 = [1])) = true := by decide

theorem test_s16wSel15 : passes (exec (.s16wSel15 0x0000001#28) base)
    (fun t => decide (t.scratch.tmp.toList.take 1 = [1])) = true := by decide

theorem test_svbc : passes (exec (.svbc 0 0 1 2) base) (fun t => decide (t.scratch.lens.toList = [1, 1, 2, 3])) = true := by
  decide

/-! Block commands. -/

/-- V-S16-4. -/
theorem test_s16Enc : passes (exec (.s16Enc 3) (withIn [100, 200, 300])) (ebIs [0x58, 0x22, 0x23, 0x83]) = true := by
  decide

/-- V-S16-20: the second value is too wide; nothing is appended. -/
theorem test_s16Enc_overflow : passes (exec (.s16Enc 3) (withIn [1, 0x10000000, 2]))
    (fun t => faultIs .representationOverflow 1 t && decide (t.eb = [])) = true := by decide

/-- V-S16D-1. -/
theorem test_s16Dec : passes (exec (.s16Dec 3) (withEb [0x58, 0x22, 0x23, 0x83] 0)) (outIs [100, 200, 300, 0] 4) = true := by
  decide

/-- V-S16D-4: the second word is missing and not even the first word's values are written. -/
theorem test_s16Dec_underrun : passes (exec (.s16Dec 4) (withEb [0x58, 0x22, 0x23, 0x83] 0))
    (fun t => faultIs .decodeUnderrun 4 t && decide (t.outBuf.toList.take 3 = [0, 0, 0])) = true := by decide

/-- V-SVB-4: the second control byte stands after the first group's data. -/
theorem test_svbEnc : passes (exec (.svbEnc 5) (withIn [1, 2, 3, 4, 0x01000000]))
    (ebIs [0x00, 0x01, 0x02, 0x03, 0x04, 0x03, 0x00, 0x00, 0x00, 0x01]) = true := by decide

/-- V-CW-15 with the StreamVByte opcode: a count above 128. -/
theorem test_svbEnc_count : passes (exec (.svbEnc 255) base) (faultIs .badCount 255) = true := by decide

/-- V-SRC-1. -/
theorem test_svbDec : passes (exec (.svbDec 4) (withEb [0x90, 0x00, 0xFF, 0x00, 0x01, 0x00, 0x00, 0x01] 0))
    (outIs [0, 255, 256, 65536] 8) = true := by decide

/-- V-SVBD-1: the fourth value's bytes are missing. -/
theorem test_svbDec_underrun : passes (exec (.svbDec 4) (withEb [0x90, 0x00, 0xFF, 0x00, 0x01, 0x00, 0x00] 0))
    (faultIs .decodeUnderrun 5) = true := by decide

/-! The driver. -/

/-- The source's block through the driver (R204). -/
theorem test_seqDstep : passes (exec .seqDstep
      { withEb [0x90, 0x00, 0xFF, 0x00, 0x01, 0x00, 0x00, 0x01] 0 with rem := 4, codec := 1 })
    (fun t => decide (t.lout = [0, 255, 256, 65536]) && decide (t.rem = 0) && decide (t.cur = 8)) = true := by decide

/-- V-SEQ-13: `SeqDone` before `BadCodec`. -/
theorem test_seqDstep_done : passes (exec .seqDstep { base with codec := 7 }) (faultIs .seqDone 0) = true := by decide

/-- V-SEQ-7: the sum wraps. -/
theorem test_seqEstep : passes (exec .seqEstep { base with rem := 2, codec := 1, lin := [0xFFFFFFFF, 2] })
    (fun t => ebIs [0x03, 0xFF, 0xFF, 0xFF, 0xFF, 0x02] t && decide (t.sum = 1) && decide (t.lrp = 2)) = true := by decide

/-- V-SEQ-4. -/
theorem test_seqEstep_underrun : passes (exec .seqEstep { base with rem := 5, codec := 1, lin := [1, 2, 3] })
    (faultIs .listUnderrun 0) = true := by decide

/-- V-SEQ-2. -/
theorem test_seqDrun_empty : passes (exec .seqDrun base) (fun t => decide (t.fault = .noFault)) = true := by decide

/-- V-SEQ-3. -/
theorem test_seqDrun_badCodec : passes (exec .seqDrun { base with rem := 1, codec := 2 })
    (fun t => faultIs .badCodec 2 t && decide (t.rem = 1)) = true := by decide

/-- The example of R206 as a run. -/
theorem test_seqErun : passes (exec .seqErun { base with rem := 4, codec := 1, lin := [0, 255, 256, 65536] })
    (fun t => ebIs [0x90, 0x00, 0xFF, 0x00, 0x01, 0x00, 0x00, 0x01] t && decide (t.sum = 66047) && decide (t.rem = 0))
    = true := by decide

/-- V-SEQ-5 as a run: nothing but the fault registers changes. -/
theorem test_seqErun_overflow : passes (exec .seqErun { base with rem := 3, lin := [1, 0x10000000, 3] })
    (fun t => faultIs .representationOverflow 1 t && decide (t.rem = 3) && decide (t.eb = [])) = true := by decide

/-! Steps and host moves. -/

/-- V-CW-11. -/
theorem test_illegal_word : passes (step { base with inbox := [.wr 0 0x10010004] }) (faultIs .illegalCommand 0x10010004)
    = true := by decide

/-- P4: a host write while faulted is ignored. -/
theorem test_write_while_faulted : passes (step { base with fault := .badCount, inbox := [.inWr 1 5] })
    (fun t => decide (t.inBuf[1] = 0)) = true := by decide

/-- P1: `STATUS` reads 1 after a fault, 2 while the driver is pending (P3). -/
theorem test_status : (base.raise .badCount 0).readReg 1 = 1 ∧ { base with rem := 2 }.readReg 1 = 2 := by decide

/-- V-SEQ-11. -/
theorem test_ebApp_full : passes (step { withEb [1, 2, 3, 4] 0 with
      params := { Config.params with ebCap := 4 }, inbox := [.ebApp 5] })
    (fun t => faultIs .encodeOverflow 4 t && decide (t.eb.length = 4)) = true := by decide

/-- V-SEQ-10. -/
theorem test_linApp_full : passes (step { base with
      params := { Config.params with linCap := 2 }, lin := [1, 2], inbox := [.linApp 3] })
    (fun t => faultIs .listOverflow 2 t && decide (t.lin = [1, 2])) = true := by decide

/-- V-S16D-6 in a build set to `refuse`: the bytes are not canonical for the count 2. -/
theorem test_refuse_noncanonical : (match exec (.s16Dec 2) { withEb [0x58, 0x22, 0x23, 0x83] 0 with
      params := { Config.params with noncanonical := .refuse } } with
    | .refused r => decide (r = .noncanonicalDecode)
    | _ => false) = true := by decide

/-- The item of a table row runs as the first instruction after reset. -/
theorem test_fetch_command : passes (step (State.reset.withFetchWord 32 0x30000000)) (faultIs .seqDone 0) = true := by
  decide

theorem test_fetch_control_byte : passes (step (State.reset.withFetchWord 8 0x90))
    (fun t => decide (t.scratch.lens.toList = [1, 1, 2, 3])) = true := by decide

/-- P2's first lines, in the line syntax of R125, stand for these moves. -/
theorem test_line_moves : [Line.inSlots 0 [300, 70000], .svbEnc 2].flatMap Line.moves =
    [.inWr 0 300, .inWr 1 70000, .wr 0 0x20000002] := by decide

/-! Witnesses: the hypotheses of every statement that has some are met, clause by clause at a boundary. -/

/-- A state that differs from `base` in its stores, registers and capacities has the invariant when its numbers do. -/
theorem inv_of {s : State} (h : s.params.wf ∧ s.eb.wf ∧ s.eb.length ≤ s.params.ebCap ∧
    s.lin.length ≤ s.params.linCap ∧ s.lout.length ≤ s.params.loutCap ∧ (s.fault = .noFault → s.finfo = 0)) : s.Inv :=
  ⟨h.1, h.2.1, h.2.2.1, h.2.2.2.1, h.2.2.2.2.1, h.2.2.2.2.2⟩

/-- `base` in a build whose encoded buffer holds at most `k` bytes. -/
def capped (k : Nat) (v : List Word) : State := { withIn v with params := { Config.params with ebCap := k } }

/-- `base` in a build set to `refuse`. -/
def refusing (bs : List Byte) : State :=
  { withEb bs 0 with params := { Config.params with noncanonical := .refuse } }

theorem witness_ResetMoveClearsBlock :
    (∃ s : State, s.fault ≠ .noFault ∧ s.inbox = [.reset]) ∧
    (∃ s t : State, s.fault ≠ .noFault ∧ step s = .next t ∧ t.fault = .noFault) :=
  ⟨⟨{ base with fault := .badCount, inbox := [.reset] }, by decide +kernel, rfl⟩,
    ⟨{ base with fault := .badCount, inbox := [.reset] }, _, by decide +kernel, rfl, rfl⟩⟩

theorem witness_StepRunsDecodedInstruction :
    (∃ (s : State) (w : Word) (i : Instr), s.inbox = [.wr 0 w] ∧ decodeCommand w = .ok i) ∧
    (∃ (s : State) (w : Word), s.inbox = [.present (.word w)]) ∧
    (∃ (s : State) (c : Byte), s.inbox = [.present (.tags c)]) ∧ (∃ s : State, s.inbox = []) ∧
    (∃ i, decodeTableWord 32 0x83232258 = some i) ∧ (∃ i, decodeTableWord 8 0x90 = some i) :=
  ⟨⟨{ base with inbox := [.wr 0 0x10000080#32] }, 0x10000080#32, .s16Enc 128, rfl, by decide +kernel⟩,
    ⟨{ base with inbox := [.present (.word 0x83232258#32)] }, _, rfl⟩,
    ⟨{ base with inbox := [.present (.tags 0x90#8)] }, _, rfl⟩, ⟨base, rfl⟩, ⟨.s16wSel8 0x3232258#28, by decide +kernel⟩,
    ⟨.svbc 0 0 1 2, by decide +kernel⟩⟩

theorem witness_IllegalWordRaises :
    (∃ (s : State) (w : Word), s.inbox = [.wr 0 w] ∧ s.fault = .noFault ∧ ¬ LegalWord w) ∧ ¬ LegalWord 0x10000180#32 ∧
    ¬ LegalWord 0x34000000#32 ∧ ¬ LegalWord 0x330000FF#32 ∧ LegalWord 0x100000FF#32 ∧ LegalWord 0x33000000#32 := by
  refine ⟨⟨{ base with inbox := [.wr 0 0x10010004#32] }, _, rfl, rfl, ?_⟩, ?_, ?_, ?_, ?_, ?_⟩ <;>
    (unfold LegalWord; decide)

theorem witness_DecodedBytesAreEncoding :
    (∃ i rest, decode .command [0x80, 0, 0, 0x10, 7] = .ok (i, rest)) ∧
    (∃ i rest, decode .simple16 [0x58, 0x22, 0x23, 0x83] = .ok (i, rest)) ∧
    (∃ i rest, decode .streamVByte [0x90] = .ok (i, rest)) :=
  ⟨⟨.s16Enc 128, [7], by decide +kernel⟩, ⟨.s16wSel8 0x3232258#28, [], by decide +kernel⟩, ⟨.svbc 0 0 1 2, [], by decide +kernel⟩⟩

/-- One state for every kind of move the statement names. -/
theorem witness_FaultedStateIgnoresWrites : ∀ m : Move, ∃ s : State, s.fault ≠ .noFault ∧ s.inbox = [m] ∧
    s.eb.byteAt 0 = some 7 ∧ s.lout[0]? = some 5 := fun m =>
  ⟨{ withEb [7] 0 with fault := .badCount, lout := [5], inbox := [m] }, (by decide +kernel : Cause.badCount ≠ .noFault), rfl,
    rfl, rfl⟩

theorem witness_ExecWhileFaultedChangesNothing : ∃ s : State, s.fault ≠ .noFault :=
  ⟨{ base with fault := .listOverflow }, by decide +kernel⟩

theorem witness_BadCountRaises : base.fault = .noFault ∧ (0 : BitVec 8).toNat = 0 ∧ 128 < (129 : BitVec 8).toNat ∧
    128 < (255 : BitVec 8).toNat := by decide +kernel

theorem witness_FaultsArePrecise :
    (∃ t, exec (.s16Enc 0) base = .next t ∧ t.fault ≠ .noFault) ∧
    (∃ t, exec .seqDrun { base with rem := 1, codec := 2 } = .next t ∧ t.fault ≠ .noFault) ∧
    (∃ t, exec .seqErun { base with rem := 1, codec := 2 } = .next t ∧ t.fault ≠ .noFault) :=
  ⟨⟨_, rfl, by decide +kernel⟩, ⟨_, rfl, by decide +kernel⟩, ⟨_, rfl, by decide +kernel⟩⟩

theorem witness_RegisterAccess : (∃ s : State, s.inbox = [.rd 11]) ∧
    (∀ r v, ∃ s : State, s.inbox = [.wr r v] ∧ s.fault = .noFault) :=
  ⟨⟨{ base with inbox := [.rd 11] }, rfl⟩, fun r v => ⟨{ base with inbox := [.wr r v] }, rfl, rfl⟩⟩

theorem witness_InputSlotAccess : (∃ s : State, s.inbox = [.inWr 127 5] ∧ s.fault = .noFault) ∧
    (∃ s : State, s.inbox = [.inRd 127]) :=
  ⟨⟨{ base with inbox := [.inWr 127 5] }, rfl, rfl⟩, ⟨{ base with inbox := [.inRd 127] }, rfl⟩⟩

theorem witness_EbAppend :
    (∃ s : State, s.Inv ∧ s.inbox = [.ebApp 5] ∧ s.fault = .noFault ∧ s.eb.length < s.params.ebCap) ∧
    (∃ s : State, s.Inv ∧ s.inbox = [.ebApp 5] ∧ s.fault = .noFault ∧ s.eb.length = s.params.ebCap) :=
  ⟨⟨{ withEb [1] 0 with params := { Config.params with ebCap := 2 }, inbox := [.ebApp 5] }, inv_of (by decide +kernel), rfl, rfl,
      by decide +kernel⟩,
    ⟨{ withEb [1] 0 with params := { Config.params with ebCap := 1 }, inbox := [.ebApp 5] }, inv_of (by decide +kernel), rfl, rfl,
      by decide +kernel⟩⟩

theorem witness_LinAppend :
    (∃ s : State, s.Inv ∧ s.inbox = [.linApp 5] ∧ s.fault = .noFault ∧ s.lin.length < s.params.linCap) ∧
    (∃ s : State, s.Inv ∧ s.inbox = [.linApp 5] ∧ s.fault = .noFault ∧ s.lin.length = s.params.linCap) :=
  ⟨⟨{ base with params := { Config.params with linCap := 1 }, inbox := [.linApp 5] }, inv_of (by decide +kernel), rfl, rfl,
      by decide +kernel⟩,
    ⟨{ base with params := { Config.params with linCap := 0 }, inbox := [.linApp 5] }, inv_of (by decide +kernel), rfl, rfl,
      by decide +kernel⟩⟩

theorem witness_BufferReads : (∃ s : State, s.inbox = [.outRd 127]) ∧
    (∃ s : State, s.Inv ∧ s.inbox = [.ebRd 0] ∧ 0 < s.eb.length) ∧
    (∃ s : State, s.Inv ∧ s.inbox = [.ebRd 1] ∧ s.eb.length ≤ 1) ∧
    (∃ s : State, s.inbox = [.loutRd 0] ∧ 0 < s.lout.length) ∧ (∃ s : State, s.inbox = [.loutRd 1] ∧ s.lout.length ≤ 1) :=
  ⟨⟨{ base with inbox := [.outRd 127] }, rfl⟩,
    ⟨{ withEb [7] 0 with inbox := [.ebRd 0] }, inv_of (by decide +kernel), rfl, by decide +kernel⟩,
    ⟨{ withEb [7] 0 with inbox := [.ebRd 1] }, inv_of (by decide +kernel), rfl, by decide +kernel⟩,
    ⟨{ base with lout := [5], inbox := [.loutRd 0] }, rfl, by decide +kernel⟩,
    ⟨{ base with lout := [5], inbox := [.loutRd 1] }, rfl, by decide +kernel⟩⟩

theorem witness_SelectorTakesMost : Config.catalog.wf ∧ selectLayout Config.catalog [100, 200, 300] = some 8 := by decide +kernel

theorem witness_FeasibleExactlyBelowWidest : Config.catalog.wf ∧ feasible Config.catalog [0x0FFFFFFF] 15 = true ∧
    feasible Config.catalog [0x10000000] 15 = false := by decide +kernel

/-- The words of V-S16-4. -/
theorem words_100_200_300 : S16Words Config.catalog [100, 200, 300] [0x83232258] := by
  refine .word _ _ 8 _ (by simp) (by simp [Config.catalog, Catalog.layout]) ?_ (by decide +kernel) ?_
  · intro t ht
    have : t.1 < 8 := ht
    refine ⟨if t.1 < 6 then 100 else 300, ?_⟩
    match t, this with
    | 0, _ | 1, _ | 2, _ | 3, _ | 4, _ | 5, _ | 6, _ | 7, _ => simp [Config.catalog, Catalog.layout]
  · have h : ([100, 200, 300] : List Word).drop (Config.catalog.layout 8).cnt = [] := by decide
    rw [h]
    exact .done

theorem encodable_100_200_300 : Encodable .simple16 Config.catalog [100, 200, 300] := fun _ => by
  simp [Config.catalog, Catalog.layout]

theorem first_capped (k : Nat) : firstSlots (capped k [100, 200, 300]).inBuf 3 = [100, 200, 300] := by
  show firstSlots (withIn [100, 200, 300]).inBuf 3 = _
  decide

theorem min_rem_4 : min 128 (4 : Word).toNat = 4 := by decide +kernel

theorem witness_S16EncodeResult :
    (∃ s : State, s.Inv ∧ s.fault = .noFault ∧ countLegal 3 ∧
      Encodable .simple16 s.params.catalog (firstSlots s.inBuf 3) ∧
      S16Words s.params.catalog (firstSlots s.inBuf 3) [0x83232258] ∧ s.eb.length + 4 * 1 = s.params.ebCap) ∧
    (∃ s : State, s.Inv ∧ s.fault = .noFault ∧ S16Words s.params.catalog (firstSlots s.inBuf 3) [0x83232258] ∧
      s.params.ebCap + 1 = s.eb.length + 4 * 1) ∧
    (∃ s : State, s.Inv ∧ s.fault = .noFault ∧ 2 ^ (s.params.catalog.layout 15).wid = s.inBuf[1].toNat ∧
      s.inBuf[0].toNat < 2 ^ (s.params.catalog.layout 15).wid) :=
  ⟨⟨capped 4 [100, 200, 300], inv_of (by decide +kernel), rfl, by decide +kernel, by rw [first_capped]; exact encodable_100_200_300,
      by rw [first_capped]; exact words_100_200_300, by decide +kernel⟩,
    ⟨capped 3 [100, 200, 300], inv_of (by decide +kernel), rfl, by rw [first_capped]; exact words_100_200_300, by decide +kernel⟩,
    ⟨withIn [1, 0x10000000, 2], inv_of (by decide +kernel), rfl, by decide +kernel, by decide +kernel⟩⟩

theorem wordsAt_source : WordsAt (Memory.append [] [0x58, 0x22, 0x23, 0x83]) 0 [0x83232258] := by
  unfold WordsAt; decide

theorem s16Reads_source :
    S16Reads Config.catalog (Memory.append [] [0x58, 0x22, 0x23, 0x83]) 0 3 [100, 200, 300] 4 :=
  ⟨[0x83232258], wordsAt_source, by decide +kernel, by decide +kernel, by decide +kernel, rfl⟩

theorem s16Short_source : S16Short Config.catalog (Memory.append [] [0x58, 0x22, 0x23, 0x83]) 0 4 4 :=
  ⟨[0x83232258], wordsAt_source, by decide +kernel, rfl, by decide +kernel⟩

/-- The bytes of V-S16-4 are what an encode of three values appends. -/
theorem s16Canonical_source :
    Canonical .simple16 Config.catalog (Memory.append [] [0x58, 0x22, 0x23, 0x83]) 0 3 4 :=
  ⟨[100, 200, 300], wordBytes [0x83232258], rfl, ⟨_, words_100_200_300, rfl⟩, by decide +kernel⟩

/-- In either build: the values read in full, and the word that is missing. -/
theorem witness_S16DecodeResult :
    (∃ s : State, s.Inv ∧ s.fault = .noFault ∧ countLegal 3 ∧ s.params.noncanonical = .natural ∧
      S16Reads s.params.catalog s.eb s.cur.toNat 3 [100, 200, 300] 4) ∧
    (∃ s : State, s.Inv ∧ s.fault = .noFault ∧ countLegal 3 ∧ s.params.noncanonical = .refuse ∧
      S16Reads s.params.catalog s.eb s.cur.toNat 3 [100, 200, 300] 4 ∧
      Canonical .simple16 s.params.catalog s.eb s.cur.toNat 3 4) ∧
    (∃ s : State, s.Inv ∧ s.fault = .noFault ∧ countLegal 4 ∧ s.params.noncanonical = .natural ∧
      S16Short s.params.catalog s.eb s.cur.toNat 4 4) ∧
    (∃ s : State, s.Inv ∧ s.fault = .noFault ∧ countLegal 4 ∧ s.params.noncanonical = .refuse ∧
      S16Short s.params.catalog s.eb s.cur.toNat 4 4) :=
  ⟨⟨withEb [0x58, 0x22, 0x23, 0x83] 0, inv_of (by decide +kernel), rfl, by decide +kernel, rfl, s16Reads_source⟩,
    ⟨refusing [0x58, 0x22, 0x23, 0x83], inv_of (by decide +kernel), rfl, by decide +kernel, rfl, s16Reads_source,
      s16Canonical_source⟩,
    ⟨withEb [0x58, 0x22, 0x23, 0x83] 0, inv_of (by decide +kernel), rfl, by decide +kernel, rfl, s16Short_source⟩,
    ⟨refusing [0x58, 0x22, 0x23, 0x83], inv_of (by decide +kernel), rfl, by decide +kernel, rfl, s16Short_source⟩⟩

theorem witness_S16EncodeSize : (withIn [100, 200, 300]).Inv ∧
    ∃ t, exec (.s16Enc 3) (withIn [100, 200, 300]) = .next t ∧ t.fault = .noFault :=
  ⟨inv_of (by decide +kernel), _, rfl, by decide +kernel⟩

theorem witness_S16BoundaryBlocks :
    (base.Inv ∧ base.fault = .noFault ∧ base.params.catalog = Config.catalog ∧ base.eb.length + 20 ≤ base.params.ebCap ∧
      ∀ i : Fin 128, base.inBuf[i] = 0) ∧ (withIn [0x0FFFFFFF]).Inv ∧ (withIn [0x0FFFFFFF]).inBuf[0] = 0x0FFFFFFF#32 :=
  ⟨⟨inv_of (by decide +kernel), rfl, rfl, by decide +kernel, by decide +kernel⟩, inv_of (by decide +kernel), by decide +kernel⟩

theorem witness_DataWordUnpacks : base.params.catalog.wf ∧ base.fault = .noFault := by decide +kernel

theorem witness_SvbEncodeResult :
    (∃ s : State, s.Inv ∧ s.fault = .noFault ∧ countLegal 4 ∧
      s.eb.length + (svbBytes (firstSlots s.inBuf 4)).length = s.params.ebCap) ∧
    (∃ s : State, s.Inv ∧ s.fault = .noFault ∧ countLegal 4 ∧
      s.params.ebCap + 1 = s.eb.length + (svbBytes (firstSlots s.inBuf 4)).length) :=
  ⟨⟨capped 8 [0, 255, 256, 65536], inv_of (by decide +kernel), rfl, by decide +kernel, by decide +kernel⟩,
    ⟨capped 7 [0, 255, 256, 65536], inv_of (by decide +kernel), rfl, by decide +kernel, by decide +kernel⟩⟩

/-- The bytes of V-SRC-1 stand as one group of the values 0, 255, 256, 65536. -/
theorem svbReads_source :
    SvbReads (Memory.append [] [0x90, 0x00, 0xFF, 0x00, 0x01, 0x00, 0x00, 0x01]) 0 [0, 255, 256, 65536] 8 :=
  .group 0 0x90 [0, 255, 256, 65536] [] 8 (by decide +kernel) (by decide +kernel) (by decide +kernel) (by decide +kernel) (by decide +kernel) (.done 8)

/-- Without the last byte the fourth lane's data is missing at index 5 (V-SVBD-1). -/
theorem svbShort_source : SvbShort (Memory.append [] [0x90, 0x00, 0xFF, 0x00, 0x01, 0x00, 0x00]) 0 4 5 :=
  .lane 0 4 0x90 3 (by decide +kernel) (by decide +kernel)
    (fun j hj => by
      interval_cases j
      · exact ⟨0, by decide +kernel⟩
      · exact ⟨255, by decide +kernel⟩
      · exact ⟨256, by decide +kernel⟩) (by decide +kernel)

/-- The bytes of V-SRC-1 are what an encode of four values appends. -/
theorem svbCanonical_source : Canonical .streamVByte Config.catalog
    (Memory.append [] [0x90, 0x00, 0xFF, 0x00, 0x01, 0x00, 0x00, 0x01]) 0 4 8 :=
  ⟨[0, 255, 256, 65536], svbBytes [0, 255, 256, 65536], rfl, rfl, by decide +kernel⟩

/-- The value 7 in four bytes stands as a group. -/
theorem svbReads_long : SvbReads (Memory.append [] [0x03, 0x07, 0x00, 0x00, 0x00]) 0 [7] 5 :=
  .group 0 3 [7] [] 5 (by decide +kernel) (by decide +kernel) (fun _ => rfl) (by decide +kernel) (by decide +kernel)
    (.done 5)

/-- No value's encoding is the value 7 in four bytes. -/
theorem svb_long_not_canonical :
    ¬ Canonical .streamVByte Config.catalog (Memory.append [] [0x03, 0x07, 0x00, 0x00, 0x00]) 0 1 5 := by
  rintro ⟨v, bs, hv, henc, hbs⟩
  match v, hv with
  | [x], _ =>
    have hb : Memory.bytesAt (Memory.append [] [0x03, 0x07, 0x00, 0x00, 0x00]) 0 5 =
        some [0x03, 0x07, 0x00, 0x00, 0x00] := by decide
    obtain rfl : [0x03#8, 0x07#8, 0x00#8, 0x00#8, 0x00#8] = bs := Option.some.inj (hb.symm.trans hbs)
    have henc' : [0x03#8, 0x07#8, 0x00#8, 0x00#8, 0x00#8] = svbGroupBytes [x] 0 ++ [] := by
      simpa [EncodesTo, svbBytes] using henc
    have hlen := congrArg List.length henc'
    have h4 := congrArg (fun l => l[4]?) henc'
    have hx := x.isLt
    by_cases h3 : x.toNat < 2 ^ 24
    · have : bytelen x ≤ 3 := by unfold bytelen; split_ifs <;> omega
      simp [svbGroupBytes] at hlen
      omega
    · have hb : bytelen x = 4 := by unfold bytelen; split_ifs <;> omega
      simp [svbGroupBytes, hb, List.range_succ] at h4
      have h4' := congrArg BitVec.toNat h4
      simp at h4'
      omega

/-- In either build: the values read in full, and the data bytes or the control byte that are missing. -/
theorem witness_SvbDecodeResult :
    (∃ s : State, s.Inv ∧ s.fault = .noFault ∧ countLegal 4 ∧ s.params.noncanonical = .natural ∧
      SvbReads s.eb s.cur.toNat [0, 255, 256, 65536] 8) ∧
    (∃ s : State, s.Inv ∧ s.fault = .noFault ∧ countLegal 4 ∧ s.params.noncanonical = .refuse ∧
      SvbReads s.eb s.cur.toNat [0, 255, 256, 65536] 8 ∧
      Canonical .streamVByte s.params.catalog s.eb s.cur.toNat 4 8) ∧
    (∃ s : State, s.Inv ∧ s.fault = .noFault ∧ s.params.noncanonical = .natural ∧ SvbShort s.eb s.cur.toNat 4 5) ∧
    (∃ s : State, s.Inv ∧ s.fault = .noFault ∧ s.params.noncanonical = .refuse ∧ SvbShort s.eb s.cur.toNat 4 5) ∧
    (∃ s : State, s.Inv ∧ s.fault = .noFault ∧ SvbShort s.eb s.cur.toNat 1 0) :=
  ⟨⟨withEb [0x90, 0x00, 0xFF, 0x00, 0x01, 0x00, 0x00, 0x01] 0, inv_of (by decide +kernel), rfl, by decide +kernel, rfl,
      svbReads_source⟩,
    ⟨refusing [0x90, 0x00, 0xFF, 0x00, 0x01, 0x00, 0x00, 0x01], inv_of (by decide +kernel), rfl, by decide +kernel, rfl,
      svbReads_source, svbCanonical_source⟩,
    ⟨withEb [0x90, 0x00, 0xFF, 0x00, 0x01, 0x00, 0x00] 0, inv_of (by decide +kernel), rfl, rfl, svbShort_source⟩,
    ⟨refusing [0x90, 0x00, 0xFF, 0x00, 0x01, 0x00, 0x00], inv_of (by decide +kernel), rfl, rfl, svbShort_source⟩,
    ⟨base, inv_of (by decide +kernel), rfl, .control 0 1 (by decide +kernel) (by decide +kernel)⟩⟩

theorem witness_SvbEncodeSize : (withIn [300, 70000]).Inv ∧
    ∃ t, exec (.svbEnc 2) (withIn [300, 70000]) = .next t ∧ t.fault = .noFault :=
  ⟨inv_of (by decide +kernel), _, rfl, by decide +kernel⟩

theorem witness_SvbTagExample : ∃ s : State, s.Inv ∧ s.fault = .noFault ∧ s.eb.length + 8 = s.params.ebCap ∧
    s.inBuf[0] = 0 ∧ s.inBuf[1] = 255 ∧ s.inBuf[2] = 256 ∧ s.inBuf[3] = 65536 :=
  ⟨capped 8 [0, 255, 256, 65536], inv_of (by decide +kernel), rfl, rfl, by decide +kernel, by decide +kernel, by decide +kernel, by decide +kernel⟩

theorem witness_ControlByteGivesLengths : base.fault = .noFault := rfl

/-- A Simple16 encode and a StreamVByte encode that complete, and a later state that holds their bytes. -/
theorem witness_BlockRoundTrip : ∀ c : Codec, ∃ s t u : State, s.Inv ∧ s.fault = .noFault ∧ countLegal 3 ∧
    exec (encodeCommand c 3) s = .next t ∧ t.fault = .noFault ∧ u.fault = .noFault ∧ u.params = t.params ∧ u.eb.wf ∧
    t.eb <+: u.eb ∧ u.cur.toNat = s.eb.length := by
  intro c
  cases c
  · exact ⟨withIn [100, 200, 300], _, { withEb [0x58, 0x22, 0x23, 0x83, 0x99] 0 with epoch := 1 }, inv_of (by decide +kernel), rfl,
      by decide +kernel, rfl, rfl, rfl, rfl, by decide +kernel, by decide +kernel, rfl⟩
  · exact ⟨withIn [7, 0, 0], _, { withEb [0x00, 0x07, 0x00, 0x00, 0x99] 0 with epoch := 1 }, inv_of (by decide +kernel), rfl,
      by decide +kernel, rfl, rfl, rfl, rfl, by decide +kernel, by decide +kernel, rfl⟩

/-- P2's two blocks. -/
theorem witness_TwoBlocksDecodeIndependently : ∃ a a' b b' u : State,
    a.Inv ∧ a.fault = .noFault ∧ countLegal 2 ∧ exec (encodeCommand .streamVByte 2) a = .next a' ∧ a'.fault = .noFault ∧
    b.Inv ∧ b.fault = .noFault ∧ countLegal 3 ∧ exec (encodeCommand .simple16 3) b = .next b' ∧ b'.fault = .noFault ∧
    b.eb = a'.eb ∧ b.params = a.params ∧ u.fault = .noFault ∧ u.params = a.params ∧ u.eb.wf ∧ b'.eb <+: u.eb ∧
    u.cur.toNat = a.eb.length :=
  ⟨withIn [300, 70000], _,
    { withIn [100, 200, 300] with eb := Memory.append [] [0x09, 0x2C, 0x01, 0x70, 0x11, 0x01] }, _,
    withEb [0x09, 0x2C, 0x01, 0x70, 0x11, 0x01, 0x58, 0x22, 0x23, 0x83] 0,
    inv_of (by decide +kernel), rfl, by decide +kernel, rfl, rfl, inv_of (by decide +kernel), rfl, by decide +kernel, rfl, rfl, by decide +kernel, rfl, rfl, rfl,
    by decide +kernel, by decide +kernel, rfl⟩

theorem witness_CodecsAreFunctions : ∃ s1 s2 t1 t2 : State, s1.Inv ∧ s2.Inv ∧ s1.fault = .noFault ∧ s2.fault = .noFault ∧
    s1.params.catalog = s2.params.catalog ∧ s1.sum ≠ s2.sum ∧ firstSlots s1.inBuf 3 = firstSlots s2.inBuf 3 ∧
    exec (.s16Enc 3) s1 = .next t1 ∧ exec (.s16Enc 3) s2 = .next t2 ∧ t1.fault = .noFault ∧ t2.fault = .noFault :=
  ⟨withIn [100, 200, 300], { withIn [100, 200, 300, 9] with sum := 600 }, _, _, inv_of (by decide +kernel), inv_of (by decide +kernel),
    rfl, rfl, rfl, by decide +kernel, by decide +kernel, rfl, rfl, rfl, rfl⟩

theorem witness_CodecsAreFunctions_decode : ∃ s1 s2 t1 t2 : State, s1.Inv ∧ s2.Inv ∧
    (∀ k, s1.eb.byteAt (s1.cur.toNat + k) = s2.eb.byteAt (s2.cur.toNat + k)) ∧ s1.sum ≠ s2.sum ∧
    exec (.svbDec 1) s1 = .next t1 ∧ exec (.svbDec 1) s2 = .next t2 ∧ t1.fault = .noFault ∧ t2.fault = .noFault :=
  ⟨withEb [0x00, 0x07] 0, { withEb [0x00, 0x07] 0 with sum := 7 }, _, _, inv_of (by decide +kernel), inv_of (by decide +kernel),
    fun _ => rfl, by decide +kernel, rfl, rfl, rfl, rfl⟩

theorem witness_RefuseBuildNeedsCanonicalBytes :
    (∃ s : State, s.Inv ∧ s.fault = .noFault ∧ countLegal 3 ∧ s.params.noncanonical = .refuse ∧
      Reads .simple16 s.params.catalog s.eb s.cur.toNat 3 [100, 200, 300] 4 ∧
      Canonical .simple16 s.params.catalog s.eb s.cur.toNat 3 4) ∧
    (∃ s : State, s.Inv ∧ s.fault = .noFault ∧ countLegal 1 ∧ s.params.noncanonical = .refuse ∧
      Reads .streamVByte s.params.catalog s.eb s.cur.toNat 1 [7] 5 ∧
      ¬ Canonical .streamVByte s.params.catalog s.eb s.cur.toNat 1 5) :=
  ⟨⟨refusing [0x58, 0x22, 0x23, 0x83], inv_of (by decide +kernel), rfl, by decide +kernel, rfl, s16Reads_source,
      s16Canonical_source⟩,
    ⟨refusing [0x03, 0x07, 0x00, 0x00, 0x00], inv_of (by decide +kernel), rfl, by decide +kernel, rfl,
      ⟨rfl, svbReads_long⟩, svb_long_not_canonical⟩⟩

theorem witness_CompletedDecodeKeepsCursorInside : (withEb [0x00, 0x07] 0).Inv ∧
    ∃ t, exec (decodeCommandOf .streamVByte 1) (withEb [0x00, 0x07] 0) = .next t ∧ t.fault = .noFault :=
  ⟨inv_of (by decide +kernel), _, rfl, rfl⟩

/-- The driver set to decode the block of V-SRC-1. -/
def decoding (bs : List Byte) (rem : Word) (loutCap : Nat) : State :=
  { withEb bs 0 with rem := rem, codec := 1, params := { Config.params with loutCap := loutCap } }

theorem min_rem_1 : min 128 (1 : Word).toNat = 1 := by decide +kernel

/-- `decoding` in a build set to `refuse`. -/
def decodingRefuse (bs : List Byte) (rem codec : Word) (loutCap : Nat) : State :=
  { refusing bs with
    rem := rem, codec := codec, params := { Config.params with loutCap := loutCap, noncanonical := .refuse } }

/-- The clauses in a build set to `natural`. -/
theorem witness_DecodeStepResult :
    (∃ s : State, s.Inv ∧ s.fault = .noFault ∧ s.rem = 0) ∧
    (∃ s : State, s.Inv ∧ s.fault = .noFault ∧ s.rem ≠ 0 ∧ s.codec = 2) ∧
    (∃ s : State, s.Inv ∧ s.fault = .noFault ∧ s.rem ≠ 0 ∧ s.codec = codecNumber .streamVByte ∧
      Short .streamVByte s.params.catalog s.eb s.cur.toNat (min 128 s.rem.toNat) 5) ∧
    (∃ s : State, s.Inv ∧ s.fault = .noFault ∧ s.params.noncanonical = .natural ∧ s.rem ≠ 0 ∧
      s.codec = codecNumber .streamVByte ∧
      Reads .streamVByte s.params.catalog s.eb s.cur.toNat (min 128 s.rem.toNat) [0, 255, 256, 65536] 8 ∧
      s.params.loutCap + 1 = s.lout.length + min 128 s.rem.toNat) ∧
    (∃ s : State, s.Inv ∧ s.fault = .noFault ∧ s.params.noncanonical = .natural ∧ s.rem ≠ 0 ∧
      s.codec = codecNumber .streamVByte ∧
      Reads .streamVByte s.params.catalog s.eb s.cur.toNat (min 128 s.rem.toNat) [0, 255, 256, 65536] 8 ∧
      s.params.loutCap = s.lout.length + min 128 s.rem.toNat) :=
  ⟨⟨base, inv_of (by decide +kernel), rfl, rfl⟩,
    ⟨{ base with rem := 1, codec := 2 }, inv_of (by decide +kernel), rfl, (by decide +kernel : (1 : Word) ≠ 0), rfl⟩,
    ⟨decoding [0x90, 0x00, 0xFF, 0x00, 0x01, 0x00, 0x00] 4 4, inv_of (by decide +kernel), rfl,
      (by decide +kernel : (4 : Word) ≠ 0), rfl,
      by show SvbShort _ _ (min 128 (4 : Word).toNat) 5; rw [min_rem_4]; exact svbShort_source⟩,
    ⟨decoding [0x90, 0x00, 0xFF, 0x00, 0x01, 0x00, 0x00, 0x01] 4 3, inv_of (by decide +kernel), rfl, rfl,
      (by decide +kernel : (4 : Word) ≠ 0), rfl, ⟨by decide +kernel, svbReads_source⟩, by decide +kernel⟩,
    ⟨decoding [0x90, 0x00, 0xFF, 0x00, 0x01, 0x00, 0x00, 0x01] 4 4, inv_of (by decide +kernel), rfl, rfl,
      (by decide +kernel : (4 : Word) ≠ 0), rfl, ⟨by decide +kernel, svbReads_source⟩, by decide +kernel⟩⟩

/-- The clauses in a build set to `refuse`: bytes missing, canonical bytes that do and do not fit `LOUT`, and bytes that are
not canonical. -/
theorem witness_DecodeStepResult_refuse :
    (∃ s : State, s.Inv ∧ s.fault = .noFault ∧ s.params.noncanonical = .refuse ∧ s.rem ≠ 0 ∧
      s.codec = codecNumber .streamVByte ∧
      Short .streamVByte s.params.catalog s.eb s.cur.toNat (min 128 s.rem.toNat) 5) ∧
    (∀ cap ∈ [3, 4], ∃ s : State, s.Inv ∧ s.fault = .noFault ∧ s.params.noncanonical = .refuse ∧ s.rem ≠ 0 ∧
      s.codec = codecNumber .streamVByte ∧
      Reads .streamVByte s.params.catalog s.eb s.cur.toNat (min 128 s.rem.toNat) [0, 255, 256, 65536] 8 ∧
      Canonical .streamVByte s.params.catalog s.eb s.cur.toNat (min 128 s.rem.toNat) 8 ∧
      s.params.loutCap = cap ∧ s.lout.length + min 128 s.rem.toNat = 4) ∧
    (∃ s : State, s.Inv ∧ s.fault = .noFault ∧ s.params.noncanonical = .refuse ∧ s.rem ≠ 0 ∧
      s.codec = codecNumber .streamVByte ∧
      Reads .streamVByte s.params.catalog s.eb s.cur.toNat (min 128 s.rem.toNat) [7] 5 ∧
      ¬ Canonical .streamVByte s.params.catalog s.eb s.cur.toNat (min 128 s.rem.toNat) 5) := by
  refine ⟨⟨decodingRefuse [0x90, 0x00, 0xFF, 0x00, 0x01, 0x00, 0x00] 4 1 4, inv_of (by decide +kernel), rfl, rfl,
      (by decide +kernel : (4 : Word) ≠ 0), rfl, ?_⟩, ?_,
    ⟨decodingRefuse [0x03, 0x07, 0x00, 0x00, 0x00] 1 1 1, inv_of (by decide +kernel), rfl, rfl,
      (by decide +kernel : (1 : Word) ≠ 0), rfl, ⟨by decide +kernel, svbReads_long⟩, ?_⟩⟩
  · show SvbShort _ _ (min 128 (4 : Word).toNat) 5
    rw [min_rem_4]
    exact svbShort_source
  · have hc : Canonical .streamVByte Config.catalog
        (Memory.append [] [0x90, 0x00, 0xFF, 0x00, 0x01, 0x00, 0x00, 0x01]) 0 (min 128 (4 : Word).toNat) 8 := by
      rw [min_rem_4]
      exact svbCanonical_source
    intro cap hcap
    refine ⟨decodingRefuse [0x90, 0x00, 0xFF, 0x00, 0x01, 0x00, 0x00, 0x01] 4 1 cap, ?_, rfl, rfl,
      (by decide +kernel : (4 : Word) ≠ 0), rfl, ⟨min_rem_4.symm, svbReads_source⟩, hc, rfl, min_rem_4⟩
    rcases List.mem_pair.mp hcap with rfl | rfl
    · exact inv_of (by decide +kernel)
    · exact inv_of (by decide +kernel)
  · show ¬ Canonical _ _ _ _ (min 128 (1 : Word).toNat) 5
    rw [min_rem_1]
    exact svb_long_not_canonical

/-- The driver set to encode a list from the start of `LIN`. -/
def encoding (v : List Word) (rem codec : Word) (ebCap : Nat) : State :=
  { base with lin := v, rem := rem, codec := codec, params := { Config.params with ebCap := ebCap } }

theorem witness_EncodeStepResult :
    (∃ s : State, s.Inv ∧ s.fault = .noFault ∧ s.rem = 0) ∧
    (∃ s : State, s.Inv ∧ s.fault = .noFault ∧ s.rem ≠ 0 ∧ s.codec = 2) ∧
    (∃ s : State, s.Inv ∧ s.fault = .noFault ∧ s.rem ≠ 0 ∧ s.codec = codecNumber .streamVByte ∧
      s.lin.length + 1 = s.lrp.toNat + min 128 s.rem.toNat) ∧
    (∃ s : State, s.Inv ∧ s.fault = .noFault ∧ s.rem ≠ 0 ∧ s.codec = codecNumber .simple16 ∧
      s.lrp.toNat + min 128 s.rem.toNat = s.lin.length ∧
      [1, 0x10000000] = (s.lin.drop s.lrp.toNat).take (min 128 s.rem.toNat) ∧
      2 ^ (s.params.catalog.layout 15).wid = (0x10000000 : Word).toNat) ∧
    (∃ s : State, s.Inv ∧ s.fault = .noFault ∧ s.rem ≠ 0 ∧ s.codec = codecNumber .streamVByte ∧
      s.lrp.toNat + min 128 s.rem.toNat = s.lin.length ∧
      EncodesTo .streamVByte s.params.catalog [7] [0x00, 0x07] ∧ s.params.ebCap + 1 = s.eb.length + 2) ∧
    (∃ s : State, s.Inv ∧ s.fault = .noFault ∧ s.rem ≠ 0 ∧ s.codec = codecNumber .simple16 ∧
      s.lrp.toNat + min 128 s.rem.toNat = s.lin.length ∧
      [100, 200, 300] = (s.lin.drop s.lrp.toNat).take (min 128 s.rem.toNat) ∧
      Encodable .simple16 s.params.catalog [100, 200, 300] ∧
      EncodesTo .simple16 s.params.catalog [100, 200, 300] (wordBytes [0x83232258]) ∧
      s.params.ebCap = s.eb.length + (wordBytes [0x83232258]).length) :=
  ⟨⟨base, inv_of (by decide +kernel), rfl, rfl⟩,
    ⟨{ base with rem := 1, codec := 2 }, inv_of (by decide +kernel), rfl, (by decide +kernel : (1 : Word) ≠ 0), rfl⟩,
    ⟨encoding [7] 2 1 9, inv_of (by decide +kernel), rfl, (by decide +kernel : (2 : Word) ≠ 0), rfl, by decide +kernel⟩,
    ⟨encoding [1, 0x10000000] 2 0 9, inv_of (by decide +kernel), rfl, (by decide +kernel : (2 : Word) ≠ 0), rfl, by decide +kernel, by decide +kernel,
      by decide +kernel⟩,
    ⟨encoding [7] 1 1 1, inv_of (by decide +kernel), rfl, (by decide +kernel : (1 : Word) ≠ 0), rfl, by decide +kernel,
      (by decide +kernel : ([0x00, 0x07] : List Byte) = svbBytes [7]), by decide +kernel⟩,
    ⟨encoding [100, 200, 300] 3 0 4, inv_of (by decide +kernel), rfl, (by decide +kernel : (3 : Word) ≠ 0), rfl, by decide +kernel, by decide +kernel,
      encodable_100_200_300, ⟨_, words_100_200_300, rfl⟩, by decide +kernel⟩⟩

theorem witness_DecodeStepIsBlockDecode : ∃ s t : State, s.fault = .noFault ∧ s.rem ≠ 0 ∧
    s.codec = codecNumber .streamVByte ∧ (1 : BitVec 8).toNat = min 128 s.rem.toNat ∧
    exec (decodeCommandOf .streamVByte 1) s = .next t ∧ t.fault = .noFault ∧
    s.lout.length + (1 : BitVec 8).toNat = s.params.loutCap :=
  ⟨decoding [0x00, 0x07] 1 1, _, rfl, (by decide +kernel : (1 : Word) ≠ 0), rfl, by decide +kernel, rfl, rfl, by decide +kernel⟩

theorem witness_EncodeStepIsBlockEncode : ∃ (s : State) (inb : Vector Word 128) (t : State), s.Inv ∧ s.fault = .noFault ∧
    s.rem ≠ 0 ∧ s.codec = codecNumber .streamVByte ∧ (1 : BitVec 8).toNat = min 128 s.rem.toNat ∧
    s.lrp.toNat + (1 : BitVec 8).toNat ≤ s.lin.length ∧
    SlotsWritten s.inBuf inb ((s.lin.drop s.lrp.toNat).take (1 : BitVec 8).toNat) ∧
    exec (encodeCommand .streamVByte 1) { s with
      inBuf := inb, sum := BitVec.ofNat 32 (total ((s.lin.drop s.lrp.toNat).take (1 : BitVec 8).toNat)) } = .next t ∧
    t.fault = .noFault :=
  ⟨encoding [7] 1 1 9, (withIn [7]).inBuf, _, inv_of (by decide +kernel), rfl, (by decide +kernel : (1 : Word) ≠ 0), rfl, by decide +kernel, by decide +kernel,
    by unfold SlotsWritten; decide, rfl, rfl⟩

theorem witness_EmptyRunDoesNothing : base.rem = 0 := rfl

theorem witness_DecodeRunCompletes :
    (∃ s : State, s.Inv ∧ s.fault = .noFault ∧ s.params.noncanonical = .natural ∧ s.codec = codecNumber .streamVByte ∧
      ReadsRun .streamVByte s.params.catalog s.eb s.cur.toNat s.rem.toNat [0, 255, 256, 65536] 8 ∧
      s.lout.length + s.rem.toNat = s.params.loutCap) ∧
    (∃ s : State, s.Inv ∧ s.fault = .noFault ∧ s.params.noncanonical = .natural ∧ s.codec = codecNumber .simple16 ∧
      ReadsRun .simple16 s.params.catalog s.eb s.cur.toNat s.rem.toNat [] 0 ∧
      s.lout.length + s.rem.toNat ≤ s.params.loutCap) :=
  ⟨⟨decoding [0x90, 0x00, 0xFF, 0x00, 0x01, 0x00, 0x00, 0x01] 4 4, inv_of (by decide +kernel), rfl, rfl, rfl,
      .block 0 4 [0, 255, 256, 65536] [] 8 8 (by decide +kernel) ⟨by decide +kernel, svbReads_source⟩ (.done 8), by decide +kernel⟩,
    ⟨base, inv_of (by decide +kernel), rfl, rfl, rfl, .done 0, by decide +kernel⟩⟩

theorem witness_DecodeRunCompletes_refuse : ∃ s : State, s.Inv ∧ s.fault = .noFault ∧
    s.params.noncanonical = .refuse ∧ s.codec = codecNumber .simple16 ∧
    ReadsRun .simple16 s.params.catalog s.eb s.cur.toNat s.rem.toNat [100, 200, 300] 4 ∧
    CanonicalRun .simple16 s.params.catalog s.eb s.cur.toNat s.rem.toNat 4 ∧
    s.lout.length + s.rem.toNat = s.params.loutCap :=
  ⟨decodingRefuse [0x58, 0x22, 0x23, 0x83] 3 0 3, inv_of (by decide +kernel), rfl, rfl, rfl,
    .block 0 3 [100, 200, 300] [] 4 4 (by decide +kernel) s16Reads_source (.done 4),
    ⟨[100, 200, 300], wordBytes [0x83232258] ++ [], rfl,
      .block _ _ _ (by decide +kernel) ⟨_, words_100_200_300, rfl⟩ .done, by decide +kernel⟩, by decide +kernel⟩

theorem witness_EncodeRunCompletes : ∃ s : State, s.Inv ∧ s.fault = .noFault ∧ s.codec = codecNumber .simple16 ∧
    s.rem ≠ 0 ∧ s.lrp.toNat + s.rem.toNat = s.lin.length ∧
    [100, 200, 300] = (s.lin.drop s.lrp.toNat).take s.rem.toNat ∧
    Encodable .simple16 s.params.catalog [100, 200, 300] ∧
    EncodesRun .simple16 s.params.catalog [100, 200, 300] (wordBytes [0x83232258] ++ []) ∧
    s.eb.length + (wordBytes [0x83232258] ++ []).length = s.params.ebCap :=
  ⟨encoding [100, 200, 300] 3 0 4, inv_of (by decide +kernel), rfl, rfl, (by decide +kernel : (3 : Word) ≠ 0), by decide +kernel, by decide +kernel,
    encodable_100_200_300, .block _ _ _ (by decide +kernel) ⟨_, words_100_200_300, rfl⟩ .done, by decide +kernel⟩

/-- A decode run over 128 of 129 values: the second iteration runs out of bytes, the first stands. -/
theorem drun_129 : passes (exec .seqDrun (decoding (List.replicate 160 0) 129 129))
    (fun t => faultIs .decodeUnderrun 160 t && decide (t.rem = 1 ∧ t.lout.length = 128)) = true := by decide +kernel

/-- An encode run of 129 values into 160 bytes: the second block does not fit, the first stands. -/
theorem erun_129 : passes (exec .seqErun (encoding (List.replicate 129 7) 129 1 160))
    (fun t => faultIs .encodeOverflow 160 t && decide (t.rem = 1 ∧ t.eb.length = 160)) = true := by decide +kernel

/-- What passes a check is a next state that meets it. -/
theorem of_passes {a : Answer} {p : State → Bool} (h : passes a p = true) : ∃ t, a = .next t ∧ p t = true := by
  cases a with
  | next t => exact ⟨t, rfl, h⟩
  | fault e => exact absurd h Bool.false_ne_true
  | refused e => exact absurd h Bool.false_ne_true

/-- The runs' clauses with one completed iteration before the one that faults. -/
theorem witness_FaultsArePrecise_run :
    (∃ s t : State, s.fault = .noFault ∧ exec .seqDrun s = .next t ∧ t.fault ≠ .noFault ∧ s.rem = 129 ∧ t.rem = 1) ∧
    (∃ s t : State, s.fault = .noFault ∧ exec .seqErun s = .next t ∧ t.fault ≠ .noFault ∧ s.rem = 129 ∧ t.rem = 1) := by
  obtain ⟨t, ht, hp⟩ := of_passes drun_129
  obtain ⟨u, hu, hq⟩ := of_passes erun_129
  simp only [faultIs, Bool.and_eq_true, decide_eq_true_eq] at hp hq
  exact ⟨⟨_, t, rfl, ht, by simp [hp.1.1], rfl, hp.2.1⟩, ⟨_, u, rfl, hu, by simp [hq.1.1], rfl, hq.2.1⟩⟩

/-- Runs of one step that completes, one that faults, and one a build set to `refuse` gives no meaning. -/
theorem witness_RunsFollowTheirSteps :
    (∃ s u : State, s.fault = .noFault ∧ Iterates .seqDstep 1 s u ∧ u.rem = 0) ∧
    (∃ s u : State, s.fault = .noFault ∧ Iterates .seqDstep 1 s u ∧ u.fault ≠ .noFault) ∧
    (∃ s u : State, s.fault = .noFault ∧ Iterates .seqEstep 1 s u ∧ u.rem = 0) ∧
    (∃ s u : State, s.fault = .noFault ∧ Iterates .seqEstep 1 s u ∧ u.fault ≠ .noFault) ∧
    (∃ (s u : State) (r : Refusal), s.fault = .noFault ∧ Iterates .seqDstep 0 s u ∧ u.rem ≠ 0 ∧ u.fault = .noFault ∧
      exec .seqDstep u = .refused r) :=
  ⟨⟨decoding [0x00, 0x07] 1 1, _, rfl, .more 0 _ _ _ (by decide +kernel) rfl rfl (.none _), rfl⟩,
    ⟨decoding [0x00] 1 1, _, rfl, .more 0 _ _ _ (by decide +kernel) rfl rfl (.none _), by decide +kernel⟩,
    ⟨encoding [7] 1 1 9, _, rfl, .more 0 _ _ _ (by decide +kernel) rfl rfl (.none _), rfl⟩,
    ⟨encoding [] 1 1 9, _, rfl, .more 0 _ _ _ (by decide +kernel) rfl rfl (.none _), by decide +kernel⟩,
    ⟨decodingRefuse [0x03, 0x07, 0x00, 0x00, 0x00] 1 1 1, _, .noncanonicalDecode, rfl, .none _, by decide +kernel, rfl,
      rfl⟩⟩

theorem witness_RunsTerminate :
    (∃ s t : State, s.fault = .noFault ∧ s.rem ≠ 0 ∧ exec .seqDrun s = .next t) ∧
    (∃ s t : State, s.fault = .noFault ∧ s.rem ≠ 0 ∧ exec .seqErun s = .next t) :=
  ⟨⟨decoding [0x00, 0x07] 1 1, _, rfl, (by decide +kernel : (1 : Word) ≠ 0), rfl⟩,
    ⟨encoding [7] 1 1 9, _, rfl, (by decide +kernel : (1 : Word) ≠ 0), rfl⟩⟩

theorem witness_ListRoundTrip : ∃ s t u : State, s.Inv ∧ s.fault = .noFault ∧ exec .seqErun s = .next t ∧
    t.fault = .noFault ∧ u.fault = .noFault ∧ u.params = t.params ∧ u.eb.wf ∧ t.eb <+: u.eb ∧
    u.cur.toNat = s.eb.length ∧ u.codec = s.codec ∧ u.rem = s.rem ∧ s.rem ≠ 0 ∧
    u.lout.length + u.rem.toNat ≤ u.params.loutCap :=
  ⟨encoding [7] 1 1 9, _, { encoding [] 1 1 9 with eb := Memory.append [] [0x00, 0x07] }, inv_of (by decide +kernel), rfl, rfl,
    rfl, rfl, rfl, by decide +kernel, by decide +kernel, rfl, rfl, rfl, (by decide +kernel : (1 : Word) ≠ 0), by decide +kernel⟩

/-- A list of 130 sevens, and what an encode run of it leaves. -/
theorem erun_130 : passes (exec .seqErun (encoding (List.replicate 130 7) 130 1 999)) (fun t =>
    decide (t.fault = .noFault ∧ t.eb.wf ∧ t.codec = 1 ∧ t.lout.length + 130 ≤ t.params.loutCap)) = true := by
  decide +kernel

theorem witness_PartialFinalBlock : ∃ s t u : State, s.Inv ∧ s.fault = .noFault ∧ s.rem = 130 ∧
    exec .seqErun s = .next t ∧ t.fault = .noFault ∧ u.fault = .noFault ∧ u.params = t.params ∧ u.eb.wf ∧
    t.eb <+: u.eb ∧ u.cur.toNat = s.eb.length ∧ u.codec = s.codec ∧ u.rem = 130 ∧
    u.lout.length + 130 ≤ u.params.loutCap := by
  obtain ⟨t, he, h⟩ := of_passes erun_130
  simp only [decide_eq_true_eq] at h
  exact ⟨encoding (List.replicate 130 7) 130 1 999, t, { t with cur := 0, rem := 130 }, inv_of (by decide +kernel), rfl,
    rfl, he, h.1, h.1, rfl, h.2.1, List.prefix_refl _, rfl, h.2.2.1, rfl, h.2.2.2⟩

theorem witness_StepKeepsInvariant : ∃ s t : State, s.Inv ∧ step s = .next t ∧ s.eb ≠ t.eb :=
  ⟨{ withIn [7] with inbox := [.wr 0 0x20000001] }, _, inv_of (by decide +kernel), rfl, by decide +kernel⟩

theorem witness_StoresAreAppendOnly : ∃ s t : State, s.Inv ∧ step s = .next t ∧ s.eb ≠ [] ∧ s.eb ≠ t.eb :=
  ⟨{ withEb [7] 0 with inbox := [.wr 0 0x20000001] }, _, inv_of (by decide +kernel), rfl, by decide +kernel, by decide +kernel⟩

theorem witness_CommandsNeverTouch : ∃ t, exec (.svbEnc 1) (withIn [7]) = .next t := ⟨_, rfl⟩

theorem witness_EveryInstructionAnswers : base.params.noncanonical = .natural := rfl

theorem witness_InstancesAreIndependent : ∃ new, System.stepAt [base, base] 0 = some new := ⟨_, rfl⟩

end Sys2Proof.Tests
end

section
/-! `STATUS` as a number: the flag `FAULTED` at bit 0 and the flag `PENDING` at bit 1, nothing above (R30). -/

namespace Sys2Proof.Machine

theorem State.faulted_iff (s : State) : s.faulted = true ↔ s.fault ≠ .noFault := decide_eq_true_iff

theorem State.pending_iff (s : State) : s.pending = true ↔ s.rem ≠ 0 := decide_eq_true_iff

theorem State.readReg_status (s : State) : s.readReg 1 = s.status := rfl

/-- Two flags at bits 0 and 1 of a word overlap nowhere, so their values add. -/
theorem toNat_flagPair (f p : Bool) :
    ((BitVec.ofBool f).setWidth 32 ||| ((BitVec.ofBool p).setWidth 32 <<< 1) : Word).toNat =
      (if f = true then 1 else 0) + (if p = true then 2 else 0) := by
  revert f p
  decide

theorem State.status_toNat (s : State) :
    s.status.toNat = (if s.faulted = true then 1 else 0) + (if s.pending = true then 2 else 0) :=
  toNat_flagPair s.faulted s.pending

/-- Settles O13: register 1 reads `STATUS`, whose two flags are the tests of `FAULT` and `REM` the statement writes. -/
theorem statusIsComputed : Obligations.StatusIsComputed := by
  intro s
  simp only [State.readReg_status, State.status_toNat, State.faulted_iff, State.pending_iff]

end Sys2Proof.Machine
end

section
/-! Which words are commands: `LegalWord`'s arithmetic (R94) said of the fields of R90, and the decoder's answer. -/

namespace Sys2Proof

theorem fieldOp_toNat (w : Word) : (fieldOp w).toNat = w.toNat / 2 ^ 24 := by
  have hw := w.isLt
  rw [fieldOp, BitVec.extractLsb'_toNat, Nat.shiftRight_eq_div_pow]
  omega

theorem fieldZ_toNat (w : Word) : (fieldZ w).toNat = w.toNat / 2 ^ 8 % 2 ^ 16 := by
  rw [fieldZ, BitVec.extractLsb'_toNat, Nat.shiftRight_eq_div_pow]

theorem fieldN_toNat (w : Word) : (fieldN w).toNat = w.toNat % 2 ^ 8 := by
  rw [fieldN, BitVec.extractLsb'_toNat, Nat.shiftRight_zero]

theorem legalWord_iff_fields (w : Word) : Terms.LegalWord w ↔
    fieldZ w = 0 ∧ ((fieldOp w).toNat ∈ [0x10, 0x11, 0x20, 0x21] ∨
      ((fieldOp w).toNat ∈ [0x30, 0x31, 0x32, 0x33] ∧ fieldN w = 0)) := by
  rw [Terms.LegalWord, ← fieldOp_toNat, ← fieldZ_toNat, ← fieldN_toNat, BitVec.toNat_eq (x := fieldZ w),
    BitVec.toNat_eq (x := fieldN w)]
  rfl

/-- A driver command's arm of the decoder answers exactly when the count field is 0. -/
theorem ok_of_zero_count_iff (n : BitVec 8) (i : Instr) :
    (∃ j, (if n = 0 then .ok i else .error .seqCount : Except DecodeError Instr) = .ok j) ↔ n = 0 := by
  split
  case isTrue h => exact iff_of_true ⟨i, rfl⟩ h
  case isFalse h => exact iff_of_false (by simp) h

/-- The decoder accepts exactly the legal words: `Z` is checked first, then the opcode is one of the four block
commands', one of the four driver commands' or reserved. -/
theorem decodeCommand_ok_iff (w : Word) : (∃ i, decodeCommand w = .ok i) ↔ Terms.LegalWord w := by
  rw [legalWord_iff_fields]
  unfold decodeCommand
  by_cases hz : fieldZ w = 0
  · rw [if_neg (not_not_intro hz)]
    split
    case h_1 | h_2 | h_3 | h_4 => simp [*]
    case h_5 | h_6 | h_7 | h_8 => rw [ok_of_zero_count_iff]; simp [*]
    case h_9 => simp_all
  · rw [if_pos hz]
    exact iff_of_false (by simp) fun h => hz h.1

theorem decodeCommand_error_of_not_legal {w : Word} (h : ¬ Terms.LegalWord w) : ∃ e, decodeCommand w = .error e := by
  cases hd : decodeCommand w with
  | error e => exact ⟨e, rfl⟩
  | ok i => exact absurd ((decodeCommand_ok_iff w).1 ⟨i, hd⟩) h

end Sys2Proof

namespace Sys2Proof.Machine

theorem step_pending {s : State} {m : Move} {rest : List Move} (h : s.inbox = m :: rest) :
    step s = hostMove m { s with inbox := rest } := by
  rw [step, nextMove, h]

theorem hostMove_write_cmd (w : Word) (s : State) : hostMove (.wr 0 w) s = writeCommand w s := rfl

theorem writeCommand_illegal {s : State} {w : Word} (hf : s.fault = .noFault) (hw : ¬ Terms.LegalWord w) :
    writeCommand w s = fail .illegalCommand w s := by
  obtain ⟨e, he⟩ := decodeCommand_error_of_not_legal hw
  rw [writeCommand, ifAccepting_ready hf, he]

/-- Settles O5: the decoder rejects a word that is not legal, and a rejected word raises. -/
theorem illegalWordRaises : Obligations.IllegalWordRaises := by
  refine ⟨fun s w rest hin hf hw => ?_, fun w => (decodeCommand_ok_iff w).2⟩
  rw [step_pending hin, hostMove_write_cmd, writeCommand_illegal (s := { s with inbox := rest }) hf hw]
  rfl

end Sys2Proof.Machine
end

section
/-! The default catalogue against the law of R103 and the conditions of R104: sixteen fixed entries. -/

namespace Sys2Proof

theorem Config.catalog_widths :
    Config.catalog.toList.map (·.wid) = [1, 2, 3, 4, 5, 6, 7, 8, 9, 10, 11, 12, 13, 14, 16, 28] := rfl

theorem Config.catalog_counts (s : Fin 16) :
    (Config.catalog.layout s).cnt = 28 / (Config.catalog.layout s).wid := by
  revert s
  decide

theorem Config.catalog_wf : Config.catalog.wf := by decide

/-- Settles O20: the widths, the counts and R104 of the sixteen entries. -/
theorem defaultCatalogue : Obligations.DefaultCatalogue :=
  ⟨Config.catalog_widths, Config.catalog_counts, Config.catalog_wf⟩

end Sys2Proof
end

section
/-! What both codecs share as one block: a command completes in one way only, and the two functions of R132 and R135 as
each other's inverse. -/

namespace Sys2Proof.Machine

open Sys2Proof.Terms

/-! The block commands by codec, and the terms of the statements said of the model's operations. -/

theorem exec_encodeCommand (c : Codec) (n : BitVec 8) (s : State) :
    exec (encodeCommand c n) s = blockEncode c n s := by
  cases c <;> rfl

theorem exec_decodeCommandOf (c : Codec) (n : BitVec 8) (s : State) :
    exec (decodeCommandOf c n) s = blockDecode c n s := by
  cases c <;> rfl

theorem firstSlots_length {n : Nat} (h : n ≤ 128) (b : Vector Word 128) : (firstSlots b n).length = n := by
  simpa [firstSlots] using h

theorem slotsWritten_overwrite {α : Type} {n : Nat} (v : Vector α n) (l : List α) :
    SlotsWritten v (overwrite v l) l := by
  intro i h
  rw [overwrite_getElem]
  split
  case isTrue hi => rw [List.getElem?_eq_getElem hi, Option.getD_some]
  case isFalse hi => rw [List.getElem?_eq_none (by omega), Option.getD_none]

theorem firstSlots_overwrite {l : List Word} (h : l.length ≤ 128) (b : Vector Word 128) :
    firstSlots (overwrite b l) l.length = l := by
  apply List.ext_getElem (firstSlots_length h _)
  intro i _ hi
  simp [firstSlots, hi]

theorem appended_append {m : Memory} (h : m.wf) (bs : List Byte) : Appended m (m.append bs) bs :=
  ⟨m.append_length bs, Memory.byteAt_append h bs⟩

/-! A command that completes without a fault took the one branch that commits. -/

theorem blockEncode_completes {c : Codec} {n : BitVec 8} {s t : State} (hf : s.fault = .noFault)
    (h : blockEncode c n s = .next t) (ht : t.fault = .noFault) :
    countLegal n ∧ ∃ bs, encOf c s.params.catalog (firstSlots s.inBuf n.toNat) = .ok bs ∧
      s.eb.length + bs.length ≤ s.params.ebCap ∧ t = s.appendEncoded bs := by
  rw [blockEncode, ifAccepting_ready hf] at h
  by_cases hn : countLegal n
  · rw [withCount_legal hn] at h
    rcases withEncoded_cases c (s.inValues n.toNat) s (fun bs => .next (s.appendEncoded bs)) with
      ⟨i, -, e⟩ | ⟨bs, -, -, e⟩ | ⟨bs, henc, hfit, e⟩ <;> rw [e] at h <;> cases h
    · cases ht
    · cases ht
    · exact ⟨hn, bs, henc, hfit, rfl⟩
  · rw [withCount_illegal hn] at h
    cases h
    cases ht

theorem blockDecode_completes {c : Codec} {n : BitVec 8} {s t : State} (hf : s.fault = .noFault)
    (h : blockDecode c n s = .next t) (ht : t.fault = .noFault) :
    countLegal n ∧ ∃ d, decOf c s.params.catalog s.eb s.cur.toNat n.toNat = .ok d ∧ t = s.writeDecoded d := by
  rw [blockDecode, ifAccepting_ready hf] at h
  by_cases hn : countLegal n
  · rw [withCount_legal hn] at h
    rcases withDecoded_cases c n.toNat s (fun d => .next (s.writeDecoded d)) with
      ⟨a, -, e⟩ | ⟨d, hd, ⟨-, -, e⟩ | ⟨-, e⟩⟩ <;> rw [e] at h <;> cases h
    · cases ht
    · exact ⟨hn, d, hd, rfl⟩
  · rw [withCount_illegal hn] at h
    cases h
    cases ht

/-- A decode of canonical bytes writes back in every build (U1). -/
theorem blockDecode_of_canonicalBytes {c : Codec} {n : BitVec 8} {s : State} {d : Decoded} (hf : s.fault = .noFault)
    (hn : countLegal n) (hd : decOf c s.params.catalog s.eb s.cur.toNat n.toNat = .ok d)
    (hc : canonicalBytes c s.params.catalog s.eb s.cur.toNat d = true) :
    blockDecode c n s = .next (s.writeDecoded d) := by
  rw [blockDecode, ifAccepting_ready hf, withCount_legal hn, withDecoded, hd]
  exact if_neg fun h => by simp [hc] at h

/-! Decoding what an encode laid down. -/

theorem Memory.Holds.of_prefix {m m' : Memory} {p : Nat} {bs : List Byte} (h : m.Holds p bs) (hw : m'.wf)
    (hp : m <+: m') : m'.Holds p bs :=
  ⟨hw, h.2.trans ((hp.map _).drop p)⟩

theorem Memory.Holds.bytesAt {m : Memory} {p : Nat} {bs : List Byte} (h : m.Holds p bs) :
    m.bytesAt p bs.length = some bs := by
  obtain ⟨hw, hpre⟩ := h
  have hlen := hpre.length_le
  simp only [List.length_drop, List.length_map] at hlen
  rcases bs.length.eq_zero_or_pos with h0 | hpos
  · rw [h0, List.length_eq_zero_iff.1 h0]; rfl
  · rw [Memory.bytesAt_eq hw _ _ (by omega), ← List.prefix_iff_eq_take.1 hpre]

/-- Words laid end to end, each little-endian, read back one after another (R61, R100). -/
theorem Memory.Holds.readWord {m : Memory} : ∀ {p : Nat} {ws : List Word},
    m.Holds p (ws.flatMap fun w => leBytes 4 w.toNat) →
      ∀ k (hk : k < ws.length), m.read (p + 4 * k) 4 = some ws[k].toNat
  | p, w :: ws, h, 0, _ => by
    have hread := h.left.read (by simp [leBytes])
    have hw : w.toNat < 256 ^ 4 := w.isLt
    rwa [leBytes_length, ofLeBytes_leBytes, Nat.mod_eq_of_lt hw] at hread
  | p, w :: ws, h, k + 1, hk => by
    have hrest := Memory.Holds.readWord h.right k (by simpa using hk)
    rw [leBytes_length] at hrest
    rw [show p + 4 * (k + 1) = p + 4 + 4 * k by omega]
    exact hrest

/-- R138 for the functions: `Dec` of the bytes of `Enc` is the values, and the cursor just past the bytes. -/
theorem decOf_encOf {c : Codec} {cat : Catalog} (hcat : cat.wf) {v : List Word} {bs : List Byte}
    (henc : encOf c cat v = .ok bs) {eb : Memory} {p : Nat} (h : eb.Holds p bs) :
    ∃ us, decOf c cat eb p v.length = .ok ⟨v, p + bs.length, us⟩ := by
  cases c with
  | simple16 =>
    rw [encOf, s16Enc] at henc
    cases hws : s16Words cat v.length 0 v with
    | error i => rw [hws] at henc; cases henc
    | ok ws =>
      rw [hws] at henc
      obtain rfl := Except.ok.inj henc
      have hlen : (ws.flatMap fun w => leBytes 4 w.toNat).length = 4 * ws.length := by
        simp [List.length_flatMap, Nat.mul_comm]
      rw [hlen]
      exact ⟨ws.map .word, s16DecFrom_words hcat eb _ 0 v ws hws v.length p (Nat.le_refl _) h.readWord⟩
  | streamVByte =>
    obtain rfl := Except.ok.inj henc
    exact svbDecFrom_enc eb v.length p v (Nat.le_refl _) h

theorem canonicalBytes_of_holds {c : Codec} {cat : Catalog} {v : List Word} {bs : List Byte}
    (henc : encOf c cat v = .ok bs) {eb : Memory} {p : Nat} (h : eb.Holds p bs) (us : List DataUnit) :
    canonicalBytes c cat eb p ⟨v, p + bs.length, us⟩ = true := by
  simp [canonicalBytes, henc, h.bytesAt]

/-- Settles O34: the later state holds the bytes the encode appended at its `CUR`, they decode to the values encoded and
are canonical, so every build writes them back. -/
theorem blockRoundTrip : Obligations.BlockRoundTrip := by
  intro c n s t u hinv hf hn hexec ht huf hup huw hpre hcur
  rw [exec_encodeCommand] at hexec
  obtain ⟨-, bs, henc, hfit, rfl⟩ := blockEncode_completes hf hexec ht
  have hp : u.params = s.params := hup
  have hholds : u.eb.Holds u.cur.toNat bs := by
    rw [hcur]
    exact (Memory.holds_append hinv.ebWf bs).of_prefix huw hpre
  rw [← hp] at henc
  obtain ⟨us, hdec⟩ := decOf_encOf (hp ▸ hinv.params.2.2.2) henc hholds
  rw [firstSlots_length hn.2] at hdec
  refine ⟨_, (exec_decodeCommandOf c n u).trans
    (blockDecode_of_canonicalBytes huf hn hdec (canonicalBytes_of_holds henc hholds us)), ?_, ?_, ?_⟩
  · simpa using huf
  · simpa using slotsWritten_overwrite u.outBuf (firstSlots s.inBuf n.toNat)
  · have hcap := hinv.params.1.2
    simp [hcur]
    omega

end Sys2Proof.Machine
end

section
/-! Block commands never consult `SUM` (R136): each shared operation answers the same from a state whose `SUM` is
overwritten, up to that overwriting. -/

namespace Sys2Proof.Machine

open Sys2Proof.Terms

/-- The state with another hint in `SUM`. -/
def State.withSum (x : Word) (s : State) : State := { s with sum := x }

@[simp] theorem State.withSum_params (x : Word) (s : State) : (s.withSum x).params = s.params := rfl
@[simp] theorem State.withSum_eb (x : Word) (s : State) : (s.withSum x).eb = s.eb := rfl
@[simp] theorem State.withSum_cur (x : Word) (s : State) : (s.withSum x).cur = s.cur := rfl

theorem ifAccepting_withSum (s : State) (x : Word) (k : Answer) :
    ifAccepting (s.withSum x) (onNext (State.withSum x) k) = onNext (State.withSum x) (ifAccepting s k) :=
  (apply_ite (onNext (State.withSum x)) (s.fault = .noFault) k (.next s)).symm

theorem withCount_withSum (n : BitVec 8) (s : State) (x : Word) (k : Nat → Answer) :
    withCount n (s.withSum x) (fun m => onNext (State.withSum x) (k m)) =
      onNext (State.withSum x) (withCount n s k) :=
  (apply_ite (onNext (State.withSum x)) (countLegal n) (k n.toNat) (fail .badCount (n.setWidth 32) s)).symm

theorem withEncoded_withSum (c : Codec) (v : List Word) (s : State) (x : Word) (k : List Byte → Answer) :
    withEncoded c v (s.withSum x) (fun bs => onNext (State.withSum x) (k bs)) =
      onNext (State.withSum x) (withEncoded c v s k) := by
  simp only [withEncoded, State.withSum_params, State.withSum_eb]
  cases encOf c s.params.catalog v with
  | error i => rfl
  | ok bs => dsimp only; rw [apply_ite (onNext (State.withSum x))]; rfl

theorem withDecoded_withSum (c : Codec) (n : Nat) (s : State) (x : Word) (k : Decoded → Answer) :
    withDecoded c n (s.withSum x) (fun d => onNext (State.withSum x) (k d)) =
      onNext (State.withSum x) (withDecoded c n s k) := by
  simp only [withDecoded, State.withSum_params, State.withSum_eb, State.withSum_cur]
  cases decOf c s.params.catalog s.eb s.cur.toNat n with
  | error a => rfl
  | ok d => dsimp only; rw [apply_ite (onNext (State.withSum x))]; rfl

theorem State.withSum_appendEncoded (x : Word) (s : State) (bs : List Byte) :
    (s.withSum x).appendEncoded bs = (s.appendEncoded bs).withSum x := rfl

theorem State.withSum_writeDecoded (x : Word) (s : State) (d : Decoded) :
    (s.withSum x).writeDecoded d = (s.writeDecoded d).withSum x := rfl

theorem blockEncode_withSum (c : Codec) (n : BitVec 8) (s : State) (x : Word) :
    blockEncode c n (s.withSum x) = onNext (State.withSum x) (blockEncode c n s) := by
  rw [blockEncode, blockEncode, ← ifAccepting_withSum, ← withCount_withSum]
  simp only [← withEncoded_withSum]
  rfl

theorem blockDecode_withSum (c : Codec) (n : BitVec 8) (s : State) (x : Word) :
    blockDecode c n (s.withSum x) = onNext (State.withSum x) (blockDecode c n s) := by
  rw [blockDecode, blockDecode, ← ifAccepting_withSum, ← withCount_withSum]
  simp only [← withDecoded_withSum]
  rfl

/-- Settles O36: both block commands of a codec commute with a write of `SUM`. -/
theorem sumIsAdvisory : Obligations.SumIsAdvisory := by
  intro c n s x
  simp only [exec_encodeCommand, exec_decodeCommandOf]
  exact ⟨blockEncode_withSum c n s x, blockDecode_withSum c n s x⟩

end Sys2Proof.Machine
end

section
/-! The decoders one item at a time: what a successful decode read first, where it leaves its cursor, and that it sees
only the bytes from its cursor on (R137). -/

namespace Sys2Proof.Machine

open Sys2Proof.Terms

/-! Bytes from a cursor on. -/

theorem Memory.le_length_of_read {m : Memory} {a k b : Nat} (h : m.read a k = some b) : a + k ≤ m.length := by
  rw [Memory.read] at h
  split at h
  · cases h
  · omega

/-- The bytes of `m₁` from `p₁` on are those of `m₂` from `p₂` on. -/
def Memory.SameFrom (m₁ : Memory) (p₁ : Nat) (m₂ : Memory) (p₂ : Nat) : Prop :=
  (m₁.map (·.2)).drop p₁ = (m₂.map (·.2)).drop p₂

theorem Memory.sameFrom_of_byteAt {m₁ m₂ : Memory} (h₁ : m₁.wf) (h₂ : m₂.wf) {p₁ p₂ : Nat}
    (h : ∀ k, m₁.byteAt (p₁ + k) = m₂.byteAt (p₂ + k)) : m₁.SameFrom p₁ m₂ p₂ :=
  List.ext_getElem? fun k => by
    rw [List.getElem?_drop, List.getElem?_drop, ← Memory.byteAt_eq h₁, ← Memory.byteAt_eq h₂, h]

theorem Memory.SameFrom.add {m₁ m₂ : Memory} {p₁ p₂ : Nat} (h : m₁.SameFrom p₁ m₂ p₂) (k : Nat) :
    m₁.SameFrom (p₁ + k) m₂ (p₂ + k) := by
  rw [Memory.SameFrom, ← List.drop_drop, ← List.drop_drop, h]

theorem Memory.SameFrom.read {m₁ m₂ : Memory} (h₁ : m₁.wf) (h₂ : m₂.wf) {p₁ p₂ : Nat} (h : m₁.SameFrom p₁ m₂ p₂)
    {k : Nat} (hk : 0 < k) : m₁.read p₁ k = m₂.read p₂ k := by
  have hlen := congrArg List.length h
  simp only [List.length_drop, List.length_map] at hlen
  have hshort : m₁.length < p₁ + k ↔ m₂.length < p₂ + k := by omega
  simp only [Memory.SameFrom] at h
  simp only [Memory.read_eq h₁, Memory.read_eq h₂, h, hshort]

/-! One item of a decode. -/

theorem s16DecFrom_zero (cat : Catalog) (eb : Memory) (fuel p : Nat) :
    s16DecFrom cat eb fuel p 0 = .ok ⟨[], p, []⟩ := by
  cases fuel <;> rfl

theorem s16DecFrom_succ_ok_iff {cat : Catalog} {eb : Memory} {fuel p left : Nat} {d : Decoded} :
    s16DecFrom cat eb (fuel + 1) p (left + 1) = .ok d ↔ ∃ b d', eb.read p 4 = some b ∧
      s16DecFrom cat eb fuel (p + 4)
        (left + 1 - ((unpackWord cat (BitVec.ofNat 32 b)).take (left + 1)).length) = .ok d' ∧
      d = ⟨(unpackWord cat (BitVec.ofNat 32 b)).take (left + 1) ++ d'.vals, d'.past,
        .word (BitVec.ofNat 32 b) :: d'.units⟩ := by
  constructor
  · intro h
    rw [s16DecFrom] at h
    split at h
    · cases h
    · dsimp only at h
      split at h
      · cases h
      · exact ⟨_, _, ‹_›, ‹_›, (Except.ok.inj h).symm⟩
  · rintro ⟨b, d', hread, hrest, rfl⟩
    simp only [s16DecFrom, hread, hrest]

theorem svbLanes_succ_ok_iff {eb : Memory} {c : Byte} {k q m : Nat} {r : List Word × Nat} :
    svbLanes eb c k q (m + 1) = .ok r ↔ ∃ x r', eb.read q (tagLength c k) = some x ∧
      svbLanes eb c (k + 1) (q + tagLength c k) m = .ok r' ∧ r = (BitVec.ofNat 32 x :: r'.1, r'.2) := by
  constructor
  · intro h
    rw [svbLanes] at h
    split at h
    · cases h
    · split at h
      · cases h
      · exact ⟨_, _, ‹_›, ‹_›, (Except.ok.inj h).symm⟩
  · rintro ⟨x, r', hread, hrest, rfl⟩
    simp only [svbLanes, hread, hrest]

theorem svbDecFrom_zero (eb : Memory) (fuel p : Nat) : svbDecFrom eb fuel p 0 = .ok ⟨[], p, []⟩ := by
  cases fuel <;> rfl

theorem svbDecFrom_succ_ok_iff {eb : Memory} {fuel p left : Nat} {d : Decoded} :
    svbDecFrom eb (fuel + 1) p (left + 1) = .ok d ↔ ∃ b r d', eb.read p 1 = some b ∧
      svbLanes eb (BitVec.ofNat 8 b) 0 (p + 1) (min 4 (left + 1)) = .ok r ∧
      svbDecFrom eb fuel r.2 (left + 1 - min 4 (left + 1)) = .ok d' ∧
      d = ⟨r.1 ++ d'.vals, d'.past, .tags (BitVec.ofNat 8 b) :: d'.units⟩ := by
  constructor
  · intro h
    rw [svbDecFrom] at h
    split at h
    · cases h
    · dsimp only at h
      split at h
      · cases h
      · split at h
        · cases h
        · exact ⟨_, _, _, ‹_›, ‹_›, ‹_›, (Except.ok.inj h).symm⟩
  · rintro ⟨b, r, d', hread, hlanes, hrest, rfl⟩
    simp only [svbDecFrom, hread, hlanes, hrest]

/-! Where a decode leaves its cursor: where it was when nothing is wanted, else further on and inside the buffer. -/

theorem s16DecFrom_past {cat : Catalog} {eb : Memory} : ∀ {fuel p left : Nat} {d : Decoded},
    s16DecFrom cat eb fuel p left = .ok d → left = 0 ∧ d.past = p ∨ p < d.past ∧ d.past ≤ eb.length
  | fuel, p, 0, d, h => by
    rw [s16DecFrom_zero] at h
    cases h
    exact .inl ⟨rfl, rfl⟩
  | 0, _, _ + 1, _, h => by simp [s16DecFrom] at h
  | fuel + 1, p, left + 1, d, h => by
    obtain ⟨b, d', hread, hrest, rfl⟩ := s16DecFrom_succ_ok_iff.1 h
    have hword := Memory.le_length_of_read hread
    have ih := s16DecFrom_past hrest
    dsimp only
    omega

theorem svbLanes_past {eb : Memory} {c : Byte} : ∀ {m k q : Nat} {r : List Word × Nat},
    svbLanes eb c k q m = .ok r → m = 0 ∧ r.2 = q ∨ q < r.2 ∧ r.2 ≤ eb.length
  | 0, k, q, r, h => by cases h; exact .inl ⟨rfl, rfl⟩
  | m + 1, k, q, r, h => by
    obtain ⟨x, r', hread, hrest, rfl⟩ := svbLanes_succ_ok_iff.1 h
    have hlane := Memory.le_length_of_read hread
    have htag : 0 < tagLength c k := Nat.succ_pos _
    have ih := svbLanes_past hrest
    dsimp only
    omega

theorem svbDecFrom_past {eb : Memory} : ∀ {fuel p left : Nat} {d : Decoded},
    svbDecFrom eb fuel p left = .ok d → left = 0 ∧ d.past = p ∨ p < d.past ∧ d.past ≤ eb.length
  | fuel, p, 0, d, h => by
    rw [svbDecFrom_zero] at h
    cases h
    exact .inl ⟨rfl, rfl⟩
  | 0, _, _ + 1, _, h => by simp [svbDecFrom] at h
  | fuel + 1, p, left + 1, d, h => by
    obtain ⟨b, r, d', hread, hlanes, hrest, rfl⟩ := svbDecFrom_succ_ok_iff.1 h
    have hgroup := svbLanes_past hlanes
    have ih := svbDecFrom_past hrest
    dsimp only
    omega

theorem decOf_past {c : Codec} {cat : Catalog} {eb : Memory} {p n : Nat} {d : Decoded} (hn : 0 < n)
    (h : decOf c cat eb p n = .ok d) : p < d.past ∧ d.past ≤ eb.length := by
  have hpast : n = 0 ∧ d.past = p ∨ p < d.past ∧ d.past ≤ eb.length := by
    cases c
    · exact s16DecFrom_past h
    · exact svbDecFrom_past h
  exact hpast.resolve_left fun hz => hn.ne' hz.1

/-! The same bytes at another index decode to the same values and as many bytes further on. -/

section
variable {m₁ m₂ : Memory} (h₁ : m₁.wf) (h₂ : m₂.wf)
include h₁ h₂

theorem s16DecFrom_relocate {cat : Catalog} : ∀ {fuel p₁ p₂ left : Nat} {d : Decoded}, m₁.SameFrom p₁ m₂ p₂ →
    s16DecFrom cat m₁ fuel p₁ left = .ok d →
      ∃ len, d.past = p₁ + len ∧ s16DecFrom cat m₂ fuel p₂ left = .ok { d with past := p₂ + len }
  | fuel, p₁, p₂, 0, d, _, h => by
    rw [s16DecFrom_zero] at h
    cases h
    exact ⟨0, rfl, s16DecFrom_zero ..⟩
  | 0, _, _, _ + 1, _, _, h => by simp [s16DecFrom] at h
  | fuel + 1, p₁, p₂, left + 1, d, hs, h => by
    obtain ⟨b, d', hread, hrest, rfl⟩ := s16DecFrom_succ_ok_iff.1 h
    rw [hs.read h₁ h₂ (by decide)] at hread
    obtain ⟨len, hpast, hrest₂⟩ := s16DecFrom_relocate (hs.add 4) hrest
    rw [Nat.add_assoc] at hpast hrest₂
    exact ⟨4 + len, hpast, s16DecFrom_succ_ok_iff.2 ⟨b, _, hread, hrest₂, rfl⟩⟩

theorem svbLanes_relocate {c : Byte} : ∀ {m k q₁ q₂ : Nat} {r : List Word × Nat}, m₁.SameFrom q₁ m₂ q₂ →
    svbLanes m₁ c k q₁ m = .ok r → ∃ len, r.2 = q₁ + len ∧ svbLanes m₂ c k q₂ m = .ok (r.1, q₂ + len)
  | 0, k, q₁, q₂, r, _, h => by
    cases h
    exact ⟨0, rfl, rfl⟩
  | m + 1, k, q₁, q₂, r, hs, h => by
    obtain ⟨x, r', hread, hrest, rfl⟩ := svbLanes_succ_ok_iff.1 h
    rw [hs.read h₁ h₂ (k := tagLength c k) (Nat.succ_pos _)] at hread
    obtain ⟨len, hpast, hrest₂⟩ := svbLanes_relocate (hs.add (tagLength c k)) hrest
    rw [Nat.add_assoc] at hpast hrest₂
    exact ⟨tagLength c k + len, hpast, svbLanes_succ_ok_iff.2 ⟨x, _, hread, hrest₂, rfl⟩⟩

theorem svbDecFrom_relocate : ∀ {fuel p₁ p₂ left : Nat} {d : Decoded}, m₁.SameFrom p₁ m₂ p₂ →
    svbDecFrom m₁ fuel p₁ left = .ok d →
      ∃ len, d.past = p₁ + len ∧ svbDecFrom m₂ fuel p₂ left = .ok { d with past := p₂ + len }
  | fuel, p₁, p₂, 0, d, _, h => by
    rw [svbDecFrom_zero] at h
    cases h
    exact ⟨0, rfl, svbDecFrom_zero ..⟩
  | 0, _, _, _ + 1, _, _, h => by simp [svbDecFrom] at h
  | fuel + 1, p₁, p₂, left + 1, d, hs, h => by
    obtain ⟨b, r, d', hread, hlanes, hrest, rfl⟩ := svbDecFrom_succ_ok_iff.1 h
    rw [hs.read h₁ h₂ (by decide)] at hread
    obtain ⟨g, hr, hlanes₂⟩ := svbLanes_relocate h₁ h₂ (hs.add 1) hlanes
    rw [Nat.add_assoc] at hr hlanes₂
    rw [hr] at hrest
    obtain ⟨len, hpast, hrest₂⟩ := svbDecFrom_relocate (hs.add (1 + g)) hrest
    rw [Nat.add_assoc] at hpast hrest₂
    exact ⟨1 + g + len, hpast, svbDecFrom_succ_ok_iff.2 ⟨b, _, _, hread, hlanes₂, hrest₂, rfl⟩⟩

theorem decOf_relocate {c : Codec} {cat : Catalog} {p₁ p₂ n : Nat} {d : Decoded} (hs : m₁.SameFrom p₁ m₂ p₂)
    (h : decOf c cat m₁ p₁ n = .ok d) :
    ∃ len, d.past = p₁ + len ∧ decOf c cat m₂ p₂ n = .ok { d with past := p₂ + len } := by
  cases c
  · exact s16DecFrom_relocate h₁ h₂ hs h
  · exact svbDecFrom_relocate h₁ h₂ hs h

end

/-- A completed block decode in full (R135): the values stand in the first `n` slots and `CUR`, a 32-bit register, holds
the exact index past the bytes. -/
theorem blockDecode_result {c : Codec} {n : BitVec 8} {s t : State} (hinv : s.Inv) (hf : s.fault = .noFault)
    (h : blockDecode c n s = .next t) (ht : t.fault = .noFault) :
    ∃ d, decOf c s.params.catalog s.eb s.cur.toNat n.toNat = .ok d ∧
      firstSlots t.outBuf n.toNat = d.vals ∧ t.cur.toNat = d.past := by
  obtain ⟨⟨hn1, hn2⟩, d, hd, rfl⟩ := blockDecode_completes hf h ht
  have hlen := decOf_vals_length hd
  have hpast := (decOf_past hn1 hd).2
  have hfits := hinv.ebFits
  have hcap := hinv.params.1.2
  refine ⟨d, hd, ?_, ?_⟩
  · rw [State.writeDecoded_outBuf, ← hlen, firstSlots_overwrite (hlen.trans_le hn2)]
  · rw [State.writeDecoded_cur, BitVec.toNat_ofNat, Nat.mod_eq_of_lt (by omega)]

/-- Settles O37: the bytes of a completed encode are `Enc` of the values alone, and a completed decode is `Dec` of the
bytes from `CUR` on, wherever they stand. -/
theorem codecsAreFunctions : Obligations.CodecsAreFunctions := by
  intro c n s1 s2 t1 t2 hinv1 hinv2 hf1 hf2 hcat ht1 ht2
  simp only [exec_encodeCommand, exec_decodeCommandOf]
  constructor
  · intro hv h1 h2
    obtain ⟨-, bs1, henc1, -, rfl⟩ := blockEncode_completes hf1 h1 ht1
    obtain ⟨-, bs2, henc2, -, rfl⟩ := blockEncode_completes hf2 h2 ht2
    rw [hcat, hv, henc2] at henc1
    obtain rfl := Except.ok.inj henc1
    exact ⟨bs2, appended_append hinv1.ebWf bs2, appended_append hinv2.ebWf bs2⟩
  · intro hbytes h1 h2
    obtain ⟨d1, hd1, hv1, hc1⟩ := blockDecode_result hinv1 hf1 h1 ht1
    obtain ⟨d2, hd2, hv2, hc2⟩ := blockDecode_result hinv2 hf2 h2 ht2
    have hsame := Memory.sameFrom_of_byteAt hinv1.ebWf hinv2.ebWf hbytes
    obtain ⟨len, hpast, hd1'⟩ := decOf_relocate hinv1.ebWf hinv2.ebWf hsame hd1
    rw [hcat, hd2] at hd1'
    obtain rfl := Except.ok.inj hd1'
    rw [hv1, hv2, hc1, hc2, hpast, Nat.add_sub_cancel_left, Nat.add_sub_cancel_left]
    exact ⟨rfl, rfl⟩

end Sys2Proof.Machine
end

section
/-! The greedy encoder against the rules: its selector is the least feasible one (R153), the words it packs are those of
`S16Words` (R151, R152), and it fails at the first value no selector holds (R154). -/

namespace Sys2Proof.Machine

open Sys2Proof.Terms

/-! The selector. -/

theorem selectLayout_le_of_feasible {cat : Catalog} {v : List Word} {s t : Fin 16} (h : selectLayout cat v = some s)
    (ht : feasible cat v t = true) : s ≤ t := by
  by_contra hlt
  simp [(selectLayout_eq_some.1 h).2 t (not_le.1 hlt)] at ht

theorem cnt_antitone {cat : Catalog} (h : cat.wf) {s t : Fin 16} (hst : s ≤ t) :
    (cat.layout t).cnt ≤ (cat.layout s).cnt := by
  obtain ⟨-, -, hmono, -⟩ := h
  rcases hst.eq_or_lt with rfl | hlt
  · exact Nat.le_refl _
  · exact (hmono s t hlt).1

/-- Settles O21: the selector chosen is the least feasible one, and in a lawful catalogue a lesser selector takes no
fewer values. -/
theorem selectorTakesMost : Obligations.SelectorTakesMost := by
  intro cat v s hcat hs
  refine ⟨(selectLayout_eq_some.1 hs).1, fun t ht => ?_⟩
  have hst := selectLayout_le_of_feasible hs ht
  exact ⟨min_le_min_right _ (cnt_antitone hcat hst), fun _ => hst⟩

theorem feasible_eq_false_iff {cat : Catalog} {v : List Word} {s : Fin 16} :
    feasible cat v s = false ↔ ∃ x ∈ v.take (cat.layout s).cnt, 2 ^ (cat.layout s).wid ≤ x.toNat := by
  rw [← Bool.not_eq_true, feasible_iff]
  push Not
  rfl

/-! One word of an encode. -/

theorem s16Words_cons_ok_iff {cat : Catalog} {fuel i : Nat} {x : Word} {xs ws : List Word} :
    s16Words cat (fuel + 1) i (x :: xs) = .ok ws ↔ ∃ s ws', selectLayout cat (x :: xs) = some s ∧
      s16Words cat fuel (i + ((x :: xs).take (cat.layout s).cnt).length)
        ((x :: xs).drop (cat.layout s).cnt) = .ok ws' ∧
      ws = packWord cat s ((x :: xs).take (cat.layout s).cnt) :: ws' := by
  constructor
  · intro h
    rw [s16Words] at h
    split at h
    · cases h
    · dsimp only at h
      split at h
      · cases h
      · exact ⟨_, _, ‹_›, ‹_›, (Except.ok.inj h).symm⟩
  · rintro ⟨s, ws', hs, hrest, rfl⟩
    simp only [s16Words, hs, hrest]

/-- The statement's exact sum over lanes is the model's. -/
theorem laneTotal_eq_laneSum (width : Nat) (taken : List Word) : laneTotal width taken = laneSum width 0 taken := by
  have key : ∀ (xs : List Word) (j : Nat),
      ((xs.zipIdx j).map fun x => x.1.toNat * 2 ^ (28 - (x.2 + 1) * width)).sum = laneSum width j xs := by
    intro xs
    induction xs with
    | nil => intro j; rfl
    | cons x xs ih => intro j; rw [List.zipIdx_cons, List.map_cons, List.sum_cons, ih, laneSum]
  exact key taken 0

theorem packWord_toNat_of_feasible {cat : Catalog} (h : cat.wf) {v : List Word} {s : Fin 16}
    (hs : feasible cat v s = true) : (packWord cat s (v.take (cat.layout s).cnt)).toNat =
      s.1 * 2 ^ 28 + laneTotal (cat.layout s).wid (v.take (cat.layout s).cnt) := by
  rw [laneTotal_eq_laneSum, packWord_toNat h s _ (List.length_take_le _ _) (feasible_iff.1 hs)]

/-! Whole blocks: the words of an encode are the greedy words, and conversely. -/

theorem greedyWords_of_s16Words {cat : Catalog} (h : cat.wf) : ∀ {fuel i : Nat} {v ws : List Word},
    s16Words cat fuel i v = .ok ws → S16Words cat v ws
  | _, _, [], ws, henc => by
    simp only [s16Words, Except.ok.injEq] at henc
    exact henc ▸ .done
  | 0, _, _ :: _, _, henc => by simp [s16Words] at henc
  | fuel + 1, i, x :: xs, ws, henc => by
    obtain ⟨s, ws', hs, hrest, rfl⟩ := s16Words_cons_ok_iff.1 henc
    obtain ⟨hfits, hleast⟩ := selectLayout_eq_some.1 hs
    exact .word _ _ s _ (List.cons_ne_nil x xs) (feasible_iff.1 hfits)
      (fun t ht => feasible_eq_false_iff.1 (hleast t ht)) (packWord_toNat_of_feasible h hfits)
      (greedyWords_of_s16Words h hrest)

theorem s16Words_of_greedyWords {cat : Catalog} (h : cat.wf) {v ws : List Word} (hws : S16Words cat v ws) :
    ∀ {fuel : Nat} (i : Nat), v.length ≤ fuel → s16Words cat fuel i v = .ok ws := by
  induction hws with
  | done => intro fuel i _; simp [s16Words]
  | word v ws s w hne hfits hleast hword _ ih =>
    intro fuel i hfuel
    obtain ⟨x, xs, rfl⟩ := List.exists_cons_of_ne_nil hne
    obtain ⟨fuel, rfl⟩ : ∃ k, fuel = k + 1 := ⟨fuel - 1, by simp only [List.length_cons] at hfuel; omega⟩
    have hfeas := feasible_iff.2 hfits
    have hsel := selectLayout_eq_some.2 ⟨hfeas, fun t ht => feasible_eq_false_iff.2 (hleast t ht)⟩
    have hcnt := (h.1 s).1
    refine s16Words_cons_ok_iff.2 ⟨s, ws, hsel, ih _ ?_, ?_⟩
    · simp only [List.length_drop, List.length_cons] at *
      omega
    · rw [BitVec.eq_of_toNat_eq (hword.trans (packWord_toNat_of_feasible h hfeas).symm)]

/-- Every word takes at least one value (R155). -/
theorem greedyWords_length_le {cat : Catalog} (h : cat.wf) {v ws : List Word} (hws : S16Words cat v ws) :
    ws.length ≤ v.length := by
  induction hws with
  | done => exact Nat.le_refl _
  | word v ws s w hne _ _ _ _ ih =>
    have hcnt := (h.1 s).1
    have hpos := List.length_pos_iff.2 hne
    simp only [List.length_drop, List.length_cons] at *
    omega

/-- A chosen selector takes only values below `2^S16_WMAX`, so it stops before one that is not. -/
theorem cnt_le_of_selectLayout {cat : Catalog} (h : cat.wf) {v : List Word} {s : Fin 16}
    (hs : selectLayout cat v = some s) {k : Nat} (hk : k < v.length) (hbad : 2 ^ wmax cat ≤ v[k].toNat) :
    (cat.layout s).cnt ≤ k := by
  by_contra hlt
  have hmem : v[k] ∈ v.take (cat.layout s).cnt := List.mem_take_iff_getElem.2 ⟨k, by omega, rfl⟩
  have hfit := feasible_iff.1 (selectLayout_eq_some.1 hs).1 _ hmem
  have hwid : 2 ^ (cat.layout s).wid ≤ 2 ^ wmax cat := Nat.pow_le_pow_right (by decide) (wid_le_wmax h s)
  omega

/-- An encode fails at the position of the first value not below `2^S16_WMAX` (R154). -/
theorem s16Words_error {cat : Catalog} (h : cat.wf) : ∀ {fuel i k : Nat} {v : List Word} (hk : k < v.length),
    v.length ≤ fuel → 2 ^ wmax cat ≤ v[k].toNat → (∀ (j : Nat) (hj : j < k), v[j].toNat < 2 ^ wmax cat) →
      s16Words cat fuel i v = .error (i + k)
  | 0, _, _, v, hk, hfuel, _, _ => by omega
  | fuel + 1, i, k, x :: xs, hk, hfuel, hbad, hgood => by
    cases hs : selectLayout cat (x :: xs) with
    | none =>
      have hx : ¬ x.toNat < 2 ^ wmax cat := by
        rw [← selectLayout_isSome h x xs]
        simp [hs]
      cases k with
      | zero => simp only [s16Words, hs, Nat.add_zero]
      | succ k => exact absurd (hgood 0 (Nat.succ_pos k)) hx
    | some s =>
      have hcnt := (h.1 s).1
      have hle := cnt_le_of_selectLayout h hs hk hbad
      have hrest := s16Words_error h (fuel := fuel) (i := i + (cat.layout s).cnt) (k := k - (cat.layout s).cnt)
        (v := (x :: xs).drop (cat.layout s).cnt)
        (by simp only [List.length_drop]; omega)
        (by simp only [List.length_drop, List.length_cons] at *; omega)
        (by simpa only [List.getElem_drop, Nat.add_sub_of_le hle] using hbad)
        (fun j hj => by
          rw [List.getElem_drop]
          exact hgood _ (by omega))
      have htaken : ((x :: xs).take (cat.layout s).cnt).length = (cat.layout s).cnt :=
        List.length_take_of_le (by omega)
      have hpos : i + (cat.layout s).cnt + (k - (cat.layout s).cnt) = i + k := by omega
      simp only [s16Words, hs, htaken, hrest, hpos]

/-! The bytes of an encode. -/

theorem leBytes_word (w : Word) : leBytes 4 w.toNat =
    [w.extractLsb' 0 8, w.extractLsb' 8 8, w.extractLsb' 16 8, w.extractLsb' 24 8] := by
  simp only [leBytes, Nat.div_div_eq_div_mul, List.cons.injEq, and_true]
  refine ⟨?_, ?_, ?_, ?_⟩ <;>
    exact BitVec.eq_of_toNat_eq (by simp [BitVec.extractLsb'_toNat, Nat.shiftRight_eq_div_pow])

theorem wordBytes_eq (ws : List Word) : wordBytes ws = ws.flatMap fun w => leBytes 4 w.toNat := by
  simp only [wordBytes, leBytes_word]

theorem wordBytes_length (ws : List Word) : (wordBytes ws).length = 4 * ws.length := by
  simp [wordBytes, List.length_flatMap, Nat.mul_comm]

theorem encOf_simple16_of_greedyWords {cat : Catalog} (h : cat.wf) {v ws : List Word} (hws : S16Words cat v ws) :
    encOf .simple16 cat v = .ok (wordBytes ws) := by
  rw [encOf, s16Enc, s16Words_of_greedyWords h hws 0 (Nat.le_refl _), wordBytes_eq]
  rfl

theorem encOf_simple16_error {cat : Catalog} (h : cat.wf) {v : List Word} {k : Nat} (hk : k < v.length)
    (hbad : 2 ^ wmax cat ≤ v[k].toNat) (hgood : ∀ (j : Nat) (hj : j < k), v[j].toNat < 2 ^ wmax cat) :
    encOf .simple16 cat v = .error k := by
  rw [encOf, s16Enc, s16Words_error h hk (Nat.le_refl _) hbad hgood, Nat.zero_add]
  rfl

/-! A block encode by what its codec's `Enc` answers (R133). -/

section
variable {c : Codec} {n : BitVec 8} {s : State} (hf : s.fault = .noFault) (hn : countLegal n)
include hf hn

theorem blockEncode_eq_withEncoded : blockEncode c n s =
    withEncoded c (firstSlots s.inBuf n.toNat) s fun bs => .next (s.appendEncoded bs) := by
  rw [blockEncode, ifAccepting_ready hf, withCount_legal hn]
  rfl

theorem blockEncode_of_fits {bs : List Byte} (henc : encOf c s.params.catalog (firstSlots s.inBuf n.toNat) = .ok bs)
    (hfit : s.eb.length + bs.length ≤ s.params.ebCap) : blockEncode c n s = .next (s.appendEncoded bs) := by
  rw [blockEncode_eq_withEncoded hf hn, withEncoded, henc]
  exact if_neg (Nat.not_lt.2 hfit)

theorem blockEncode_of_overflow {bs : List Byte}
    (henc : encOf c s.params.catalog (firstSlots s.inBuf n.toNat) = .ok bs)
    (hover : s.params.ebCap < s.eb.length + bs.length) : blockEncode c n s = fail .encodeOverflow s.ebLen s := by
  rw [blockEncode_eq_withEncoded hf hn, withEncoded, henc]
  exact if_pos hover

theorem blockEncode_of_error {i : Nat} (henc : encOf c s.params.catalog (firstSlots s.inBuf n.toNat) = .error i) :
    blockEncode c n s = fail .representationOverflow (BitVec.ofNat 32 i) s := by
  rw [blockEncode_eq_withEncoded hf hn, withEncoded, henc]

end

theorem firstSlots_getElem {n i : Nat} (b : Vector Word 128) (h : i < (firstSlots b n).length) (hi : i < 128) :
    (firstSlots b n)[i] = b[i] := by
  simp [firstSlots]

/-- Settles O23: `Enc` answers the bytes of the greedy words, or the first position that cannot be represented, and the
command commits, or raises, by what `Enc` answers. -/
theorem s16EncodeResult : Obligations.S16EncodeResult := by
  intro s n hinv hf hn
  have hcat : s.params.catalog.wf := hinv.params.2.2.2
  have hlen := firstSlots_length hn.2 s.inBuf
  have hexec : exec (.s16Enc n) s = blockEncode .simple16 n s := exec_encodeCommand .simple16 n s
  refine ⟨fun hx => ?_, fun ws hws => ⟨fun hfit => ?_, fun hover => ?_⟩, fun i hi hin hbad hgood => ?_⟩
  · obtain ⟨ws, hws⟩ := s16Words_ok hcat _ 0 _ (Nat.le_refl _) (hx rfl)
    have hwords := greedyWords_of_s16Words hcat hws
    exact ⟨ws, hwords, (greedyWords_length_le hcat hwords).trans_eq hlen⟩
  · rw [← wordBytes_length] at hfit
    rw [hexec, blockEncode_of_fits hf hn (encOf_simple16_of_greedyWords hcat hws) hfit]
    exact ⟨_, _, rfl, appended_append hinv.ebWf _⟩
  · rw [← wordBytes_length] at hover
    rw [hexec, blockEncode_of_overflow hf hn (encOf_simple16_of_greedyWords hcat hws) hover]
    rfl
  · have herr : encOf .simple16 s.params.catalog (firstSlots s.inBuf n.toNat) = .error i := by
      refine encOf_simple16_error hcat (hin.trans_eq hlen.symm) ?_ fun j hj => ?_
      · rw [firstSlots_getElem _ _ hi]
        exact hbad
      · rw [firstSlots_getElem _ _ (hj.trans hi)]
        exact hgood j hj
    rw [hexec, blockEncode_of_error hf hn herr]
    rfl

end Sys2Proof.Machine
end

section
/-! The StreamVByte encoder against the rules: byte lengths are the least ones (R181), and the bytes of an encode are
the groups of `svbBytes`, laid end to end (R110 to R114, R182). -/

namespace Sys2Proof

/-- Byte `i` of a little-endian number (R12). -/
theorem leBytes_eq_map_range (k v : Nat) :
    leBytes k v = (List.range k).map fun i => BitVec.ofNat 8 (v / 256 ^ i) := by
  induction k generalizing v with
  | zero => rfl
  | succ k ih =>
    rw [leBytes, ih, List.range_succ_eq_map, List.map_cons, List.map_map, pow_zero, Nat.div_one]
    simp only [Function.comp_def, Nat.div_div_eq_div_mul, Nat.succ_eq_add_one, pow_succ']

end Sys2Proof

namespace Sys2Proof.Machine

open Sys2Proof.Terms

/-! Byte lengths. -/

theorem bytelen_le_of_lt {x : Word} {k : Nat} (hk : 1 ≤ k) (hx : x.toNat < 256 ^ k) : bytelen x ≤ k := by
  have hle := (bytelen_bounds x).2
  by_contra! hlt
  obtain rfl | rfl | rfl : k = 1 ∨ k = 2 ∨ k = 3 := by omega
  all_goals
    unfold bytelen at hlt
    split_ifs at hlt <;> omega

/-- Settles O28: the bounds and the fit are laws of `bytelen`, and a shorter length holds only smaller values. -/
theorem byteLengthIsMinimal : Obligations.ByteLengthIsMinimal := by
  intro x
  obtain ⟨hpos, hle⟩ := bytelen_bounds x
  exact ⟨hpos, hle, lt_of_bytelen x, fun k => bytelen_le_of_lt⟩

/-! The control byte. -/

/-- Tags from lane `k` on are worth a multiple of `4^k`: they leave the lanes below free. -/
theorem pow_dvd_tagSum (vs : List Word) (k : Nat) :
    4 ^ k ∣ ((vs.zipIdx k).map fun x => (bytelen x.1 - 1) * 4 ^ x.2).sum := by
  refine List.dvd_sum fun a ha => ?_
  obtain ⟨x, hx, rfl⟩ := List.mem_map.1 ha
  exact Dvd.dvd.mul_left (Nat.pow_dvd_pow 4 (List.le_snd_of_mem_zipIdx hx)) _

/-- The tags or-ed together by the packer are the exact sum of R111. -/
theorem packTags_eq_sum (vs : List Word) (k : Nat) :
    packTags k vs = BitVec.ofNat 8 ((vs.zipIdx k).map fun x => (bytelen x.1 - 1) * 4 ^ x.2).sum := by
  induction vs generalizing k with
  | nil => rfl
  | cons x xs ih =>
    obtain ⟨m, hm⟩ := pow_dvd_tagSum xs (k + 1)
    have hpow : 4 ^ (k + 1) = 2 ^ (2 * k + 2) := (pow_mul 2 2 (k + 1)).symm
    have hlane : (bytelen x - 1) * 4 ^ k < 2 ^ (2 * k + 2) := by
      have hb := (bytelen_bounds x).2
      rw [← hpow, pow_succ']
      exact Nat.mul_lt_mul_of_pos_right (by omega) (by positivity)
    have hshift : BitVec.ofNat 8 (bytelen x - 1) <<< (2 * k) = BitVec.ofNat 8 ((bytelen x - 1) * 4 ^ k) :=
      BitVec.eq_of_toNat_eq (by simp [Nat.shiftLeft_eq, pow_mul])
    rw [packTags, ih, hshift, List.zipIdx_cons, List.map_cons, List.sum_cons, hm, hpow,
      ← BitVec.ofNat_or, Nat.or_comm, ← Nat.two_pow_add_eq_or_of_lt hlane, Nat.add_comm]

/-! Groups and blocks. -/

theorem svbGroupBytes_eq_svbGroup (v : List Word) (g : Nat) :
    svbGroupBytes v g = svbGroup ((v.drop (4 * g)).take 4) := by
  simp only [svbGroupBytes, svbGroup, groupData, packTags_eq_sum, leBytes_eq_map_range]

theorem svbGroupBytes_succ (v : List Word) (g : Nat) : svbGroupBytes v (g + 1) = svbGroupBytes (v.drop 4) g := by
  rw [svbGroupBytes, svbGroupBytes, List.drop_drop, Nat.mul_succ, Nat.add_comm]

/-- The groups end to end are the first group, then the groups of the rest (R110). -/
theorem svbBytes_eq_group {v : List Word} (h : v ≠ []) : svbBytes v = svbGroup (v.take 4) ++ svbBytes (v.drop 4) := by
  have hpos := List.length_pos_iff.2 h
  have hgroups : (v.length + 3) / 4 = ((v.drop 4).length + 3) / 4 + 1 := by
    rw [List.length_drop]
    omega
  rw [svbBytes, hgroups, List.range_succ_eq_map, List.flatMap_cons, List.flatMap_map, svbGroupBytes_eq_svbGroup]
  simp only [Nat.succ_eq_add_one, svbGroupBytes_succ]
  rfl

theorem svbBytes_eq_svbEnc (v : List Word) : svbBytes v = svbEnc v := by
  rcases eq_or_ne v [] with rfl | hv
  · rfl
  · have hshorter : (v.drop 4).length < v.length := by
      have hpos := List.length_pos_iff.2 hv
      rw [List.length_drop]
      omega
    rw [svbBytes_eq_group hv, svbEnc_eq_group hv, svbBytes_eq_svbEnc (v.drop 4)]
termination_by v.length

theorem encOf_streamVByte (cat : Catalog) (v : List Word) : encOf .streamVByte cat v = .ok (svbBytes v) := by
  rw [encOf, svbBytes_eq_svbEnc]

/-- Settles O29: `Enc` always answers the groups' bytes, so the command commits them or raises `EncodeOverflow`. -/
theorem svbEncodeResult : Obligations.SvbEncodeResult := by
  intro s n hinv hf hn
  have hexec : exec (.svbEnc n) s = blockEncode .streamVByte n s := exec_encodeCommand .streamVByte n s
  have henc := encOf_streamVByte s.params.catalog (firstSlots s.inBuf n.toNat)
  refine ⟨fun hfit => ?_, fun hover => ?_⟩
  · rw [hexec, blockEncode_of_fits hf hn henc hfit]
    exact ⟨_, _, rfl, appended_append hinv.ebWf _⟩
  · rw [hexec, blockEncode_of_overflow hf hn henc hover]
    rfl

/-- A block encode that fits, decoded from where it began, gives its values back and ends where it ended (R138). -/
theorem blockDecode_appendEncoded {c : Codec} {n : BitVec 8} {s : State} {bs : List Byte} (hinv : s.Inv)
    (hf : s.fault = .noFault) (hn : countLegal n)
    (henc : encOf c s.params.catalog (firstSlots s.inBuf n.toNat) = .ok bs)
    (hfit : s.eb.length + bs.length ≤ s.params.ebCap) :
    ∃ u, blockDecode c n { s.appendEncoded bs with cur := s.ebLen } = .next u ∧ u.fault = .noFault ∧
      SlotsWritten s.outBuf u.outBuf (firstSlots s.inBuf n.toNat) ∧ u.cur.toNat = s.eb.length + bs.length := by
  have hexec := (exec_encodeCommand c n s).trans (blockEncode_of_fits hf hn henc hfit)
  have hcur : s.ebLen.toNat = s.eb.length := by
    have hcap := hinv.params.1.2
    rw [State.ebLen, BitVec.toNat_ofNat, Nat.mod_eq_of_lt (by omega)]
  rw [← exec_decodeCommandOf, ← Memory.append_length]
  exact blockRoundTrip c n s _ _ hinv hf hn hexec hf hf rfl (Memory.append_wf hinv.ebWf bs) (List.prefix_refl _) hcur

/-! The source's tag property. -/

/-- The source's block is one group whose control byte is `90` (R187). -/
theorem svbBytes_source :
    svbBytes [0, 255, 256, 65536] = [0x90, 0x00, 0xFF, 0x00, 0x01, 0x00, 0x00, 0x01] := by
  decide

theorem firstSlots_four (b : Vector Word 128) : firstSlots b 4 = [b[0], b[1], b[2], b[3]] := by
  refine List.ext_getElem (firstSlots_length (by decide) b) fun i hi _ => ?_
  rw [firstSlots_length (by decide)] at hi
  rw [firstSlots_getElem _ _ (by omega)]
  interval_cases i <;> rfl

/-- Settles O32: the four values encode to the source's eight bytes, and these decode to the values again. -/
theorem svbTagExample : Obligations.SvbTagExample := by
  intro s hinv hf hfit h0 h1 h2 h3
  have hn : countLegal 4 := by decide
  have hvals : firstSlots s.inBuf 4 = [0, 255, 256, 65536] := by rw [firstSlots_four, h0, h1, h2, h3]
  have henc := encOf_streamVByte s.params.catalog (firstSlots s.inBuf 4)
  rw [hvals, svbBytes_source, ← hvals] at henc
  have happ := appended_append hinv.ebWf [0x90, 0x00, 0xFF, 0x00, 0x01, 0x00, 0x00, 0x01]
  have hcontrol := happ.2 s.eb.length
  rw [if_neg (Nat.lt_irrefl _), Nat.sub_self] at hcontrol
  obtain ⟨u, hdec, huf, hout, -⟩ := blockDecode_appendEncoded hinv hf hn henc hfit
  rw [show (4 : BitVec 8).toNat = 4 from rfl, hvals] at hout
  exact ⟨_, u, 0x90, blockEncode_of_fits hf hn henc hfit, hcontrol, by decide, happ, hdec, huf,
    hout 0 (by decide), hout 1 (by decide), hout 2 (by decide), hout 3 (by decide)⟩

end Sys2Proof.Machine
end

section
/-! The encode step of the driver (R206): the two checks both steps begin with, then the list's, then its codec's `Enc`
of the chunk and one commit. -/

namespace Sys2Proof.Machine

open Sys2Proof.Terms

/-! A driver step's two checks (R275). -/

theorem codecOf_codecNumber (c : Codec) : codecOf (codecNumber c) = some c := by
  cases c <;> rfl

theorem codecOf_eq_none {r : Word} (h0 : r ≠ 0) (h1 : r ≠ 1) : codecOf r = none := by
  rw [codecOf, if_neg h0, if_neg h1]

theorem withStep_done {s : State} (hrem : s.rem = 0) (k : Codec → Answer) : withStep s k = fail .seqDone 0 s :=
  if_pos hrem

theorem withStep_badCodec {s : State} (hrem : s.rem ≠ 0) (h0 : s.codec ≠ 0) (h1 : s.codec ≠ 1) (k : Codec → Answer) :
    withStep s k = fail .badCodec s.codec s := by
  rw [withStep, if_neg hrem, codecOf_eq_none h0 h1]

theorem withStep_codec {s : State} {c : Codec} (hrem : s.rem ≠ 0) (hc : s.codec = codecNumber c)
    (k : Codec → Answer) : withStep s k = k c := by
  rw [withStep, if_neg hrem, hc, codecOf_codecNumber]

/-! `Enc` of either codec against the rules' relation. -/

theorem encOf_of_encodesTo {c : Codec} {cat : Catalog} (h : cat.wf) {v : List Word} {bs : List Byte}
    (henc : EncodesTo c cat v bs) : encOf c cat v = .ok bs := by
  cases c with
  | simple16 =>
    obtain ⟨ws, hws, rfl⟩ := henc
    exact encOf_simple16_of_greedyWords h hws
  | streamVByte =>
    rw [show bs = svbBytes v from henc]
    exact encOf_streamVByte cat v

theorem exists_encodesTo {c : Codec} {cat : Catalog} (h : cat.wf) {v : List Word} (hv : Encodable c cat v) :
    ∃ bs, EncodesTo c cat v bs := by
  cases c with
  | simple16 =>
    obtain ⟨ws, hws⟩ := s16Words_ok h _ 0 v (Nat.le_refl _) (hv rfl)
    exact ⟨wordBytes ws, ws, greedyWords_of_s16Words h hws, rfl⟩
  | streamVByte => exact ⟨svbBytes v, rfl⟩

/-! Running an encoder, by what its `Enc` answers. -/

section
variable {c : Codec} {v : List Word} {s : State} {bs : List Byte}

theorem withEncoded_of_error {i : Nat} (henc : encOf c s.params.catalog v = .error i) (k : List Byte → Answer) :
    withEncoded c v s k = fail .representationOverflow (BitVec.ofNat 32 i) s := by
  rw [withEncoded, henc]

theorem withEncoded_of_overflow (henc : encOf c s.params.catalog v = .ok bs)
    (hover : s.params.ebCap < s.eb.length + bs.length) (k : List Byte → Answer) :
    withEncoded c v s k = fail .encodeOverflow s.ebLen s := by
  rw [withEncoded, henc]
  exact if_pos hover

theorem withEncoded_of_fits (henc : encOf c s.params.catalog v = .ok bs)
    (hfit : s.eb.length + bs.length ≤ s.params.ebCap) (k : List Byte → Answer) : withEncoded c v s k = k bs := by
  rw [withEncoded, henc]
  exact if_neg (Nat.not_lt.2 hfit)

end

/-! The chunk. -/

theorem State.stepSize_le_rem (s : State) : s.stepSize ≤ s.rem.toNat := Nat.min_le_right _ _

theorem State.chunk_length {s : State} {n : Nat} (h : s.lrp.toNat + n ≤ s.lin.length) : (s.chunk n).length = n := by
  rw [State.chunk, List.length_take_of_le]
  rw [List.length_drop]
  omega

theorem foldl_add_eq_total (v : List Word) (a : Word) : v.foldl (· + ·) a = a + BitVec.ofNat 32 (total v) := by
  induction v generalizing a with
  | nil => simp [total]
  | cons x xs ih =>
    have htotal : total (x :: xs) = x.toNat + total xs := List.sum_cons
    rw [List.foldl_cons, ih, htotal, BitVec.ofNat_add, BitVec.ofNat_toNat, BitVec.setWidth_eq, BitVec.add_assoc]

/-- `SUM` is the exact sum of the chunk, wrapped (R143). -/
theorem sumOf_eq_total (v : List Word) : sumOf v = BitVec.ofNat 32 (total v) := by
  exact (foldl_add_eq_total v 0).trans (BitVec.zero_add _)

/-- The commit of an encode step with its registers as numbers: the step takes no more than `REM`. -/
theorem State.commitEncodeStep_eq (s : State) (bs : List Byte) : s.commitEncodeStep bs = { s with
    inBuf := overwrite s.inBuf (s.chunk s.stepSize)
    sum := BitVec.ofNat 32 (total (s.chunk s.stepSize))
    eb := s.eb.append bs
    lrp := BitVec.ofNat 32 (s.lrp.toNat + s.stepSize)
    rem := BitVec.ofNat 32 (s.rem.toNat - s.stepSize)
    scratch := { s.scratch with stg := overwrite s.scratch.stg bs } } := by
  have hle := s.stepSize_le_rem
  have hrem := s.rem.isLt
  have hlrp : s.lrp + BitVec.ofNat 32 s.stepSize = BitVec.ofNat 32 (s.lrp.toNat + s.stepSize) := by
    rw [BitVec.ofNat_add, BitVec.ofNat_toNat, BitVec.setWidth_eq]
  have hsub : s.rem - BitVec.ofNat 32 s.stepSize = BitVec.ofNat 32 (s.rem.toNat - s.stepSize) := by
    rw [← BitVec.ofNat_sub_ofNat_of_le _ _ (by omega) hle, BitVec.ofNat_toNat, BitVec.setWidth_eq]
  rw [State.commitEncodeStep, sumOf_eq_total, hlrp, hsub]
  rfl

/-! The step. -/

theorem exec_seqEstep {s : State} (hf : s.fault = .noFault) : exec .seqEstep s = encodeStep s :=
  ifAccepting_ready hf _

section
variable {s : State} {c : Codec} (hrem : s.rem ≠ 0) (hc : s.codec = codecNumber c)
include hrem hc

theorem encodeStep_of_underrun (hshort : s.lin.length < s.lrp.toNat + s.stepSize) :
    encodeStep s = fail .listUnderrun s.lrp s := by
  rw [encodeStep, withStep_codec hrem hc]
  exact if_pos hshort

theorem encodeStep_eq_withEncoded (hlist : s.lrp.toNat + s.stepSize ≤ s.lin.length) : encodeStep s =
    withEncoded c (s.chunk s.stepSize) s fun bs => .next (s.commitEncodeStep bs) := by
  rw [encodeStep, withStep_codec hrem hc]
  exact if_neg (Nat.not_lt.2 hlist)

end

/-- Settles O42: past its checks the step is `Enc` of the chunk, which faults where the first value does not fit or
commits the bytes the rules give, if `EB` holds them. -/
theorem encodeStepResult : Obligations.EncodeStepResult := by
  intro s hinv hf
  have hcat : s.params.catalog.wf := hinv.params.2.2.2
  rw [exec_seqEstep hf]
  refine ⟨fun hrem => withStep_done hrem _, fun hrem h0 h1 => withStep_badCodec hrem h0 h1 _, fun c hrem hc =>
    ⟨encodeStep_of_underrun hrem hc, fun v hlist hv => ?_⟩⟩
  obtain rfl : v = s.chunk s.stepSize := hv
  have hlen : (s.chunk s.stepSize).length = s.stepSize := State.chunk_length hlist
  rw [encodeStep_eq_withEncoded hrem hc hlist]
  refine ⟨fun i hi hs16 hbad hgood => ?_, exists_encodesTo hcat, fun bs henc => ?_⟩
  · subst hs16
    exact withEncoded_of_error (encOf_simple16_error hcat hi hbad hgood) _
  · have hok := encOf_of_encodesTo hcat henc
    refine ⟨fun hover => withEncoded_of_overflow hok hover _, fun hfit => ?_⟩
    rw [withEncoded_of_fits hok hfit, State.commitEncodeStep_eq, hlen]
    exact ⟨_, _, _, rfl, slotsWritten_overwrite _ _, appended_append hinv.ebWf bs⟩

end Sys2Proof.Machine
end

section
/-! The host's writes of `IN`, `EB` and `LIN` (R231, R233, R234): each move in a block that accepts writes, an append by
whether its store has room, and the step that takes the move. -/

namespace Sys2Proof.Machine

open Sys2Proof.Terms

/-! The moves on a block with no fault recorded. -/

section
variable {s : State} (hf : s.fault = .noFault)
include hf

theorem moveIn_ready (i : Fin 128) (v : Word) :
    moveIn i v s = .next { s with inBuf := s.inBuf.set i.1 v i.2 } :=
  ifAccepting_ready hf _

theorem moveEbAppend_of_room (hroom : s.eb.length < s.params.ebCap) (b : Byte) :
    moveEbAppend b s = .next { s with eb := s.eb.append [b] } := by
  rw [moveEbAppend, ifAccepting_ready hf, if_pos hroom]

theorem moveEbAppend_of_full (hfull : s.eb.length = s.params.ebCap) (b : Byte) :
    moveEbAppend b s = fail .encodeOverflow s.ebLen s := by
  rw [moveEbAppend, ifAccepting_ready hf, if_neg hfull.not_lt]

theorem moveLinAppend_of_room (hroom : s.lin.length < s.params.linCap) (v : Word) :
    moveLinAppend v s = .next { s with lin := s.lin ++ [v] } := by
  rw [moveLinAppend, ifAccepting_ready hf, if_pos hroom]

theorem moveLinAppend_of_full (hfull : s.lin.length = s.params.linCap) (v : Word) :
    moveLinAppend v s = fail .listOverflow s.linLen s := by
  rw [moveLinAppend, ifAccepting_ready hf, if_neg hfull.not_lt]

end

/-! The steps. -/

/-- Settles O16: the write sets one slot of the vector, and the read is the pending move's answer. -/
theorem inputSlotAccess : Obligations.InputSlotAccess := by
  refine ⟨fun s i v rest hin hf => ?_, fun s i rest hin => step_pending hin⟩
  have hstep : step s = .next { s with inbox := rest, inBuf := s.inBuf.set i.1 v i.2 } :=
    (step_pending hin).trans (moveIn_ready (s := { s with inbox := rest }) hf i v)
  have hothers (j : Fin 128) (hj : j ≠ i) : (s.inBuf.set i.1 v i.2)[j] = s.inBuf[j] :=
    Vector.getElem_set_ne i.2 j.2 (Fin.val_ne_of_ne hj.symm)
  exact ⟨_, hstep, Vector.getElem_set_self i.2, hothers⟩

/-- Settles O17: with room the new memory is the old one with the byte appended, and a full `EB` raises. -/
theorem ebAppend : Obligations.EbAppend := by
  intro s b rest hinv hin hf
  rw [step_pending hin]
  refine ⟨fun hroom => ⟨s.eb.append [b], ?_, appended_append hinv.ebWf [b]⟩, fun hfull => ?_⟩
  · exact moveEbAppend_of_room (s := { s with inbox := rest }) hf hroom b
  · exact moveEbAppend_of_full (s := { s with inbox := rest }) hf hfull b

/-- Settles O18: with room the value ends the list, and a full `LIN` raises. -/
theorem linAppend : Obligations.LinAppend := by
  intro s v rest _ hin hf
  rw [step_pending hin]
  refine ⟨fun hroom => ?_, fun hfull => ?_⟩
  · exact moveLinAppend_of_room (s := { s with inbox := rest }) hf hroom v
  · exact moveLinAppend_of_full (s := { s with inbox := rest }) hf hfull v

end Sys2Proof.Machine
end

section
/-! Faults are precise (R262): a command that is no run makes one atomic transition, a transition that records a fault
is `State.raise`, and a run repeats its driver step until one of them records a fault (R208, R209). -/

namespace Sys2Proof.Machine

open Sys2Proof.Terms

/-- Raising is the one transition that records a fault; all the others leave `FAULT` as it was. -/
theorem Transition.precise {s t : State} (h : Transition s t) (hf : s.fault = .noFault) (ht : t.fault ≠ .noFault) :
    t = { s with fault := t.fault, finfo := t.finfo } := by
  cases h with
  | raised f info _ => rfl
  | encoded | decoded | decodeStep | encodeStep => exact absurd (by simpa using hf) ht
  | absorbed u => exact absurd hf ht

theorem exec_seqDstep {s : State} (hf : s.fault = .noFault) : exec .seqDstep s = decodeStep s :=
  ifAccepting_ready hf _

/-- Every command but the two runs is one atomic transition (R67). -/
theorem exec_transition {i : Instr} {s t : State} (hd : i ≠ .seqDrun) (he : i ≠ .seqErun) (hf : s.fault = .noFault)
    (h : exec i s = .next t) : Transition s t := by
  have accepted (h : (s.fault ≠ .noFault ∧ t = s) ∨ (s.fault = .noFault ∧ Transition s t)) : Transition s t :=
    (h.resolve_left fun hfaulted => hfaulted.1 hf).2
  cases i
  case s16Enc n | svbEnc n => exact accepted (blockEncode_next h)
  case s16Dec n | svbDec n => exact accepted (blockDecode_next h)
  case seqDstep => exact decodeStep_next ((exec_seqDstep hf).symm.trans h)
  case seqEstep => exact encodeStep_next ((exec_seqEstep hf).symm.trans h)
  case seqDrun => exact absurd rfl hd
  case seqErun => exact absurd rfl he
  all_goals exact accepted (presentUnit_next h)

/-! Both runs as one loop. -/

/-- `while REM ≠ 0 and FAULT = 0: do the command i`, at most `fuel` times: the loop of R208 and of R209. -/
def driverLoop (i : Instr) : (fuel : Nat) → State → Answer
  | 0, s => .next s
  | fuel + 1, s =>
    if s.rem ≠ 0 ∧ s.fault = .noFault then
      match exec i s with
      | .next t => driverLoop i fuel t
      | .fault e => .fault e
      | .refused e => .refused e
    else .next s

theorem decodeLoop_eq_driverLoop (fuel : Nat) (s : State) : decodeLoop fuel s = driverLoop .seqDstep fuel s := by
  induction fuel generalizing s with
  | zero => rfl
  | succ fuel ih =>
    rw [decodeLoop, driverLoop]
    refine if_ctx_congr Iff.rfl (fun hgo => ?_) fun _ => rfl
    rw [exec_seqDstep hgo.2]
    cases decodeStep s with
    | next t => exact ih t
    | fault e => rfl
    | refused e => rfl

theorem encodeLoop_eq_driverLoop (fuel : Nat) (s : State) : encodeLoop fuel s = driverLoop .seqEstep fuel s := by
  induction fuel generalizing s with
  | zero => rfl
  | succ fuel ih =>
    rw [encodeLoop, driverLoop]
    refine if_ctx_congr Iff.rfl (fun hgo => ?_) fun _ => rfl
    rw [exec_seqEstep hgo.2]
    cases encodeStep s with
    | next t => exact ih t
    | fault e => rfl
    | refused e => rfl

theorem exec_seqDrun {s : State} (hf : s.fault = .noFault) :
    exec .seqDrun s = driverLoop .seqDstep s.runFuel s :=
  (ifAccepting_ready hf _).trans (decodeLoop_eq_driverLoop _ s)

theorem exec_seqErun {s : State} (hf : s.fault = .noFault) :
    exec .seqErun s = driverLoop .seqEstep s.runFuel s :=
  (ifAccepting_ready hf _).trans (encodeLoop_eq_driverLoop _ s)

/-- A loop stops at once, or makes one iteration and goes on from where it led. -/
theorem driverLoop_succ_next {i : Instr} {fuel : Nat} {s t : State} (h : driverLoop i (fuel + 1) s = .next t) :
    t = s ∨ s.rem ≠ 0 ∧ s.fault = .noFault ∧ ∃ u, exec i s = .next u ∧ driverLoop i fuel u = .next t := by
  rw [driverLoop] at h
  split at h
  case isTrue hgo =>
    split at h
    · exact .inr ⟨hgo.1, hgo.2, _, ‹_›, h⟩
    · cases h
    · cases h
  case isFalse => exact .inl (Host.Outcome.next.inj h).symm

theorem driverLoop_faulted {i : Instr} {fuel : Nat} {s : State} (hf : s.fault ≠ .noFault) :
    driverLoop i fuel s = .next s := by
  cases fuel with
  | zero => rfl
  | succ fuel => exact if_neg fun hgo => hf hgo.2

/-- A loop that ends in a fault made some iterations without one, and the next iteration recorded it. -/
theorem driverLoop_raises {i : Instr} {fuel : Nat} {s t : State} (hf : s.fault = .noFault)
    (h : driverLoop i fuel s = .next t) (ht : t.fault ≠ .noFault) :
    ∃ k u, Iterates i k s u ∧ u.fault = .noFault ∧ u.rem ≠ 0 ∧ exec i u = .next t := by
  induction fuel generalizing s with
  | zero =>
    cases h
    exact absurd hf ht
  | succ fuel ih =>
    obtain rfl | ⟨hrem, -, v, hstep, hrest⟩ := driverLoop_succ_next h
    · exact absurd hf ht
    by_cases hv : v.fault = .noFault
    · obtain ⟨k, u, hiter, hu⟩ := ih hv hrest
      exact ⟨k + 1, u, .more k s v u hrem hf hstep hiter, hu⟩
    · rw [driverLoop_faulted hv] at hrest
      cases hrest
      exact ⟨0, s, .none s, hf, hrem, hstep⟩

/-- The faulting iteration of a loop is precise when its command is one transition. -/
theorem driverLoop_precise {i : Instr} {fuel : Nat} {s t : State} (hd : i ≠ .seqDrun) (he : i ≠ .seqErun)
    (hf : s.fault = .noFault) (h : driverLoop i fuel s = .next t) (ht : t.fault ≠ .noFault) :
    ∃ k u, Iterates i k s u ∧ u.fault = .noFault ∧ u.rem ≠ 0 ∧ exec i u = .next t ∧
      t = { u with fault := t.fault, finfo := t.finfo } := by
  obtain ⟨k, u, hiter, huf, hrem, hstep⟩ := driverLoop_raises hf h ht
  exact ⟨k, u, hiter, huf, hrem, hstep, (exec_transition hd he huf hstep).precise huf ht⟩

/-- Settles O12: a run's faulting iteration is found along its loop, and every other command is one transition. -/
theorem faultsArePrecise : Obligations.FaultsArePrecise := by
  intro i s t hf h ht
  by_cases hd : i = .seqDrun
  · subst hd
    rw [exec_seqDrun hf] at h
    exact .inr (.inl ⟨rfl, driverLoop_precise (by decide) (by decide) hf h ht⟩)
  by_cases he : i = .seqErun
  · subst he
    rw [exec_seqErun hf] at h
    exact .inr (.inr ⟨rfl, driverLoop_precise (by decide) (by decide) hf h ht⟩)
  exact .inl ⟨hd, he, (exec_transition hd he hf h).precise hf ht⟩

end Sys2Proof.Machine
end

section
/-! The faulted state (R263): each write and each command is dropped, each read hands its value over, and no move but
reset changes the two fault registers. -/

namespace Sys2Proof.Machine

/-! Writes and commands on a faulted block. -/

section
variable {s : State} (hf : s.fault ≠ .noFault)
include hf

theorem exec_faulted (i : Instr) : exec i s = .next s := by
  cases i <;> exact ifAccepting_faulted hf _

theorem moveWrite_faulted (r : Nat) (v : Word) : moveWrite r v s = .next s := by
  rw [moveWrite, writeCommand, ifAccepting_faulted hf, ifAccepting_faulted hf, ite_self]

theorem moveIn_faulted (i : Fin 128) (v : Word) : moveIn i v s = .next s := ifAccepting_faulted hf _

theorem moveEbAppend_faulted (b : Byte) : moveEbAppend b s = .next s := ifAccepting_faulted hf _

theorem moveLinAppend_faulted (v : Word) : moveLinAppend v s = .next s := ifAccepting_faulted hf _

theorem movePresent_faulted (u : DataUnit) : movePresent u s = .next s := by
  cases u with
  | word w => exact exec_faulted hf (decodeS16Word w)
  | tags c => exact exec_faulted hf (decodeControlByte c)

end

/-! The two reads that name an index. -/

theorem moveEbRead_of_byteAt {s : State} {a : Nat} {b : Byte} (h : s.eb.byteAt a = some b) :
    moveEbRead a s = .next (s.answerRead (b.setWidth 32)) := by
  rw [moveEbRead, h]

theorem moveLoutRead_of_getElem? {s : State} {i : Nat} {v : Word} (h : s.lout[i]? = some v) :
    moveLoutRead i s = .next (s.answerRead v) := by
  rw [moveLoutRead, h]

theorem moveEbRead_next {a : Nat} {s t : State} (h : moveEbRead a s = .next t) : ∃ v, t = s.answerRead v := by
  rw [moveEbRead] at h
  split at h
  · exact ⟨_, (Host.Outcome.next.inj h).symm⟩
  · cases h

theorem moveLoutRead_next {i : Nat} {s t : State} (h : moveLoutRead i s = .next t) : ∃ v, t = s.answerRead v := by
  rw [moveLoutRead] at h
  split at h
  · exact ⟨_, (Host.Outcome.next.inj h).symm⟩
  · cases h

/-- On a faulted block a move other than reset is dropped or is a read. -/
theorem hostMove_faulted {m : Move} {s t : State} (hf : s.fault ≠ .noFault) (hm : m ≠ .reset)
    (h : hostMove m s = .next t) : t = s ∨ ∃ v, t = s.answerRead v := by
  have dropped {k : Answer} (hk : k = .next s) (h : k = .next t) : t = s := Host.Outcome.next.inj (h.symm.trans hk)
  have answered {v : Word} (h : (.next (s.answerRead v) : Answer) = .next t) : ∃ v, t = s.answerRead v :=
    ⟨v, (Host.Outcome.next.inj h).symm⟩
  cases m with
  | wr r v => exact .inl (dropped (moveWrite_faulted hf r v) h)
  | inWr i v => exact .inl (dropped (moveIn_faulted hf i v) h)
  | ebApp b => exact .inl (dropped (moveEbAppend_faulted hf b) h)
  | linApp v => exact .inl (dropped (moveLinAppend_faulted hf v) h)
  | present u => exact .inl (dropped (movePresent_faulted hf u) h)
  | rd r => exact .inr (answered h)
  | inRd i => exact .inr (answered h)
  | outRd i => exact .inr (answered h)
  | ebRd a => exact .inr (moveEbRead_next h)
  | loutRd i => exact .inr (moveLoutRead_next h)
  | reset => exact absurd rfl hm

/-- The first fault's values stay (R263). -/
theorem hostMove_keeps_fault {m : Move} {s t : State} (hf : s.fault ≠ .noFault) (hm : m ≠ .reset)
    (h : hostMove m s = .next t) : t.fault = s.fault ∧ t.finfo = s.finfo := by
  obtain rfl | ⟨v, rfl⟩ := hostMove_faulted hf hm h
  · exact ⟨rfl, rfl⟩
  · exact ⟨rfl, rfl⟩

theorem State.goodEnd_of_faulted {s : State} (hf : s.fault ≠ .noFault) : s.goodEnd = false := by
  rw [State.goodEnd, (State.faulted_iff s).2 hf, Bool.not_true, Bool.and_false]

/-- Settles O9: the step takes the pending move, which is dropped, read or reset. -/
theorem faultedStateIgnoresWrites : Obligations.FaultedStateIgnoresWrites := by
  intro s m rest hf hin
  rw [step_pending hin]
  refine ⟨?wr, ?inWr, ?ebApp, ?linApp, ?rd, ?inRd, ?outRd, ?ebRd, ?loutRd, ?kept, ?reset, ?badEnd⟩
  case wr => rintro r v rfl; exact moveWrite_faulted (s := { s with inbox := rest }) hf r v
  case inWr => rintro i v rfl; exact moveIn_faulted (s := { s with inbox := rest }) hf i v
  case ebApp => rintro b rfl; exact moveEbAppend_faulted (s := { s with inbox := rest }) hf b
  case linApp => rintro v rfl; exact moveLinAppend_faulted (s := { s with inbox := rest }) hf v
  case rd => rintro r rfl; rfl
  case inRd => rintro i rfl; rfl
  case outRd => rintro i rfl; rfl
  case ebRd => rintro a b rfl hb; exact moveEbRead_of_byteAt (s := { s with inbox := rest }) hb
  case loutRd => rintro i v rfl hv; exact moveLoutRead_of_getElem? (s := { s with inbox := rest }) hv
  case kept => intro t h hm; exact hostMove_keeps_fault (s := { s with inbox := rest }) hf hm h
  case reset => rintro rfl; exact ⟨_, rfl, State.resetBlock_fault _, State.resetBlock_finfo _⟩
  case badEnd => exact State.goodEnd_of_faulted (s := { s with inbox := [] }) hf

end Sys2Proof.Machine
end

section
/-! `BadCount` (R265): the count is checked before a block command does anything else. -/

namespace Sys2Proof.Machine

open Sys2Proof.Terms

theorem not_countLegal {n : BitVec 8} (h : n.toNat = 0 ∨ 128 < n.toNat) : ¬ countLegal n := by
  rw [countLegal, blockSize]
  omega

section
variable {c : Codec} {n : BitVec 8} {s : State} (hf : s.fault = .noFault) (hn : ¬ countLegal n)
include hf hn

theorem blockEncode_badCount : blockEncode c n s = .next (s.raise .badCount (BitVec.ofNat 32 n.toNat)) := by
  rw [blockEncode, ifAccepting_ready hf, withCount_illegal hn, BitVec.ofNat_toNat]

theorem blockDecode_badCount : blockDecode c n s = .next (s.raise .badCount (BitVec.ofNat 32 n.toNat)) := by
  rw [blockDecode, ifAccepting_ready hf, withCount_illegal hn, BitVec.ofNat_toNat]

end

/-- Settles O11: both block commands of a codec check the count first. -/
theorem badCountRaises : Obligations.BadCountRaises := by
  intro c n s hf hn
  rw [exec_encodeCommand, exec_decodeCommandOf]
  exact ⟨blockEncode_badCount hf (not_countLegal hn), blockDecode_badCount hf (not_countLegal hn)⟩

end Sys2Proof.Machine
end

section
/-! Encoding and decoding an instruction (R90, R101, R111): a word's fields are those it was put together from, a word
is put together again from its own fields, and an item's bytes are its bits laid least significant first. -/

namespace Sys2Proof

/-! The fields of the three kinds of item. -/

theorem commandWord_toNat (op n : BitVec 8) : (commandWord op n).toNat = op.toNat * 2 ^ 24 + n.toNat := by
  have hn := n.isLt
  have hz : (0 : BitVec 16).toNat = 0 := rfl
  rw [commandWord, BitVec.toNat_append, BitVec.toNat_append, hz, Nat.or_zero, ← Nat.shiftLeft_add,
    Nat.shiftLeft_eq, Nat.mul_comm, ← Nat.two_pow_add_eq_or_of_lt (by omega)]

theorem s16Word_toNat (sel : BitVec 4) (data : BitVec 28) :
    (s16Word sel data).toNat = sel.toNat * 2 ^ 28 + data.toNat := by
  rw [s16Word, BitVec.toNat_append, Nat.shiftLeft_eq, Nat.mul_comm, ← Nat.two_pow_add_eq_or_of_lt data.isLt]

@[simp] theorem fieldOp_commandWord (op n : BitVec 8) : fieldOp (commandWord op n) = op := by
  have hn := n.isLt
  apply BitVec.eq_of_toNat_eq
  rw [fieldOp_toNat, commandWord_toNat]
  omega

@[simp] theorem fieldZ_commandWord (op n : BitVec 8) : fieldZ (commandWord op n) = 0 := by
  have hn := n.isLt
  apply BitVec.eq_of_toNat_eq
  rw [fieldZ_toNat, commandWord_toNat, show (0 : BitVec 16).toNat = 0 from rfl]
  omega

@[simp] theorem fieldN_commandWord (op n : BitVec 8) : fieldN (commandWord op n) = n := by
  have hn := n.isLt
  apply BitVec.eq_of_toNat_eq
  rw [fieldN_toNat, commandWord_toNat]
  omega

theorem commandWord_fields {w : Word} (hz : fieldZ w = 0) : commandWord (fieldOp w) (fieldN w) = w := by
  have hw := w.isLt
  have hz' : (fieldZ w).toNat = 0 := congrArg BitVec.toNat hz
  rw [fieldZ_toNat] at hz'
  apply BitVec.eq_of_toNat_eq
  rw [commandWord_toNat, fieldOp_toNat, fieldN_toNat]
  omega

theorem fieldData_toNat (w : Word) : (fieldData w).toNat = w.toNat % 2 ^ 28 := by
  rw [fieldData, BitVec.extractLsb'_toNat, Nat.shiftRight_zero]

@[simp] theorem fieldSel_s16Word (sel : BitVec 4) (data : BitVec 28) : fieldSel (s16Word sel data) = sel := by
  have hdata := data.isLt
  apply BitVec.eq_of_toNat_eq
  rw [Machine.fieldSel_toNat, s16Word_toNat]
  omega

@[simp] theorem fieldData_s16Word (sel : BitVec 4) (data : BitVec 28) : fieldData (s16Word sel data) = data := by
  have hdata := data.isLt
  apply BitVec.eq_of_toNat_eq
  rw [fieldData_toNat, s16Word_toNat]
  omega

theorem s16Word_fields (w : Word) : s16Word (fieldSel w) (fieldData w) = w := by
  apply BitVec.eq_of_toNat_eq
  rw [s16Word_toNat, Machine.fieldSel_toNat, fieldData_toNat]
  omega

theorem fieldTag_controlByte (t0 t1 t2 t3 : BitVec 2) :
    fieldTag (controlByte t0 t1 t2 t3) 0 = t0 ∧ fieldTag (controlByte t0 t1 t2 t3) 1 = t1 ∧
      fieldTag (controlByte t0 t1 t2 t3) 2 = t2 ∧ fieldTag (controlByte t0 t1 t2 t3) 3 = t3 := by
  revert t0 t1 t2 t3
  decide

theorem controlByte_fields (c : Byte) :
    controlByte (fieldTag c 0) (fieldTag c 1) (fieldTag c 2) (fieldTag c 3) = c := by
  revert c
  decide

/-! The data words by selector. -/

theorem decodeS16Word_eq_row (w : Word) : decodeS16Word w = Terms.s16wRow (fieldSel w).toFin (fieldData w) := by
  rw [decodeS16Word, ← BitVec.val_toFin]
  generalize (fieldSel w).toFin = k
  fin_cases k <;> rfl

theorem port_s16wRow (k : Fin 16) (d : BitVec 28) : (Terms.s16wRow k d).port = .simple16 := by
  fin_cases k <;> rfl

theorem encodeBits_s16wRow (k : Fin 16) (d : BitVec 28) :
    encodeBits (Terms.s16wRow k d) = (s16Word (.ofFin k) d).toNat := by
  fin_cases k <;> rfl

/-! An item's bits and its instruction. -/

/-- The instruction that the bits `v` of an item of stream `p` stand for. -/
def Port.decodeBits (p : Port) (v : Nat) : Except DecodeError Instr :=
  match p with
  | .command => decodeCommand (BitVec.ofNat 32 v)
  | .simple16 => .ok (decodeS16Word (BitVec.ofNat 32 v))
  | .streamVByte => .ok (decodeControlByte (BitVec.ofNat 8 v))

theorem decode_eq (p : Port) (bs : List Byte) : decode p bs = if bs.length < p.size then .error .tooShort
    else (p.decodeBits (ofLeBytes (bs.take p.size))).map fun i => (i, bs.drop p.size) := by
  cases p <;> rfl

/-- A byte sequence decodes to an instruction exactly when it begins with an item whose bits stand for it. -/
theorem decode_ok_iff {p : Port} {bs rest : List Byte} {i : Instr} : decode p bs = .ok (i, rest) ↔
    ∃ v, v < 256 ^ p.size ∧ bs = leBytes p.size v ++ rest ∧ p.decodeBits v = .ok i := by
  rw [decode_eq]
  constructor
  · intro h
    split at h
    · cases h
    · have hlen : (bs.take p.size).length = p.size := List.length_take_of_le (by omega)
      cases hd : p.decodeBits (ofLeBytes (bs.take p.size)) with
      | error e => rw [hd] at h; cases h
      | ok j =>
        rw [hd] at h
        cases h
        refine ⟨_, ?_, ?_, hd⟩
        · have hlt := ofLeBytes_lt (bs.take p.size)
          rwa [hlen] at hlt
        · have hbytes := leBytes_ofLeBytes (bs.take p.size)
          rw [hlen] at hbytes
          rw [hbytes, List.take_append_drop]
  · rintro ⟨v, hv, rfl, hd⟩
    rw [if_neg (by simp), List.take_left' (by simp), List.drop_left' (by simp), ofLeBytes_leBytes,
      Nat.mod_eq_of_lt hv, hd]
    rfl

theorem encodeBits_lt (i : Instr) : encodeBits i < 256 ^ i.port.size := by
  cases i <;> exact BitVec.isLt _

theorem decodeBits_encodeBits (i : Instr) : i.port.decodeBits (encodeBits i) = .ok i := by
  cases i
  case svbc t0 t1 t2 t3 =>
    obtain ⟨e0, e1, e2, e3⟩ := fieldTag_controlByte t0 t1 t2 t3
    simp [Instr.port, Port.decodeBits, encodeBits, decodeControlByte, e0, e1, e2, e3]
  case s16Enc | s16Dec | svbEnc | svbDec | seqDstep | seqEstep | seqDrun | seqErun =>
    simp [Instr.port, Port.decodeBits, encodeBits, decodeCommand]
  all_goals simp [Instr.port, Port.decodeBits, encodeBits, decodeS16Word]

/-- A legal command word is put together from its opcode and its count. -/
theorem encodeBits_of_decodeCommand {w : Word} {i : Instr} (h : decodeCommand w = .ok i) :
    i.port = .command ∧ encodeBits i = w.toNat := by
  unfold decodeCommand at h
  by_cases hz : fieldZ w = 0
  · have hw := commandWord_fields hz
    rw [if_neg (not_not_intro hz)] at h
    have hop : fieldOp w = BitVec.ofNat 8 (fieldOp w).toNat := by rw [BitVec.ofNat_toNat, BitVec.setWidth_eq]
    split at h
    case h_1 e | h_2 e | h_3 e | h_4 e =>
      cases h
      rw [hop, e] at hw
      exact ⟨rfl, congrArg BitVec.toNat hw⟩
    case h_5 e | h_6 e | h_7 e | h_8 e =>
      split at h
      case isTrue hn =>
        cases h
        rw [hop, e, hn] at hw
        exact ⟨rfl, congrArg BitVec.toNat hw⟩
      case isFalse => cases h
    case h_9 => cases h
  · rw [if_pos hz] at h
    cases h

theorem encodeBits_of_decodeBits {p : Port} {v : Nat} {i : Instr} (hv : v < 256 ^ p.size)
    (h : p.decodeBits v = .ok i) : i.port = p ∧ encodeBits i = v := by
  cases p with
  | command =>
    obtain ⟨hport, hbits⟩ := encodeBits_of_decodeCommand h
    exact ⟨hport, hbits.trans (Nat.mod_eq_of_lt hv)⟩
  | simple16 =>
    obtain rfl := Except.ok.inj h
    rw [decodeS16Word_eq_row]
    refine ⟨port_s16wRow _ _, (encodeBits_s16wRow _ _).trans ?_⟩
    rw [BitVec.ofFin_toFin, s16Word_fields]
    exact Nat.mod_eq_of_lt hv
  | streamVByte =>
    obtain rfl := Except.ok.inj h
    refine ⟨rfl, (congrArg BitVec.toNat (controlByte_fields _)).trans ?_⟩
    exact Nat.mod_eq_of_lt hv

/-- Settles O7: an instruction's bytes are its bits laid least significant first, and its bits stand for it. -/
theorem decodeEncodeRoundTrip : Obligations.DecodeEncodeRoundTrip := by
  intro i rest
  exact decode_ok_iff.2 ⟨encodeBits i, encodeBits_lt i, rfl, decodeBits_encodeBits i⟩

/-- Settles O8: the bits an item stands for are put together again from its fields. -/
theorem decodedBytesAreEncoding : Obligations.DecodedBytesAreEncoding := by
  intro p bs rest i h
  obtain ⟨v, hv, rfl, hd⟩ := decode_ok_iff.1 h
  obtain ⟨rfl, rfl⟩ := encodeBits_of_decodeBits hv hd
  exact ⟨rfl, rfl⟩

/-- Settles O6: the words' fields are read off. -/
theorem tableWordsDecode : Obligations.TableWordsDecode :=
  ⟨rfl, rfl, rfl, rfl, rfl, rfl, rfl, rfl⟩

end Sys2Proof
end

section
/-! What each move of the host can do to the block, said once: every move but reset is a read, a write that leaves the
stores alone, an append, a fault or a command (R230 to R237). The invariant, the append-only stores and the rest of the
whole machine's statements follow. -/

namespace Sys2Proof.Machine

open Sys2Proof.Terms

/-! Commands. -/

/-- Settles O53: no atomic transition touches them, so no chain of transitions does. -/
theorem commandsNeverTouch : Obligations.CommandsNeverTouch := by
  intro i s t h
  refine exec_preserves (P := fun u => u.codec = s.codec ∧ u.lin = s.lin ∧ u.params = s.params ∧
    u.inbox = s.inbox ∧ u.reads = s.reads) (fun u v huv hu => ?_) h ⟨rfl, rfl, rfl, rfl, rfl⟩
  obtain ⟨hparams, hlin, hcodec, -, hinbox, hreads⟩ := huv.untouched
  rwa [hparams, hlin, hcodec, hinbox, hreads]

/-- Settles O10: a faulted block drops every command. -/
theorem execWhileFaultedChangesNothing : Obligations.ExecWhileFaultedChangesNothing :=
  fun i _ hf => exec_faulted hf i

/-! The host's moves. -/

/-- What a move of the host other than reset does to a block: it changes neither the stores nor the fault registers, or
it appends a byte or a value where there is room, or it records a fault, or it runs a command. -/
inductive HostEffect (s : State) : State → Prop where
  | kept {t : State} (hparams : t.params = s.params) (heb : t.eb = s.eb) (hlin : t.lin = s.lin)
      (hlout : t.lout = s.lout) (hfault : t.fault = s.fault) (hfinfo : t.finfo = s.finfo) : HostEffect s t
  | raised (f : Cause) (info : Word) (hf : f ≠ .noFault) : HostEffect s (s.raise f info)
  | byteAppended (b : Byte) (hroom : s.eb.length < s.params.ebCap) : HostEffect s { s with eb := s.eb.append [b] }
  | valueAppended (v : Word) (hroom : s.lin.length < s.params.linCap) : HostEffect s { s with lin := s.lin ++ [v] }
  | ran (i : Instr) {t : State} (h : exec i s = .next t) : HostEffect s t

theorem HostEffect.refl (s : State) : HostEffect s s := .kept rfl rfl rfl rfl rfl rfl

theorem HostEffect.answerRead (s : State) (v : Word) : HostEffect s (s.answerRead v) :=
  .kept rfl rfl rfl rfl rfl rfl

theorem moveWrite_effect {r : Nat} {v : Word} {s t : State} (h : moveWrite r v s = .next t) : HostEffect s t := by
  rw [moveWrite] at h
  split at h
  case isTrue =>
    rcases ifAccepting_next h with ⟨-, rfl⟩ | ⟨-, h⟩
    · exact .refl t
    · split at h
      · cases h
        exact .raised _ _ (by decide)
      · exact .ran _ h
  case isFalse =>
    rcases ifAccepting_next h with ⟨-, rfl⟩ | ⟨-, h⟩
    · exact .refl t
    · cases h
      exact .kept (by simp) (by simp) (by simp) (by simp) (by simp) (by simp)

theorem moveIn_effect {i : Fin 128} {v : Word} {s t : State} (h : moveIn i v s = .next t) : HostEffect s t := by
  rcases ifAccepting_next h with ⟨-, rfl⟩ | ⟨-, h⟩
  · exact .refl t
  · cases h
    exact .kept rfl rfl rfl rfl rfl rfl

theorem moveEbAppend_effect {b : Byte} {s t : State} (h : moveEbAppend b s = .next t) : HostEffect s t := by
  rcases ifAccepting_next h with ⟨-, rfl⟩ | ⟨-, h⟩
  · exact .refl t
  · split at h <;> cases h
    · exact .byteAppended b ‹_›
    · exact .raised _ _ (by decide)

theorem moveLinAppend_effect {v : Word} {s t : State} (h : moveLinAppend v s = .next t) : HostEffect s t := by
  rcases ifAccepting_next h with ⟨-, rfl⟩ | ⟨-, h⟩
  · exact .refl t
  · split at h <;> cases h
    · exact .valueAppended v ‹_›
    · exact .raised _ _ (by decide)

theorem movePresent_effect {u : DataUnit} {s t : State} (h : movePresent u s = .next t) : HostEffect s t := by
  cases u with
  | word w => exact .ran (decodeS16Word w) h
  | tags c => exact .ran (decodeControlByte c) h

theorem hostMove_effect {m : Move} {s t : State} (hm : m ≠ .reset) (h : hostMove m s = .next t) : HostEffect s t := by
  cases m with
  | wr r v => exact moveWrite_effect h
  | inWr i v => exact moveIn_effect h
  | ebApp b => exact moveEbAppend_effect h
  | linApp v => exact moveLinAppend_effect h
  | present u => exact movePresent_effect h
  | rd r => cases h; exact .answerRead s _
  | inRd i => cases h; exact .answerRead s _
  | outRd i => cases h; exact .answerRead s _
  | ebRd a => obtain ⟨v, rfl⟩ := moveEbRead_next h; exact .answerRead s v
  | loutRd i => obtain ⟨v, rfl⟩ := moveLoutRead_next h; exact .answerRead s v
  | reset => exact absurd rfl hm

/-- Everything a step can do: nothing when no move is pending, reset, or the effect of another move on the block with
that move taken from the queue. -/
theorem step_cases {s t : State} (h : step s = .next t) :
    s.inbox = [] ∧ t = s ∨
    ∃ m rest, s.inbox = m :: rest ∧ (m = .reset ∧ t = { s with inbox := rest }.resetBlock ∨
      m ≠ .reset ∧ hostMove m { s with inbox := rest } = .next t ∧ HostEffect { s with inbox := rest } t) := by
  rcases hin : s.inbox with _ | ⟨m, rest⟩
  · rw [step, nextMove, hin] at h
    exact .inl ⟨rfl, (Host.Outcome.next.inj h).symm⟩
  · rw [step_pending hin] at h
    refine .inr ⟨m, rest, rfl, ?_⟩
    by_cases hm : m = .reset
    · subst hm
      exact .inl ⟨rfl, (Host.Outcome.next.inj h).symm⟩
    · exact .inr ⟨hm, h, hostMove_effect hm h⟩

/-! The invariant. -/

theorem State.resetWith_inv {p : Params} (hp : p.wf) (e : Nat) : (State.resetWith p e).Inv where
  params := hp
  ebWf := Memory.nil_wf
  ebFits := Nat.zero_le _
  linFits := Nat.zero_le _
  loutFits := Nat.zero_le _
  finfoZero _ := rfl

/-- The invariant speaks of the parameters, the stores and the fault registers alone. -/
theorem State.Inv.congr {s t : State} (h : s.Inv) (hparams : t.params = s.params) (heb : t.eb = s.eb)
    (hlin : t.lin = s.lin) (hlout : t.lout = s.lout) (hfault : t.fault = s.fault) (hfinfo : t.finfo = s.finfo) :
    t.Inv where
  params := hparams ▸ h.params
  ebWf := heb ▸ h.ebWf
  ebFits := by rw [heb, hparams]; exact h.ebFits
  linFits := by rw [hlin, hparams]; exact h.linFits
  loutFits := by rw [hlout, hparams]; exact h.loutFits
  finfoZero := by rw [hfault, hfinfo]; exact h.finfoZero

theorem State.resetBlock_inv {s : State} (h : s.params.wf) : s.resetBlock.Inv :=
  (State.resetWith_inv h (s.epoch + 1)).congr (by simp) (by simp) (by simp) (by simp) (by simp) (by simp)

theorem exec_keeps_inv {i : Instr} {s t : State} (hs : s.Inv) (h : exec i s = .next t) : t.Inv :=
  exec_preserves (fun _ _ huv => huv.keeps_inv) h hs

theorem HostEffect.keeps_inv {s t : State} (h : HostEffect s t) (hs : s.Inv) : t.Inv := by
  cases h with
  | kept hparams heb hlin hlout hfault hfinfo => exact hs.congr hparams heb hlin hlout hfault hfinfo
  | raised f info hf => exact (Transition.raised f info hf).keeps_inv hs
  | byteAppended b hroom =>
    exact { hs with
      ebWf := Memory.append_wf hs.ebWf [b]
      ebFits := by rw [Memory.append_length]; exact hroom }
  | valueAppended v hroom => exact { hs with linFits := by rw [List.length_append]; exact hroom }
  | ran i h => exact exec_keeps_inv hs h

theorem Config.params_wf : Config.params.wf :=
  ⟨by simp [Config.params], by simp [Config.params], by simp [Config.params], Config.catalog_wf⟩

/-- Settles O2: the stores are empty, no fault is recorded and the default parameters are lawful. -/
theorem resetHasInvariant : Obligations.ResetHasInvariant := State.resetWith_inv Config.params_wf 0

/-- Settles O51: reset establishes the invariant, and every other effect of a move keeps it. -/
theorem stepKeepsInvariant : Obligations.StepKeepsInvariant := by
  intro s t hinv h
  have hpopped (rest : List Move) : { s with inbox := rest }.Inv := hinv.congr rfl rfl rfl rfl rfl rfl
  rcases step_cases h with ⟨-, rfl⟩ | ⟨m, rest, -, ⟨-, rfl⟩ | ⟨-, -, heffect⟩⟩
  · exact hinv
  · exact State.resetBlock_inv (hpopped rest).params
  · exact heffect.keeps_inv (hpopped rest)

/-! The stores. -/

/-- The stores of `t` are those of `s` with something appended. -/
structure State.Extends (s t : State) : Prop where
  eb : s.eb <+: t.eb
  lin : s.lin <+: t.lin
  lout : s.lout <+: t.lout

theorem State.Extends.refl (s : State) : s.Extends s :=
  ⟨List.prefix_refl _, List.prefix_refl _, List.prefix_refl _⟩

theorem State.Extends.trans {s t u : State} (h : s.Extends t) (h' : t.Extends u) : s.Extends u :=
  ⟨h.eb.trans h'.eb, h.lin.trans h'.lin, h.lout.trans h'.lout⟩

theorem Memory.prefix_append (m : Memory) (bs : List Byte) : m <+: m.append bs := List.prefix_append _ _

theorem Transition.extends {s t : State} (h : Transition s t) : s.Extends t := by
  cases h with
  | raised f info hf => exact ⟨List.prefix_refl _, List.prefix_refl _, List.prefix_refl _⟩
  | encoded bs hfit => exact ⟨Memory.prefix_append _ bs, List.prefix_refl _, List.prefix_refl _⟩
  | decoded d => exact ⟨by simp, by simp, by simp⟩
  | decodeStep d hfit hlen => exact ⟨by simp, by simp, by simp⟩
  | encodeStep bs hfit => exact ⟨by simpa using Memory.prefix_append _ bs, by simp, by simp⟩
  | absorbed u => exact ⟨List.prefix_refl _, List.prefix_refl _, List.prefix_refl _⟩

theorem exec_extends {i : Instr} {s t : State} (h : exec i s = .next t) : s.Extends t :=
  exec_preserves (fun _ _ huv hu => hu.trans huv.extends) h (.refl s)

theorem HostEffect.extends {s t : State} (h : HostEffect s t) : s.Extends t := by
  cases h with
  | kept hparams heb hlin hlout hfault hfinfo => exact ⟨by rw [heb], by rw [hlin], by rw [hlout]⟩
  | raised f info hf => exact ⟨List.prefix_refl _, List.prefix_refl _, List.prefix_refl _⟩
  | byteAppended b hroom => exact ⟨Memory.prefix_append _ _, List.prefix_refl _, List.prefix_refl _⟩
  | valueAppended v hroom => exact ⟨List.prefix_refl _, List.prefix_append _ _, List.prefix_refl _⟩
  | ran i h => exact exec_extends h

theorem Memory.byteAt_of_prefix {m m' : Memory} (h : m.wf) (h' : m'.wf) (hp : m <+: m') {a : Nat}
    (ha : a < m.length) : m'.byteAt a = m.byteAt a := by
  rw [Memory.byteAt_eq h', Memory.byteAt_eq h]
  have ha' : a < (m.map (·.2)).length := by simpa using ha
  obtain ⟨l, hl⟩ := hp.map (·.2)
  rw [← hl, List.getElem?_append_left ha']

/-- Settles O52: every effect of a move other than reset extends the stores, and a canonical buffer that extends another
has the same bytes below the other's length. -/
theorem storesAreAppendOnly : Obligations.StoresAreAppendOnly := by
  intro s t hinv h
  have hext : (∃ rest, s.inbox = .reset :: rest) ∨ s.Extends t := by
    rcases step_cases h with ⟨-, rfl⟩ | ⟨m, rest, hin, ⟨rfl, -⟩ | ⟨-, -, heffect⟩⟩
    · exact .inr (.refl _)
    · exact .inl ⟨rest, hin⟩
    · exact .inr ⟨heffect.extends.eb, heffect.extends.lin, heffect.extends.lout⟩
  refine hext.imp_right fun hext => ⟨fun a ha => ?_, hext.eb.length_le, hext.lin, hext.lout⟩
  exact Memory.byteAt_of_prefix hinv.ebWf (stepKeepsInvariant s t hinv h).ebWf hext.eb ha

/-! Reset. -/

/-- A block with no fault whose registers hold 0 and whose stores are empty reads 0 on every register number. -/
theorem State.readReg_cleared {s : State} (hfault : s.fault = .noFault) (hfinfo : s.finfo = 0) (hsum : s.sum = 0)
    (hcodec : s.codec = 0) (hrem : s.rem = 0) (hcur : s.cur = 0) (hlrp : s.lrp = 0) (heb : s.eb = [])
    (hlin : s.lin = []) (hlout : s.lout = []) (r : Nat) : s.readReg r = 0 := by
  unfold State.readReg
  split <;> simp [State.status, State.faulted, State.pending, Cause.code, State.ebLen, State.linLen, State.loutLen, *]

theorem State.readReg_resetWith (p : Params) (e r : Nat) : (State.resetWith p e).readReg r = 0 := by
  apply State.readReg_cleared <;> simp

theorem State.readReg_resetBlock (s : State) (r : Nat) : s.resetBlock.readReg r = 0 := by
  apply State.readReg_cleared <;> simp

/-- Settles O1: the reset state's fields. -/
theorem resetReadsZero : Obligations.ResetReadsZero :=
  ⟨State.readReg_resetWith Config.params 0, rfl, rfl, rfl, rfl⟩

/-- Settles O3: reset's next state is the cleared block, and every other move keeps a recorded fault. -/
theorem resetMoveClearsBlock : Obligations.ResetMoveClearsBlock := by
  refine ⟨fun s rest hin => ?_, fun s t hf h ht => ?_⟩
  · exact ⟨_, step_pending hin, State.readReg_resetBlock _, State.resetBlock_fault _, State.resetBlock_eb _,
      State.resetBlock_lin _, State.resetBlock_lout _, State.resetBlock_params _, State.resetBlock_inbox _,
      State.resetBlock_reads _⟩
  · rcases step_cases h with ⟨-, rfl⟩ | ⟨m, rest, hin, ⟨rfl, -⟩ | ⟨hm, hmove, -⟩⟩
    · exact absurd ht hf
    · exact ⟨rest, hin⟩
    · have hkept := hostMove_keeps_fault (s := { s with inbox := rest }) hf hm hmove
      exact absurd (hkept.1.symm.trans ht) hf

/-! Decoding and the step. -/

theorem writeCommand_legal {s : State} {w : Word} {i : Instr} (h : decodeCommand w = .ok i) :
    writeCommand w s = exec i s := by
  by_cases hf : s.fault = .noFault
  · rw [writeCommand, ifAccepting_ready hf, h]
  · rw [writeCommand, ifAccepting_faulted hf, exec_faulted hf]

theorem Port.decodeBits_mod (p : Port) (v : Nat) : p.decodeBits (v % 256 ^ p.size) = p.decodeBits v := by
  have hword : BitVec.ofNat 32 (v % 256 ^ 4) = BitVec.ofNat 32 v := BitVec.eq_of_toNat_eq (by simp)
  have hbyte : BitVec.ofNat 8 (v % 256 ^ 1) = BitVec.ofNat 8 v := BitVec.eq_of_toNat_eq (by simp)
  cases p
  · exact congrArg decodeCommand hword
  · exact congrArg (fun w => Except.ok (decodeS16Word w)) hword
  · exact congrArg (fun c => Except.ok (decodeControlByte c)) hbyte

theorem decode_leBytes (p : Port) (v : Nat) :
    decode p (leBytes p.size v) = (p.decodeBits v).map fun i => (i, []) := by
  rw [decode_eq, if_neg (by simp), List.take_of_length_le (by simp), List.drop_of_length_le (by simp),
    ofLeBytes_leBytes, Port.decodeBits_mod]

/-- An opcode-table item put in front of the queue is what the next step runs. -/
theorem step_withFetchWord {nbits w : Nat} {i : Instr} (h : decodeTableWord nbits w = some i) (s : State) :
    step (s.withFetchWord nbits w) = exec i s := by
  have hcmd := decode_leBytes .command w
  have hword := decode_leBytes .simple16 w
  have hbyte := decode_leBytes .streamVByte w
  simp only [Port.size, Port.decodeBits] at hcmd hword hbyte
  rw [State.withFetchWord, State.withItem]
  rw [decodeTableWord, hcmd, hword, hbyte] at h
  by_cases h32 : nbits = 32
  · subst h32
    rw [if_pos rfl] at h
    rw [if_neg (by decide)]
    cases hd : decodeCommand (BitVec.ofNat 32 w) with
    | ok j =>
      rw [hd] at h
      cases h
      exact writeCommand_legal hd
    | error e =>
      rw [hd] at h
      cases h
      rfl
  · rw [if_neg h32] at h
    by_cases h8 : nbits = 8
    · rw [if_pos h8] at h
      cases h
      rw [if_pos h8]
      rfl
    · rw [if_neg h8] at h
      cases h

/-- Settles O4: a command write runs the word's instruction, faulted or not, and a data unit is decoded as it is handed
over. -/
theorem stepRunsDecodedInstruction : Obligations.StepRunsDecodedInstruction := by
  refine ⟨fun s w rest i hin hd => ?_, fun s w rest hin => step_pending hin, fun s c rest hin => step_pending hin,
    fun s hin => ?_, fun s nbits w i h => step_withFetchWord h s⟩
  · rw [step_pending hin, hostMove_write_cmd, writeCommand_legal hd]
  · rw [step, nextMove, hin]

/-! Registers and reads. -/

/-- Settles O14: the code of each cause. -/
theorem faultCodes : Obligations.FaultCodes := by
  intro s
  have hreg : s.readReg 2 = s.fault.code := rfl
  rw [hreg]
  cases s.fault <;> rfl

theorem State.readReg_of_le {r : Nat} (h : 12 ≤ r) (s : State) : s.readReg r = 0 := by
  unfold State.readReg
  split
  case h_12 => rfl
  all_goals omega

theorem State.writeReg_readOnly {r : Nat} (h : r = 1 ∨ r = 2 ∨ r = 3 ∨ r = 8 ∨ r = 10 ∨ r = 11 ∨ 12 ≤ r) (s : State)
    (v : Word) : s.writeReg r v = s := by
  unfold State.writeReg
  split
  case h_6 => rfl
  all_goals omega

theorem moveWrite_register {r : Nat} (hr : r ≠ 0) {s : State} (hf : s.fault = .noFault) (v : Word) :
    moveWrite r v s = .next (s.writeReg r v) := by
  rw [moveWrite, if_neg hr, ifAccepting_ready hf]

/-- Settles O15: a read answers `readReg`, and a write of a register other than `CMD` is `writeReg`. -/
theorem registerAccess : Obligations.RegisterAccess := by
  refine ⟨fun s r rest hin => step_pending hin, fun s => ⟨rfl, rfl, rfl, rfl, rfl, rfl, rfl, rfl, rfl, rfl,
    fun r hr => State.readReg_of_le hr s⟩, fun s r v rest hin hf => ?_⟩
  have hwrite (hr : r ≠ 0) : step s = .next ({ s with inbox := rest }.writeReg r v) :=
    (step_pending hin).trans (moveWrite_register hr (s := { s with inbox := rest }) hf v)
  refine ⟨?_, ?_, ?_, ?_, ?_, fun hr => ?_⟩
  case refine_6 => rw [hwrite (by omega), State.writeReg_readOnly hr]
  all_goals
    rintro rfl
    exact hwrite (by decide)

theorem moveLoutRead_beyond {s : State} {i : Nat} (h : s.lout.length ≤ i) :
    moveLoutRead i s = .fault (.noSuchListValue i) := by
  rw [moveLoutRead, List.getElem?_eq_none h]

theorem moveEbRead_beyond {s : State} {a : Nat} (hw : s.eb.wf) (h : s.eb.length ≤ a) :
    moveEbRead a s = .fault (.noSuchByte a) := by
  rw [moveEbRead, Memory.byteAt_eq hw, List.getElem?_eq_none (by simpa using h)]

theorem Memory.exists_byteAt {m : Memory} (h : m.wf) {a : Nat} (ha : a < m.length) : ∃ b, m.byteAt a = some b :=
  ⟨_, (Memory.byteAt_eq h a).trans (List.getElem?_eq_getElem (by simpa using ha))⟩

/-- Settles O19: a byte or a value that exists is answered, and a move for one that does not stops the model. -/
theorem bufferReads : Obligations.BufferReads := by
  refine ⟨fun s i rest hin => step_pending hin, fun s a rest hinv hin => ⟨fun ha => ?_, fun ha => ?_⟩,
    fun s i rest hin => ⟨fun hi => ?_, fun hi => ?_⟩⟩
  · obtain ⟨b, hb⟩ := Memory.exists_byteAt hinv.ebWf ha
    refine ⟨b, hb, (step_pending hin).trans ?_⟩
    rw [BitVec.ofNat_toNat]
    exact moveEbRead_of_byteAt (s := { s with inbox := rest }) hb
  · exact (step_pending hin).trans (moveEbRead_beyond (s := { s with inbox := rest }) hinv.ebWf ha)
  · exact (step_pending hin).trans
      (moveLoutRead_of_getElem? (s := { s with inbox := rest }) (List.getElem?_eq_getElem hi))
  · exact (step_pending hin).trans (moveLoutRead_beyond (s := { s with inbox := rest }) hi)

/-! Several instances. -/

theorem System.stepAt_eq_some {sys new : System} {i : Nat} :
    sys.stepAt i = some new ↔ ∃ s t, sys[i]? = some s ∧ step s = .next t ∧ new = sys.set i t := by
  unfold System.stepAt
  constructor
  · intro h
    split at h
    · cases h
    · split at h
      · exact ⟨_, _, ‹_›, ‹_›, (Option.some.inj h).symm⟩
      · cases h
      · cases h
  · rintro ⟨s, t, hs, ht, rfl⟩
    simp only [hs, ht]

theorem System.stepAt_other {sys new : System} {i j : Nat} (hij : i ≠ j) (h : sys.stepAt i = some new) :
    new[j]? = sys[j]? := by
  obtain ⟨s, t, -, -, rfl⟩ := System.stepAt_eq_some.1 h
  exact List.getElem?_set_ne hij

/-- Two steps of different instances in one order are the same two steps in the other. -/
theorem System.stepAt_swap {sys mid new : System} {i j : Nat} (hij : i ≠ j) (hi : sys.stepAt i = some mid)
    (hj : mid.stepAt j = some new) : ∃ mid', sys.stepAt j = some mid' ∧ mid'.stepAt i = some new := by
  obtain ⟨s, t, hs, ht, rfl⟩ := System.stepAt_eq_some.1 hi
  obtain ⟨s', t', hs', ht', rfl⟩ := System.stepAt_eq_some.1 hj
  rw [List.getElem?_set_ne hij] at hs'
  refine ⟨sys.set j t', System.stepAt_eq_some.2 ⟨s', t', hs', ht', rfl⟩, System.stepAt_eq_some.2 ⟨s, t, ?_, ht, ?_⟩⟩
  · rw [List.getElem?_set_ne hij.symm, hs]
  · exact List.set_comm _ _ hij

/-- Settles O55: a step reads and replaces one state of the system. -/
theorem instancesAreIndependent : Obligations.InstancesAreIndependent := by
  refine ⟨fun sys i j hij => Option.ext fun new => ?_, fun sys new i j => System.stepAt_other⟩
  simp only [Option.bind_eq_some_iff]
  exact ⟨fun ⟨_, hi, hj⟩ => System.stepAt_swap hij hi hj, fun ⟨_, hj, hi⟩ => System.stepAt_swap hij.symm hj hi⟩

end Sys2Proof.Machine
end

section
/-! The data units taken apart by themselves (R102, R112, R156, R185): the fields of a word are the rules' arithmetic of
its lanes, and the lengths of a control byte those of its tags. -/

namespace Sys2Proof.Machine

open Sys2Proof.Terms

/-! The fields of a word. -/

theorem wid_le {cat : Catalog} (h : cat.wf) (s : Fin 16) : (cat.layout s).wid ≤ 28 :=
  (Nat.le_mul_of_pos_left _ (h.1 s).1).trans (h.1 s).2.2

theorem cnt_le {cat : Catalog} (h : cat.wf) (s : Fin 16) : (cat.layout s).cnt ≤ 28 :=
  (Nat.le_mul_of_pos_right _ (h.1 s).2.1).trans (h.1 s).2.2

theorem laneOf_eq {width : Nat} (hw : width ≤ 28) (w : Word) (j : Nat) :
    laneOf w width j = BitVec.ofNat 32 (w.toNat / 2 ^ (28 - (j + 1) * width) % 2 ^ width) := by
  rw [← laneOf_toNat hw, BitVec.ofNat_toNat, BitVec.setWidth_eq]

theorem unpackWord_eq_fieldsOf {cat : Catalog} (h : cat.wf) (w : Word) : unpackWord cat w = fieldsOf cat w := by
  have hsel : layoutOf cat (fieldSel w) = cat.layout (Fin.ofNat 16 (w.toNat / 2 ^ 28)) := by
    have hlt := (fieldSel w).isLt
    apply layoutOf_eq
    rw [← fieldSel_toNat, Fin.val_ofNat, Nat.mod_eq_of_lt hlt]
  simp only [unpackWord, fieldsOf, hsel]
  exact List.map_congr_left fun j _ => laneOf_eq (wid_le h _) w j

theorem fieldsOf_length_pos {cat : Catalog} (h : cat.wf) (w : Word) : 0 < (fieldsOf cat w).length := by
  rw [fieldsOf, List.length_map, List.length_range]
  exact (h.1 _).1

/-! The two rows. -/

theorem presentUnit_ready {s : State} (hf : s.fault = .noFault) (u : DataUnit) :
    presentUnit u s = .next { s with scratch := s.scratch.absorb s.params.catalog u } :=
  ifAccepting_ready hf _

theorem exec_s16wRow (k : Fin 16) (data : BitVec 28) (s : State) :
    exec (s16wRow k data) s = presentUnit (.word (s16Word (.ofFin k) data)) s := by
  fin_cases k <;> rfl

/-- Lane `j` of a word lies in its data field. -/
theorem lane_s16Word {width j : Nat} (hw : (j + 1) * width ≤ 28) (sel : BitVec 4) (data : BitVec 28) :
    (s16Word sel data).toNat / 2 ^ (28 - (j + 1) * width) % 2 ^ width =
      data.toNat / 2 ^ (28 - (j + 1) * width) % 2 ^ width := by
  have hlane : width ≤ (j + 1) * width := Nat.le_mul_of_pos_left _ j.succ_pos
  rw [s16Word_toNat, div_mod_of_high (by omega)]

/-- Settles O27: `TMP` is overwritten by the lanes of the selector's layout, each of which lies in the data field. -/
theorem dataWordUnpacks : Obligations.DataWordUnpacks := by
  intro k data s hcat hf
  refine ⟨_, (exec_s16wRow k data s).trans (presentUnit_ready hf _), fun j hj => ?_⟩
  have hlayout : layoutOf s.params.catalog (fieldSel (s16Word (.ofFin k) data)) = s.params.catalog.layout k := by
    rw [fieldSel_s16Word]
    exact layoutOf_eq rfl
  rw [overwrite_getElem, unpackWord, hlayout, List.getElem?_map]
  split
  case isTrue h =>
    have hlane : (j + 1) * (s.params.catalog.layout k).wid ≤ 28 :=
      (Nat.mul_le_mul_right _ h).trans (hcat.1 k).2.2
    rw [List.getElem?_range h, Option.map_some, Option.getD_some, laneOf_eq (wid_le hcat k), lane_s16Word hlane]
  case isFalse h =>
    rw [List.getElem?_eq_none (by simpa using h)]
    rfl

theorem ofFn_tagLength (c : Byte) : Vector.ofFn (fun k : Fin 4 => tagLength c k.1) =
    #v[(fieldTag c 0).toNat + 1, (fieldTag c 1).toNat + 1, (fieldTag c 2).toNat + 1, (fieldTag c 3).toNat + 1] :=
  rfl

/-- Settles O33: each lane's tag is the one the control byte was put together from. -/
theorem controlByteGivesLengths : Obligations.ControlByteGivesLengths := by
  intro t0 t1 t2 t3 s hf
  obtain ⟨e0, e1, e2, e3⟩ := fieldTag_controlByte t0 t1 t2 t3
  refine (presentUnit_ready hf (.tags (controlByte t0 t1 t2 t3))).trans ?_
  rw [Scratch.absorb, ofFn_tagLength, e0, e1, e2, e3]

/-- Settles O22: the chosen selector is a feasible one, and one is chosen when any is feasible. -/
theorem feasibleExactlyBelowWidest : Obligations.FeasibleExactlyBelowWidest := by
  intro cat x xs hcat
  have hchosen : (∃ s, feasible cat (x :: xs) s = true) ↔ ∃ s, selectLayout cat (x :: xs) = some s := by
    constructor
    · rintro ⟨s, hs⟩
      refine Option.ne_none_iff_exists'.1 fun hnone => ?_
      rw [selectLayout_eq_none.1 hnone s] at hs
      cases hs
    · rintro ⟨s, hs⟩
      exact ⟨s, (selectLayout_eq_some.1 hs).1⟩
  rw [hchosen, selectLayout_isSome hcat]
  rfl

end Sys2Proof.Machine
end

section
/-! The decoders against the rules: what stands in the buffer by `Reads` is what `Dec` answers, and what runs short by
`Short` is where it fails (R156, R185, R268). -/

namespace Sys2Proof.Machine

open Sys2Proof.Terms

theorem Memory.read_none {m : Memory} {a k : Nat} (h : m.length < a + k) : m.read a k = none := if_pos h

/-! Simple16. -/

/-- One word of a decode: its fields, as many as are wanted. -/
theorem s16DecFrom_word {cat : Catalog} (h : cat.wf) {eb : Memory} {p : Nat} {w : Word}
    (hread : eb.read p 4 = some w.toNat) (fuel left : Nat) :
    s16DecFrom cat eb (fuel + 1) p (left + 1) =
      (s16DecFrom cat eb fuel (p + 4) (left + 1 - (fieldsOf cat w).length)).map fun d =>
        ⟨(fieldsOf cat w).take (left + 1) ++ d.vals, d.past, .word w :: d.units⟩ := by
  have hleft : left + 1 - ((fieldsOf cat w).take (left + 1)).length = left + 1 - (fieldsOf cat w).length := by
    rw [List.length_take]
    omega
  simp only [s16DecFrom, hread, BitVec.ofNat_toNat, BitVec.setWidth_eq, unpackWord_eq_fieldsOf h, hleft]
  cases s16DecFrom cat eb fuel (p + 4) (left + 1 - (fieldsOf cat w).length) with
  | error a => rfl
  | ok d => rfl

theorem wordsAt_head {eb : Memory} {p : Nat} {w : Word} {ws : List Word} (h : WordsAt eb p (w :: ws)) :
    eb.read p 4 = some w.toNat := h 0 ws.length.succ_pos

theorem wordsAt_tail {eb : Memory} {p : Nat} {w : Word} {ws : List Word} (h : WordsAt eb p (w :: ws)) :
    WordsAt eb (p + 4) ws := fun i hi => by
  rw [show p + 4 + 4 * i = p + 4 * (i + 1) by omega]
  exact h (i + 1) (Nat.succ_lt_succ hi)

/-- Words of which the last is needed decode to the first values of their fields. -/
theorem s16DecFrom_of_words {cat : Catalog} (h : cat.wf) {eb : Memory} : ∀ {ws : List Word} {fuel p left : Nat},
    WordsAt eb p ws → left ≤ fuel → left ≤ (ws.flatMap (fieldsOf cat)).length →
      (ws = [] ∨ (ws.dropLast.flatMap (fieldsOf cat)).length < left) →
      s16DecFrom cat eb fuel p left =
        .ok ⟨(ws.flatMap (fieldsOf cat)).take left, p + 4 * ws.length, ws.map .word⟩
  | [], fuel, p, left, _, _, hle, _ => by
    obtain rfl : left = 0 := by simpa using hle
    exact s16DecFrom_zero cat eb fuel p
  | w :: ws, fuel, p, left, hws, hfuel, hle, hlast => by
    have hwant : ((w :: ws).dropLast.flatMap (fieldsOf cat)).length < left :=
      hlast.resolve_left (List.cons_ne_nil w ws)
    obtain ⟨left, rfl⟩ : ∃ k, left = k + 1 := ⟨left - 1, by omega⟩
    obtain ⟨fuel, rfl⟩ : ∃ k, fuel = k + 1 := ⟨fuel - 1, by omega⟩
    have hpos := fieldsOf_length_pos h w
    rw [List.flatMap_cons, List.length_append] at hle
    have hrest : ws = [] ∨ (ws.dropLast.flatMap (fieldsOf cat)).length < left + 1 - (fieldsOf cat w).length := by
      rcases eq_or_ne ws [] with rfl | hne
      · exact .inl rfl
      · rw [List.dropLast_cons_of_ne_nil hne, List.flatMap_cons, List.length_append] at hwant
        exact .inr (by omega)
    rw [s16DecFrom_word h (wordsAt_head hws), s16DecFrom_of_words h (wordsAt_tail hws) (by omega) (by omega) hrest]
    simp only [Except.map, List.flatMap_cons, List.take_append, List.map_cons, List.length_cons, Except.ok.injEq,
      Decoded.mk.injEq, and_true, true_and]
    omega

/-- Words that hold fewer values than wanted, with none after them, fail at the one that is missing. -/
theorem s16DecFrom_of_short {cat : Catalog} (h : cat.wf) {eb : Memory} : ∀ {ws : List Word} {fuel p left : Nat},
    WordsAt eb p ws → left ≤ fuel → (ws.flatMap (fieldsOf cat)).length < left →
      eb.length < p + 4 * ws.length + 4 → s16DecFrom cat eb fuel p left = .error (p + 4 * ws.length)
  | [], 0, p, left, _, hfuel, hlt, _ => by omega
  | [], fuel + 1, p, 0, _, _, hlt, _ => by omega
  | [], fuel + 1, p, left + 1, _, _, _, hend => by
    rw [s16DecFrom, Memory.read_none (by simpa using hend)]
    rfl
  | w :: ws, fuel, p, left, hws, hfuel, hlt, hend => by
    have hpos := fieldsOf_length_pos h w
    rw [List.flatMap_cons, List.length_append] at hlt
    rw [List.length_cons] at hend
    obtain ⟨left, rfl⟩ : ∃ k, left = k + 1 := ⟨left - 1, by omega⟩
    obtain ⟨fuel, rfl⟩ : ∃ k, fuel = k + 1 := ⟨fuel - 1, by omega⟩
    rw [s16DecFrom_word h (wordsAt_head hws), s16DecFrom_of_short h (wordsAt_tail hws) (by omega) (by omega) (by omega)]
    simp only [Except.map, List.length_cons, Except.error.injEq]
    omega

/-! StreamVByte. -/

theorem read_one_lt {eb : Memory} (h : eb.wf) {p c : Nat} (hc : eb.read p 1 = some c) : c < 256 := by
  have hin := Memory.le_length_of_read hc
  rw [Memory.read_eq h, if_neg (by omega)] at hc
  obtain rfl := Option.some.inj hc
  refine (ofLeBytes_lt _).trans_le (Nat.pow_le_pow_right (by decide) (List.length_take_le 1 _))

theorem tagLength_ofNat {c : Nat} (hc : c < 256) (k : Nat) : tagLength (BitVec.ofNat 8 c) k = laneBytes c k := by
  rw [tagLength, laneBytes, fieldTag, BitVec.extractLsb'_toNat, BitVec.toNat_ofNat, Nat.mod_eq_of_lt hc,
    Nat.shiftRight_eq_div_pow, pow_mul]
  rfl

theorem laneStart_succ (c k : Nat) : laneStart c (k + 1) = laneStart c k + laneBytes c k := by
  rw [laneStart, laneStart, List.range_succ, List.map_append, List.sum_append, List.map_singleton,
    List.sum_singleton]

theorem laneStart_zero (c : Nat) : laneStart c 0 = 0 := rfl

section
variable {eb : Memory} {c : Nat} (hc : c < 256)
include hc

/-- Lanes that exist are read one after another, each where the lengths before it end. -/
theorem svbLanes_of_reads {q : Nat} : ∀ {xs : List Nat} {k : Nat},
    (∀ (i : Nat) (h : i < xs.length), eb.read (q + laneStart c (k + i)) (laneBytes c (k + i)) = some xs[i]) →
      svbLanes eb (BitVec.ofNat 8 c) k (q + laneStart c k) xs.length =
        .ok (xs.map (BitVec.ofNat 32), q + laneStart c (k + xs.length))
  | [], k, _ => rfl
  | x :: xs, k, hx => by
    have hhead := hx 0 xs.length.succ_pos
    have htail := svbLanes_of_reads (q := q) (xs := xs) (k := k + 1) fun i hi => by
      rw [show k + 1 + i = k + (i + 1) by omega]
      exact hx (i + 1) (Nat.succ_lt_succ hi)
    rw [laneStart_succ, ← Nat.add_assoc] at htail
    rw [Nat.add_zero, ← tagLength_ofNat hc] at hhead
    rw [← tagLength_ofNat hc] at htail
    rw [List.length_cons, show k + (xs.length + 1) = k + 1 + xs.length by omega]
    exact svbLanes_succ_ok_iff.2 ⟨x, _, hhead, htail, rfl⟩

/-- The first lane that does not exist whole is where the lanes fail. -/
theorem svbLanes_of_short {q : Nat} : ∀ {j k m : Nat}, j < m →
    (∀ i < j, ∃ x, eb.read (q + laneStart c (k + i)) (laneBytes c (k + i)) = some x) →
      eb.length < q + laneStart c (k + j) + laneBytes c (k + j) →
      svbLanes eb (BitVec.ofNat 8 c) k (q + laneStart c k) m = .error (q + laneStart c (k + j))
  | _, _, 0, hj, _, _ => by omega
  | 0, k, m + 1, _, _, hend => by
    simp only [Nat.add_zero] at hend
    simp only [svbLanes, tagLength_ofNat hc, Memory.read_none hend, Nat.add_zero]
  | j + 1, k, m + 1, hj, hx, hend => by
    obtain ⟨x, hhead⟩ := hx 0 j.succ_pos
    have hnext : k + (j + 1) = k + 1 + j := by omega
    rw [hnext] at hend
    have htail := svbLanes_of_short (q := q) (k := k + 1) (Nat.lt_of_succ_lt_succ hj) (fun i hi => by
      rw [show k + 1 + i = k + (i + 1) by omega]
      exact hx (i + 1) (Nat.succ_lt_succ hi)) hend
    rw [laneStart_succ, ← Nat.add_assoc] at htail
    rw [Nat.add_zero] at hhead
    simp only [svbLanes, tagLength_ofNat hc, hhead, htail, hnext]

end

theorem svbDecFrom_of_reads {eb : Memory} (h : eb.wf) {p q : Nat} {ds : List Word} (hds : SvbReads eb p ds q) :
    ∀ {fuel : Nat}, ds.length ≤ fuel →
      ∃ cs : List Byte, svbDecFrom eb fuel p ds.length = .ok ⟨ds, q, cs.map .tags⟩ := by
  induction hds with
  | done p => exact fun {fuel} _ => ⟨[], svbDecFrom_zero eb fuel p⟩
  | group p c vs ds q hne hle hlast hc hv _ ih =>
    intro fuel hfuel
    have hpos := List.length_pos_iff.2 hne
    rw [List.length_append] at hfuel ⊢
    have hmin : min 4 (vs.length + ds.length) = vs.length := by
      rcases hle.eq_or_lt with h4 | hlt
      · omega
      · rw [hlast hlt]
        exact Nat.min_eq_right hle
    obtain ⟨fuel, rfl⟩ : ∃ k, fuel = k + 1 := ⟨fuel - 1, by omega⟩
    obtain ⟨left, hleft⟩ : ∃ k, vs.length + ds.length = k + 1 := ⟨vs.length + ds.length - 1, by omega⟩
    have hlanes := svbLanes_of_reads (read_one_lt h hc) (q := p + 1) (xs := vs.map (·.toNat)) (k := 0) fun i hi => by
      rw [Nat.zero_add, List.getElem_map]
      exact hv i (by simpa using hi)
    rw [List.length_map, Nat.zero_add, laneStart_zero, Nat.add_zero, List.map_map] at hlanes
    have hvals : vs.map (BitVec.ofNat 32 ∘ (·.toNat)) = vs := by
      refine (List.map_congr_left fun x _ => ?_).trans (List.map_id vs)
      rw [Function.comp_apply, BitVec.ofNat_toNat, BitVec.setWidth_eq, id]
    rw [hvals] at hlanes
    obtain ⟨cs, hrest⟩ := ih (fuel := fuel) (by omega)
    rw [hleft] at hmin ⊢
    refine ⟨BitVec.ofNat 8 c :: cs, svbDecFrom_succ_ok_iff.2
      ⟨c, (vs, _), ⟨ds, q, cs.map .tags⟩, hc, by rw [hmin]; exact hlanes, ?_, rfl⟩⟩
    rw [hmin, ← hleft, Nat.add_sub_cancel_left]
    exact hrest

theorem svbDecFrom_of_short {eb : Memory} (h : eb.wf) {p n a : Nat} (hshort : SvbShort eb p n a) :
    ∀ {fuel : Nat}, n ≤ fuel → svbDecFrom eb fuel p n = .error a := by
  induction hshort with
  | control p n hn hend =>
    intro fuel hfuel
    obtain ⟨n, rfl⟩ : ∃ k, n = k + 1 := ⟨n - 1, by omega⟩
    obtain ⟨fuel, rfl⟩ : ∃ k, fuel = k + 1 := ⟨fuel - 1, by omega⟩
    rw [svbDecFrom, Memory.read_none hend]
  | lane p n c k hk hc hv hend =>
    intro fuel hfuel
    obtain ⟨n, rfl⟩ : ∃ k, n = k + 1 := ⟨n - 1, by omega⟩
    obtain ⟨fuel, rfl⟩ : ∃ k, fuel = k + 1 := ⟨fuel - 1, by omega⟩
    have hlanes := svbLanes_of_short (read_one_lt h hc) (q := p + 1) (k := 0) hk
      (fun i hi => by rw [Nat.zero_add]; exact hv i hi) (by rw [Nat.zero_add]; exact hend)
    rw [laneStart_zero, Nat.add_zero, Nat.zero_add] at hlanes
    simp only [svbDecFrom, hc, hlanes]
  | later p n c a hn hc hv _ ih =>
    intro fuel hfuel
    obtain ⟨n, rfl⟩ : ∃ k, n = k + 1 := ⟨n - 1, by omega⟩
    obtain ⟨fuel, rfl⟩ : ∃ k, fuel = k + 1 := ⟨fuel - 1, by omega⟩
    choose! x hx using hv
    have hlanes := svbLanes_of_reads (read_one_lt h hc) (q := p + 1) (xs := (List.range 4).map x) (k := 0)
      fun i hi => by
        rw [Nat.zero_add, List.getElem_map, List.getElem_range]
        exact hx i (by simpa using hi)
    rw [List.length_map, List.length_range, laneStart_zero, Nat.add_zero, Nat.zero_add] at hlanes
    simp only [svbDecFrom, hc, Nat.min_eq_left hn.le, hlanes, ih (fuel := fuel) (by omega)]

end Sys2Proof.Machine
end

section
/-! Block decodes (R135): `Dec` by what stands in the buffer, which bytes a build accepts (U1), and the command by both.
-/

namespace Sys2Proof.Machine

open Sys2Proof.Terms

/-! `Dec` by what stands in the buffer. -/

section
variable {cat : Catalog} (hcat : cat.wf) {eb : Memory} (heb : eb.wf) {p n : Nat}

include hcat in
theorem s16Dec_of_reads {d : List Word} {q : Nat} (h : S16Reads cat eb p n d q) :
    ∃ ws : List Word, decOf .simple16 cat eb p n = .ok ⟨d, q, ws.map .word⟩ := by
  obtain ⟨ws, hws, hlast, hle, rfl, rfl⟩ := h
  exact ⟨ws, s16DecFrom_of_words hcat hws (Nat.le_refl n) hle (.inr hlast)⟩

include heb in
theorem svbDec_of_reads {d : List Word} {q : Nat} (hlen : d.length = n) (h : SvbReads eb p d q) :
    ∃ cs : List Byte, decOf .streamVByte cat eb p n = .ok ⟨d, q, cs.map .tags⟩ := by
  subst hlen
  exact svbDecFrom_of_reads heb h (Nat.le_refl _)

include hcat heb

theorem decOf_of_reads {c : Codec} {d : List Word} {q : Nat} (h : Reads c cat eb p n d q) :
    ∃ us, decOf c cat eb p n = .ok ⟨d, q, us⟩ := by
  cases c with
  | simple16 =>
    obtain ⟨ws, hdec⟩ := s16Dec_of_reads hcat h
    exact ⟨_, hdec⟩
  | streamVByte =>
    obtain ⟨cs, hdec⟩ := svbDec_of_reads (cat := cat) heb h.1 h.2
    exact ⟨_, hdec⟩

theorem decOf_of_short {c : Codec} {a : Nat} (h : Short c cat eb p n a) : decOf c cat eb p n = .error a := by
  cases c with
  | simple16 =>
    obtain ⟨ws, hws, hlt, rfl, hend⟩ := h
    exact s16DecFrom_of_short hcat hws (Nat.le_refl n) hlt hend
  | streamVByte => exact svbDecFrom_of_short heb h (Nat.le_refl n)

end

/-! Canonical bytes. -/

theorem Memory.holds_of_bytesAt {m : Memory} (h : m.wf) {a k : Nat} {bs : List Byte} (hb : m.bytesAt a k = some bs) :
    m.Holds a bs ∧ bs.length = k := by
  induction k generalizing a bs with
  | zero =>
    cases hb
    exact ⟨⟨h, List.nil_prefix⟩, rfl⟩
  | succ k ih =>
    simp only [Memory.bytesAt, Option.bind_eq_bind, Option.bind_eq_some_iff, Option.some.injEq] at hb
    obtain ⟨b, hbyte, cs, hrest, rfl⟩ := hb
    obtain ⟨⟨-, hpre⟩, hlen⟩ := ih hrest
    rw [Memory.byteAt_eq h] at hbyte
    obtain ⟨ha, rfl⟩ := List.getElem?_eq_some_iff.1 hbyte
    refine ⟨⟨h, ?_⟩, congrArg (· + 1) hlen⟩
    rw [List.drop_eq_getElem_cons ha]
    exact List.cons_prefix_cons.2 ⟨rfl, hpre⟩

theorem encodesTo_of_encOf {c : Codec} {cat : Catalog} (h : cat.wf) {v : List Word} {bs : List Byte}
    (henc : encOf c cat v = .ok bs) : EncodesTo c cat v bs := by
  cases c with
  | simple16 =>
    rw [encOf, s16Enc] at henc
    cases hws : s16Words cat v.length 0 v with
    | error i => rw [hws] at henc; cases henc
    | ok ws =>
      rw [hws] at henc
      obtain rfl := Except.ok.inj henc
      exact ⟨ws, greedyWords_of_s16Words h hws, (wordBytes_eq ws).symm⟩
  | streamVByte =>
    rw [encOf_streamVByte] at henc
    exact (Except.ok.inj henc).symm

/-- The model's test of the bytes a decode consumed, by re-encoding, is the rule's (R16, U1): decode inverts encode. -/
theorem canonicalBytes_iff {c : Codec} {cat : Catalog} (hcat : cat.wf) {eb : Memory} (heb : eb.wf) {p n : Nat}
    {d : Decoded} (hd : decOf c cat eb p n = .ok d) :
    canonicalBytes c cat eb p d = true ↔ Canonical c cat eb p n d.past := by
  constructor
  · intro h
    rw [canonicalBytes] at h
    split at h
    · rename_i bs henc
      exact ⟨d.vals, bs, decOf_vals_length hd, encodesTo_of_encOf hcat henc, of_decide_eq_true h⟩
    · cases h
  · rintro ⟨v, bs, rfl, henc, hbs⟩
    have hok := encOf_of_encodesTo hcat henc
    obtain ⟨hholds, -⟩ := Memory.holds_of_bytesAt heb hbs
    obtain ⟨us, hdec⟩ := decOf_encOf hcat hok hholds
    obtain rfl := Except.ok.inj (hd.symm.trans hdec)
    exact canonicalBytes_of_holds hok hholds us

/-- The build gives a decode with these results a meaning: it does not refuse its bytes (U1). -/
def Accepts (c : Codec) (p : Params) (eb : Memory) (cur : Nat) (d : Decoded) : Prop :=
  ¬ (p.noncanonical = .refuse ∧ canonicalBytes c p.catalog eb cur d = false)

theorem accepts_of_natural {p : Params} (h : p.noncanonical = .natural) (c : Codec) (eb : Memory) (cur : Nat)
    (d : Decoded) : Accepts c p eb cur d := by
  rintro ⟨hrefuse, -⟩
  rw [h] at hrefuse
  cases hrefuse

theorem accepts_of_canonicalBytes {c : Codec} {p : Params} {eb : Memory} {cur : Nat} {d : Decoded}
    (h : canonicalBytes c p.catalog eb cur d = true) : Accepts c p eb cur d := by
  rintro ⟨-, hnot⟩
  rw [h] at hnot
  cases hnot

theorem accepts_of_build {c : Codec} {p : Params} (hcat : p.catalog.wf) {eb : Memory} (heb : eb.wf) {cur n : Nat}
    {d : Decoded} (hd : decOf c p.catalog eb cur n = .ok d)
    (hbuild : p.noncanonical = .natural ∨ Canonical c p.catalog eb cur n d.past) : Accepts c p eb cur d := by
  rcases hbuild with hnat | hcan
  · exact accepts_of_natural hnat c eb cur d
  · exact accepts_of_canonicalBytes ((canonicalBytes_iff hcat heb hd).2 hcan)

/-! Running a decoder, by what its `Dec` answers and whether the build accepts the bytes. -/

section
variable {c : Codec} {n : Nat} {s : State}

theorem withDecoded_of_error {a : Nat} (hd : decOf c s.params.catalog s.eb s.cur.toNat n = .error a)
    (k : Decoded → Answer) : withDecoded c n s k = fail .decodeUnderrun (BitVec.ofNat 32 a) s := by
  rw [withDecoded, hd]

theorem withDecoded_of_accepts {d : Decoded} (hd : decOf c s.params.catalog s.eb s.cur.toNat n = .ok d)
    (hacc : Accepts c s.params s.eb s.cur.toNat d) (k : Decoded → Answer) : withDecoded c n s k = k d := by
  rw [withDecoded, hd]
  exact if_neg hacc

theorem accepts_of_withDecoded {d : Decoded} (hd : decOf c s.params.catalog s.eb s.cur.toNat n = .ok d)
    {k : Decoded → Answer} {t : State} (h : withDecoded c n s k = .next t) : Accepts c s.params s.eb s.cur.toNat d := by
  intro hnot
  have hrefused : withDecoded c n s k = .refused .noncanonicalDecode := by
    rw [withDecoded, hd]
    exact if_pos hnot
  rw [hrefused] at h
  cases h

theorem withDecoded_of_refused {d : Decoded} (hd : decOf c s.params.catalog s.eb s.cur.toNat n = .ok d)
    (hcat : s.params.catalog.wf) (heb : s.eb.wf) (hrefuse : s.params.noncanonical = .refuse)
    (hnot : ¬ Canonical c s.params.catalog s.eb s.cur.toNat n d.past) (k : Decoded → Answer) :
    withDecoded c n s k = .refused .noncanonicalDecode := by
  rw [withDecoded, hd]
  rw [← canonicalBytes_iff hcat heb hd, Bool.not_eq_true] at hnot
  exact if_pos ⟨hrefuse, hnot⟩

end

theorem blockDecode_eq_withDecoded {c : Codec} {n : BitVec 8} {s : State} (hf : s.fault = .noFault)
    (hn : countLegal n) : blockDecode c n s = withDecoded c n.toNat s fun d => .next (s.writeDecoded d) := by
  rw [blockDecode, ifAccepting_ready hf, withCount_legal hn]

/-- A decode that completes was of bytes the build accepts. -/
theorem blockDecode_accepts {c : Codec} {n : BitVec 8} {s t : State} (hf : s.fault = .noFault)
    (h : blockDecode c n s = .next t) (ht : t.fault = .noFault) :
    ∃ d, decOf c s.params.catalog s.eb s.cur.toNat n.toNat = .ok d ∧ Accepts c s.params s.eb s.cur.toNat d ∧
      t = s.writeDecoded d := by
  obtain ⟨hn, d, hd, rfl⟩ := blockDecode_completes hf h ht
  rw [blockDecode_eq_withDecoded hf hn] at h
  exact ⟨d, hd, accepts_of_withDecoded hd h, rfl⟩

/-! The scratch a decode leaves. -/

theorem foldl_absorb_words (cat : Catalog) (ws : List Word) (sc : Scratch) :
    ∃ tmp, (ws.map .word).foldl (Scratch.absorb cat) sc = { sc with tmp := tmp } := by
  induction ws generalizing sc with
  | nil =>
    cases sc
    exact ⟨_, rfl⟩
  | cons w ws ih =>
    obtain ⟨tmp, htmp⟩ := ih (sc.absorb cat (.word w))
    rw [List.map_cons, List.foldl_cons, htmp, Scratch.absorb]
    exact ⟨tmp, rfl⟩

theorem foldl_absorb_tags (cat : Catalog) (cs : List Byte) (sc : Scratch) :
    ∃ lens, (cs.map .tags).foldl (Scratch.absorb cat) sc = { sc with lens := lens } := by
  induction cs generalizing sc with
  | nil =>
    cases sc
    exact ⟨_, rfl⟩
  | cons c cs ih =>
    obtain ⟨lens, hlens⟩ := ih (sc.absorb cat (.tags c))
    rw [List.map_cons, List.foldl_cons, hlens, Scratch.absorb]
    exact ⟨lens, rfl⟩

theorem foldl_absorb_stg (cat : Catalog) (us : List DataUnit) (sc : Scratch) :
    (us.foldl (Scratch.absorb cat) sc).stg = sc.stg := by
  induction us generalizing sc with
  | nil => rfl
  | cons u us ih =>
    rw [List.foldl_cons, ih]
    cases u <;> rw [Scratch.absorb]

/-! The commands. -/

/-- Settles O24: `Dec` answers the words' values and the build accepts them, or it fails at the missing word. -/
theorem s16DecodeResult : Obligations.S16DecodeResult := by
  intro s n hinv hf hn
  have hcat : s.params.catalog.wf := hinv.params.2.2.2
  have hexec : exec (.s16Dec n) s = withDecoded .simple16 n.toNat s fun d => .next (s.writeDecoded d) :=
    (exec_decodeCommandOf .simple16 n s).trans (blockDecode_eq_withDecoded hf hn)
  rw [hexec]
  refine ⟨fun d q hreads hbuild => ?_, fun a hshort => ?_⟩
  · obtain ⟨ws, hd⟩ := s16Dec_of_reads hcat hreads
    obtain ⟨tmp, htmp⟩ := foldl_absorb_words s.params.catalog ws s.scratch
    rw [withDecoded_of_accepts hd (accepts_of_build hcat hinv.ebWf hd hbuild), State.writeDecoded, htmp]
    exact ⟨_, tmp, rfl, slotsWritten_overwrite _ _⟩
  · exact withDecoded_of_error (decOf_of_short hcat hinv.ebWf (c := .simple16) hshort) _

/-- Settles O30: `Dec` answers the groups' values and the build accepts them, or it fails at the missing bytes. -/
theorem svbDecodeResult : Obligations.SvbDecodeResult := by
  intro s n hinv hf hn
  have hcat : s.params.catalog.wf := hinv.params.2.2.2
  have hexec : exec (.svbDec n) s = withDecoded .streamVByte n.toNat s fun d => .next (s.writeDecoded d) :=
    (exec_decodeCommandOf .streamVByte n s).trans (blockDecode_eq_withDecoded hf hn)
  rw [hexec]
  refine ⟨fun d q hlen hreads hbuild => ?_, fun a hshort => ?_⟩
  · obtain ⟨cs, hd⟩ := svbDec_of_reads (cat := s.params.catalog) hinv.ebWf hlen hreads
    obtain ⟨lens, hlens⟩ := foldl_absorb_tags s.params.catalog cs s.scratch
    rw [withDecoded_of_accepts hd (accepts_of_build hcat hinv.ebWf hd hbuild), State.writeDecoded, hlens]
    exact ⟨_, lens, rfl, slotsWritten_overwrite _ _⟩
  · exact withDecoded_of_error (decOf_of_short hcat hinv.ebWf (c := .streamVByte) hshort) _

/-- Settles O39: `Dec` answers what stands there, and the build's test of the bytes is the rule's. -/
theorem refuseBuildNeedsCanonicalBytes : Obligations.RefuseBuildNeedsCanonicalBytes := by
  intro c n s d q hinv hf hn hrefuse hreads
  have hcat : s.params.catalog.wf := hinv.params.2.2.2
  obtain ⟨us, hd⟩ := decOf_of_reads hcat hinv.ebWf hreads
  rw [exec_decodeCommandOf, blockDecode_eq_withDecoded hf hn]
  refine ⟨fun hcan => ?_, fun hnot => withDecoded_of_refused hd hcat hinv.ebWf hrefuse hnot _⟩
  rw [withDecoded_of_accepts hd (accepts_of_build hcat hinv.ebWf hd (.inr hcan))]
  exact ⟨_, _, rfl, slotsWritten_overwrite _ _, foldl_absorb_stg _ _ _⟩

/-- Settles O40: `Dec` reads at least one byte and only bytes that exist. -/
theorem completedDecodeKeepsCursorInside : Obligations.CompletedDecodeKeepsCursorInside := by
  intro c n s t hinv hf h ht
  rw [exec_decodeCommandOf] at h
  obtain ⟨hn, d', hd', rfl⟩ := blockDecode_completes hf h ht
  obtain ⟨d, hd, -, hcur⟩ := blockDecode_result hinv hf h ht
  have hpast := decOf_past hn.1 hd
  rwa [hcur, State.writeDecoded_eb]

/-- Settles O35: the bytes of both blocks stand in the later buffer, and a decode leaves the buffer and the parameters
as they were, so the round trip applies to each block in turn. -/
theorem twoBlocksDecodeIndependently : Obligations.TwoBlocksDecodeIndependently := by
  intro c1 c2 n1 n2 a a' b b' u hainv haf hn1 ha hat hbinv hbf hn2 hb hbt hbeb hbparams huf huparams huw hpre hcur
  obtain ⟨-, -, haparams, -, -⟩ := commandsNeverTouch _ _ _ ha
  obtain ⟨-, -, hbparams', -, -⟩ := commandsNeverTouch _ _ _ hb
  have hpre1 : a'.eb <+: u.eb := hbeb ▸ (exec_extends hb).eb.trans hpre
  obtain ⟨u1, hu1, hu1f, hslots1, hcur1⟩ :=
    blockRoundTrip c1 n1 a a' u hainv haf hn1 ha hat huf (huparams.trans haparams.symm) huw hpre1 hcur
  obtain ⟨-, d, -, hu1eq⟩ := blockDecode_completes huf ((exec_decodeCommandOf c1 n1 u).symm.trans hu1) hu1f
  have hu1eb : u1.eb = u.eb := by rw [hu1eq, State.writeDecoded_eb]
  have hu1params : u1.params = b'.params := by
    rw [hu1eq, State.writeDecoded_params, huparams, hbparams', hbparams]
  rw [← hbeb] at hcur1
  obtain ⟨u2, hu2, hu2f, hslots2, hcur2⟩ :=
    blockRoundTrip c2 n2 b b' u1 hbinv hbf hn2 hb hbt hu1f hu1params (hu1eb ▸ huw) (hu1eb ▸ hpre) hcur1
  exact ⟨u1, u2, hu1, hu2, hslots1, hcur1, hslots2, hcur2, hu2f⟩

end Sys2Proof.Machine
end

section
/-! The sizes of encoded blocks (R155, R182) and the source's boundary blocks (R158). -/

namespace Sys2Proof.Machine

open Sys2Proof.Terms

/-- A word takes at most 28 values (R104). -/
theorem length_le_greedyWords {cat : Catalog} (h : cat.wf) {v ws : List Word} (hws : S16Words cat v ws) :
    v.length ≤ 28 * ws.length := by
  induction hws with
  | done => exact Nat.le_refl _
  | word v ws s w _ _ _ _ _ ih =>
    have hcnt := cnt_le h s
    rw [List.length_drop] at ih
    rw [List.length_cons]
    omega

/-- Settles O25: the bytes appended are those of the greedy words, each of which takes 1 to 28 values. -/
theorem s16EncodeSize : Obligations.S16EncodeSize := by
  intro s t n hinv hf h ht
  have hcat : s.params.catalog.wf := hinv.params.2.2.2
  obtain ⟨hn, bs, henc, -, rfl⟩ :=
    blockEncode_completes hf ((exec_encodeCommand .simple16 n s).symm.trans h) ht
  obtain ⟨ws, hws, rfl⟩ := encodesTo_of_encOf hcat henc
  have hlow := length_le_greedyWords hcat hws
  have hhigh := greedyWords_length_le hcat hws
  rw [firstSlots_length hn.2] at hlow hhigh
  refine ⟨ws.length, ?_, by omega, hhigh⟩
  rw [State.appendEncoded_eb, Memory.append_length, wordBytes_length]

theorem groupData_length_bounds (vs : List Word) :
    vs.length ≤ (groupData vs).length ∧ (groupData vs).length ≤ 4 * vs.length := by
  induction vs with
  | nil => exact ⟨Nat.le_refl _, Nat.le_refl _⟩
  | cons x xs ih =>
    have hb := bytelen_bounds x
    rw [groupData_cons, List.length_append, leBytes_length, List.length_cons]
    omega

/-- Each group has one control byte, and each value one to four data bytes. -/
theorem svbEnc_length_bounds (v : List Word) : (v.length + 3) / 4 + v.length ≤ (svbEnc v).length ∧
    (svbEnc v).length ≤ (v.length + 3) / 4 + 4 * v.length := by
  rcases eq_or_ne v [] with rfl | hv
  · exact ⟨Nat.le_refl _, Nat.le_refl _⟩
  · have hpos := List.length_pos_iff.2 hv
    have hshorter : (v.drop 4).length < v.length := by
      rw [List.length_drop]
      omega
    have hgroup := groupData_length_bounds (v.take 4)
    have hrest := svbEnc_length_bounds (v.drop 4)
    rw [svbEnc_eq_group hv, List.length_append, svbGroup, List.length_cons]
    rw [List.length_take] at hgroup
    rw [List.length_drop] at hrest
    omega
termination_by v.length

/-- Settles O31: the bytes appended are those of the groups. -/
theorem svbEncodeSize : Obligations.SvbEncodeSize := by
  intro s t n hinv hf h ht
  obtain ⟨hn, bs, henc, -, rfl⟩ :=
    blockEncode_completes hf ((exec_encodeCommand .streamVByte n s).symm.trans h) ht
  obtain rfl := Except.ok.inj henc
  have hbounds := svbEnc_length_bounds (firstSlots s.inBuf n.toNat)
  rw [firstSlots_length hn.2] at hbounds
  rw [State.appendEncoded_eb, Memory.append_length]
  omega

/-! The boundary blocks. -/

theorem laneSum_zeros (width j n : Nat) : laneSum width j (List.replicate n 0) = 0 := by
  induction n generalizing j with
  | zero => rfl
  | succ n ih =>
    rw [List.replicate_succ, laneSum, ih]
    simp

/-- Zeros are packed 28 to a word of selector 0, and each word is 0. -/
theorem greedyWords_zeros {cat : Catalog} (h : cat.wf) (n : Nat) :
    S16Words cat (List.replicate n 0) (List.replicate ((n + 27) / 28) 0) := by
  rcases n.eq_zero_or_pos with rfl | hn
  · exact .done
  · have hcnt : (cat.layout 0).cnt = 28 := congrArg Layout.cnt h.2.1
    have hwords : (n + 27) / 28 = (n - 28 + 27) / 28 + 1 := by omega
    rw [hwords, List.replicate_succ]
    refine .word _ _ 0 0 (by simpa using hn.ne') (fun x hx => ?_) (fun t ht => absurd ht (Fin.not_lt_zero t)) ?_ ?_
    · rw [List.eq_of_mem_replicate (List.mem_of_mem_take hx)]
      exact Nat.two_pow_pos _
    · rw [laneTotal_eq_laneSum, List.take_replicate, laneSum_zeros]
      rfl
    · rw [hcnt, List.drop_replicate]
      exact greedyWords_zeros h (n - 28)

/-- 128 zeros are five words of 0. -/
theorem encOf_zeros {cat : Catalog} (h : cat.wf) :
    encOf .simple16 cat (List.replicate 128 0) = .ok (List.replicate 20 0) :=
  encOf_simple16_of_greedyWords h (greedyWords_zeros h 128)

theorem encOf_widest : encOf .simple16 Config.catalog [0x0FFFFFFF#32] = .ok (List.replicate 4 0xFF#8) := by
  decide

theorem firstSlots_zeros {b : Vector Word 128} (h : ∀ i : Fin 128, b[i] = 0) :
    firstSlots b 128 = List.replicate 128 0 := by
  refine List.ext_getElem (by simp [firstSlots]) fun i _ hi => ?_
  rw [List.length_replicate] at hi
  rw [firstSlots_getElem _ _ hi, List.getElem_replicate]
  exact h ⟨i, hi⟩

theorem firstSlots_one (b : Vector Word 128) : firstSlots b 1 = [b[0]] := by
  refine List.ext_getElem (firstSlots_length (by decide) b) fun i hi _ => ?_
  obtain rfl : i = 0 := by rw [firstSlots_length (by decide)] at hi; omega
  exact firstSlots_getElem _ _ (by decide)

/-- Settles O26: both blocks' bytes are computed, and they decode to the values again. -/
theorem s16BoundaryBlocks : Obligations.S16BoundaryBlocks := by
  intro s hinv hf hcat hfit
  refine ⟨fun hzero => ?_, fun hwide => ?_⟩
  · have hn : countLegal 128 := by decide
    have hvals : firstSlots s.inBuf (128 : BitVec 8).toNat = List.replicate 128 0 := firstSlots_zeros hzero
    have henc : encOf .simple16 s.params.catalog (firstSlots s.inBuf (128 : BitVec 8).toNat) =
        .ok (List.replicate 20 0) := by rw [hvals, encOf_zeros hinv.params.2.2.2]
    obtain ⟨u, hdec, huf, hout, hcur⟩ := blockDecode_appendEncoded hinv hf hn henc hfit
    refine ⟨_, u, blockEncode_of_fits hf hn henc hfit, appended_append hinv.ebWf _, hdec, fun i => ?_, huf, hcur⟩
    have hi := hout i.1 i.2
    rwa [hvals, dif_pos (by simp), List.getElem_replicate] at hi
  · have hn : countLegal 1 := by decide
    have hvals : firstSlots s.inBuf (1 : BitVec 8).toNat = [0x0FFFFFFF#32] := by
      rw [← hwide]
      exact firstSlots_one s.inBuf
    have henc : encOf .simple16 s.params.catalog (firstSlots s.inBuf (1 : BitVec 8).toNat) =
        .ok (List.replicate 4 0xFF#8) := by rw [hcat, hvals, encOf_widest]
    have hfit4 : s.eb.length + (List.replicate 4 0xFF#8).length ≤ s.params.ebCap := by
      rw [List.length_replicate]
      omega
    obtain ⟨u, hdec, huf, hout, hcur⟩ := blockDecode_appendEncoded hinv hf hn henc hfit4
    rw [hvals] at hout
    exact ⟨_, u, blockEncode_of_fits hf hn henc hfit4, appended_append hinv.ebWf _, hdec, hout 0 (by decide), huf, hcur⟩

end Sys2Proof.Machine
end

section
/-! The driver's steps (R204, R206) against the block commands, and what a step that completes did. -/

namespace Sys2Proof.Machine

open Sys2Proof.Terms

/-! The decode step. -/

theorem codecOf_eq_some {r : Word} {c : Codec} (h : codecOf r = some c) : r = codecNumber c := by
  rw [codecOf] at h
  split at h
  case isTrue h0 => cases h; exact h0
  case isFalse =>
    split at h
    case isTrue h1 => cases h; exact h1
    case isFalse => cases h

theorem decodeStep_eq_withDecoded {s : State} {c : Codec} (hrem : s.rem ≠ 0) (hc : s.codec = codecNumber c) :
    decodeStep s = withDecoded c s.stepSize s (finishDecodeStep s) := by
  rw [decodeStep, withStep_codec hrem hc]

theorem finishDecodeStep_of_full {s : State} (h : s.params.loutCap < s.lout.length + s.stepSize) (d : Decoded) :
    finishDecodeStep s d = fail .listOverflow s.loutLen s := if_pos h

theorem finishDecodeStep_of_room {s : State} (h : s.lout.length + s.stepSize ≤ s.params.loutCap) (d : Decoded) :
    finishDecodeStep s d = .next (s.commitDecodeStep d) := if_neg (Nat.not_lt.2 h)

theorem State.stepSize_eq (s : State) : s.stepSize = min 128 s.rem.toNat := rfl

theorem State.rem_sub_stepSize (s : State) :
    s.rem - BitVec.ofNat 32 s.stepSize = BitVec.ofNat 32 (s.rem.toNat - s.stepSize) := by
  have hle := s.stepSize_le_rem
  have hrem := s.rem.isLt
  rw [← BitVec.ofNat_sub_ofNat_of_le _ _ (by omega) hle, BitVec.ofNat_toNat, BitVec.setWidth_eq]

/-- The commit of a decode step with `REM` as a number. -/
theorem State.commitDecodeStep_eq (s : State) (d : Decoded) : s.commitDecodeStep d = { s.writeDecoded d with
    lout := s.lout ++ d.vals, rem := BitVec.ofNat 32 (s.rem.toNat - s.stepSize) } := by
  rw [State.commitDecodeStep, State.rem_sub_stepSize]

/-- Settles O41: past its checks the step is `Dec`, which fails, is refused, or finds `LOUT` full or with room. -/
theorem decodeStepResult : Obligations.DecodeStepResult := by
  intro s hinv hf
  have hcat : s.params.catalog.wf := hinv.params.2.2.2
  rw [exec_seqDstep hf]
  refine ⟨fun hrem => withStep_done hrem _, fun hrem h0 h1 => withStep_badCodec hrem h0 h1 _, fun c hrem hc => ?_⟩
  rw [decodeStep_eq_withDecoded hrem hc]
  refine ⟨fun a hshort => withDecoded_of_error (decOf_of_short hcat hinv.ebWf hshort) _, fun d q hreads => ?_⟩
  obtain ⟨us, hd⟩ := decOf_of_reads hcat hinv.ebWf hreads
  refine ⟨fun hbuild => ?_, fun hrefuse hnot => withDecoded_of_refused hd hcat hinv.ebWf hrefuse hnot _⟩
  rw [withDecoded_of_accepts (n := s.stepSize) hd (accepts_of_build hcat hinv.ebWf hd hbuild)]
  refine ⟨fun hfull => finishDecodeStep_of_full hfull _, fun hroom => ?_⟩
  rw [finishDecodeStep_of_room hroom, State.commitDecodeStep_eq, State.stepSize_eq, State.writeDecoded]
  exact ⟨_, _, rfl, slotsWritten_overwrite _ _, foldl_absorb_stg _ _ _⟩

/-- Settles O43: both run `Dec` on the same bytes and write the same values back. -/
theorem decodeStepIsBlockDecode : Obligations.DecodeStepIsBlockDecode := by
  intro c n s t hf hrem hc hn h ht hroom
  replace hn : n.toNat = s.stepSize := hn
  rw [exec_decodeCommandOf] at h
  obtain ⟨⟨-, hle⟩, -⟩ := blockDecode_completes hf h ht
  obtain ⟨d, hd, hacc, rfl⟩ := blockDecode_accepts hf h ht
  have hvals : firstSlots (s.writeDecoded d).outBuf n.toNat = d.vals := by
    have hlen := decOf_vals_length hd
    rw [State.writeDecoded_outBuf, ← hlen, firstSlots_overwrite (hlen.trans_le hle)]
  rw [hvals, hn, exec_seqDstep hf, decodeStep_eq_withDecoded hrem hc, ← State.commitDecodeStep_eq,
    ← finishDecodeStep_of_room (hn ▸ hroom)]
  exact withDecoded_of_accepts (hn ▸ hd) hacc _

/-- A decode step that completes is the commit of a block the build accepts. -/
theorem decodeStep_completes {s t : State} (h : decodeStep s = .next t) (ht : t.fault = .noFault) :
    ∃ c d, s.codec = codecNumber c ∧ decOf c s.params.catalog s.eb s.cur.toNat s.stepSize = .ok d ∧
      t = s.commitDecodeStep d := by
  rw [decodeStep] at h
  rcases withStep_cases s _ with ⟨-, e⟩ | ⟨-, -, e⟩ | ⟨c, -, hc, e⟩ <;> rw [e] at h
  · cases h; cases ht
  · cases h; cases ht
  · rcases withDecoded_cases c s.stepSize s (finishDecodeStep s) with ⟨a, -, e⟩ | ⟨d, hd, ⟨-, -, e⟩ | ⟨-, e⟩⟩ <;>
      rw [e] at h
    · cases h; cases ht
    · cases h
    · unfold finishDecodeStep at h
      split at h <;> cases h
      · cases ht
      · exact ⟨c, d, codecOf_eq_some hc, hd, rfl⟩

/-! The encode step. -/

theorem eq_overwrite_of_slotsWritten {α : Type} {n : Nat} {old new : Vector α n} {l : List α}
    (h : SlotsWritten old new l) : new = overwrite old l :=
  Vector.ext fun i hi => (h i hi).trans (slotsWritten_overwrite old l i hi).symm

/-- Settles O44: both run `Enc` on the chunk and append the same bytes. -/
theorem encodeStepIsBlockEncode : Obligations.EncodeStepIsBlockEncode := by
  intro c n s inb t hinv hf hrem hc hn hlist hslots h ht
  replace hn : n.toNat = s.stepSize := hn
  have hchunk : (s.lin.drop s.lrp.toNat).take n.toNat = s.chunk n.toNat := rfl
  rw [hchunk] at hslots h
  rw [exec_encodeCommand] at h
  obtain ⟨⟨-, hle⟩, bs, henc, hfit, rfl⟩ := blockEncode_completes (by exact hf) h ht
  obtain rfl := eq_overwrite_of_slotsWritten hslots
  have hlen : (s.chunk n.toNat).length = n.toNat := State.chunk_length hlist
  have hvals : firstSlots (overwrite s.inBuf (s.chunk n.toNat)) n.toNat = s.chunk n.toNat := by
    have hfirst := firstSlots_overwrite (hlen.trans_le hle) s.inBuf
    rwa [hlen] at hfirst
  replace henc : encOf c s.params.catalog (s.chunk n.toNat) = .ok bs := hvals ▸ henc
  rw [hn] at henc hlist
  rw [exec_seqEstep hf, encodeStep_eq_withEncoded hrem hc hlist, withEncoded_of_fits henc hfit,
    State.commitEncodeStep_eq, State.appendEncoded, hn]

/-- An encode step that completes is the commit of its chunk's bytes. -/
theorem encodeStep_completes {s t : State} (h : encodeStep s = .next t) (ht : t.fault = .noFault) :
    ∃ c bs, s.codec = codecNumber c ∧ s.lrp.toNat + s.stepSize ≤ s.lin.length ∧
      encOf c s.params.catalog (s.chunk s.stepSize) = .ok bs ∧ t = s.commitEncodeStep bs := by
  rw [encodeStep] at h
  rcases withStep_cases s _ with ⟨-, e⟩ | ⟨-, -, e⟩ | ⟨c, -, hc, e⟩ <;> rw [e] at h
  · cases h; cases ht
  · cases h; cases ht
  · split at h
    case isTrue => cases h; cases ht
    case isFalse hlist =>
      rcases withEncoded_cases c (s.chunk s.stepSize) s (fun bs => .next (s.commitEncodeStep bs)) with
        ⟨i, -, e⟩ | ⟨bs, -, -, e⟩ | ⟨bs, henc, -, e⟩ <;> rw [e] at h <;> cases h
      · cases ht
      · cases ht
      · exact ⟨c, bs, codecOf_eq_some hc, Nat.not_lt.1 hlist, henc, rfl⟩

end Sys2Proof.Machine
end

section
/-! Runs as loops of their step (R208 to R210): each iteration that records no fault lowers `REM` by its block size, so
`ceil(REM / 128)` iterations are enough, and the loop ends where its iterations lead. -/

namespace Sys2Proof.Machine

open Sys2Proof.Terms

/-- A completed step of the driver command `i` lowers `REM` by the block size. -/
def LowersRem (i : Instr) : Prop := ∀ s u : State, s.fault = .noFault → exec i s = .next u → u.fault = .noFault →
  u.rem.toNat = s.rem.toNat - min 128 s.rem.toNat

theorem State.toNat_rem_sub_stepSize (s : State) :
    (s.rem - BitVec.ofNat 32 s.stepSize).toNat = s.rem.toNat - min 128 s.rem.toNat := by
  have hrem := s.rem.isLt
  rw [State.rem_sub_stepSize, BitVec.toNat_ofNat, Nat.mod_eq_of_lt (by omega)]
  rfl

theorem lowersRem_seqDstep : LowersRem .seqDstep := by
  intro s u hf h hu
  obtain ⟨c, d, -, -, rfl⟩ := decodeStep_completes ((exec_seqDstep hf).symm.trans h) hu
  rw [State.commitDecodeStep_rem, State.toNat_rem_sub_stepSize]

theorem lowersRem_seqEstep : LowersRem .seqEstep := by
  intro s u hf h hu
  obtain ⟨c, bs, -, -, -, rfl⟩ := encodeStep_completes ((exec_seqEstep hf).symm.trans h) hu
  rw [State.commitEncodeStep_rem, State.toNat_rem_sub_stepSize]

/-! One iteration. -/

theorem driverLoop_stop {i : Instr} {fuel : Nat} {s : State} (h : s.rem = 0 ∨ s.fault ≠ .noFault) :
    driverLoop i fuel s = .next s := by
  cases fuel with
  | zero => rfl
  | succ fuel => exact if_neg fun hgo => h.elim hgo.1 fun hf => hf hgo.2

theorem driverLoop_next {i : Instr} {fuel : Nat} {s u : State} (hrem : s.rem ≠ 0) (hf : s.fault = .noFault)
    (h : exec i s = .next u) : driverLoop i (fuel + 1) s = driverLoop i fuel u := by
  rw [driverLoop, if_pos ⟨hrem, hf⟩, h]

theorem driverLoop_refused {i : Instr} {fuel : Nat} {s : State} {r : Refusal} (hrem : s.rem ≠ 0)
    (hf : s.fault = .noFault) (h : exec i s = .refused r) : driverLoop i (fuel + 1) s = .refused r := by
  rw [driverLoop, if_pos ⟨hrem, hf⟩, h]

/-! Enough iterations. -/

/-- `fuel` iterations are enough from `s`: it has a fault recorded, or `REM` is at most 128 for each. -/
def Enough (fuel : Nat) (s : State) : Prop := s.fault = .noFault → s.rem.toNat ≤ 128 * fuel

theorem enough_runFuel (s : State) : Enough s.runFuel s := fun _ => by
  rw [State.runFuel]
  omega

theorem Enough.pos {fuel : Nat} {s : State} (h : Enough fuel s) (hrem : s.rem ≠ 0) (hf : s.fault = .noFault) :
    ∃ k, fuel = k + 1 := by
  have hle := h hf
  have hne : s.rem.toNat ≠ 0 := fun hz => hrem (BitVec.eq_of_toNat_eq hz)
  exact ⟨fuel - 1, by omega⟩

theorem Enough.next {i : Instr} (hi : LowersRem i) {fuel : Nat} {s u : State} (h : Enough (fuel + 1) s)
    (hf : s.fault = .noFault) (hstep : exec i s = .next u) : Enough fuel u := fun hu => by
  have hle := h hf
  rw [hi s u hf hstep hu]
  omega

/-! Whole runs. -/

section
variable {i : Instr} (hi : LowersRem i)
include hi

/-- A loop goes on from wherever its iterations lead. -/
theorem driverLoop_iterates {k : Nat} {s u : State} (h : Iterates i k s u) : ∀ {fuel : Nat}, Enough fuel s →
    ∃ fuel', Enough fuel' u ∧ driverLoop i fuel s = driverLoop i fuel' u := by
  induction h with
  | none s => exact fun {fuel} hfuel => ⟨fuel, hfuel, rfl⟩
  | more k s v u hrem hf hstep _ ih =>
    intro fuel hfuel
    obtain ⟨fuel, rfl⟩ := hfuel.pos hrem hf
    obtain ⟨fuel', hfuel', hloop⟩ := ih (hfuel.next hi hf hstep)
    exact ⟨fuel', hfuel', (driverLoop_next hrem hf hstep).trans hloop⟩

theorem driverLoop_of_iterates {k fuel : Nat} {s u : State} (h : Iterates i k s u) (hfuel : Enough fuel s)
    (hu : u.rem = 0 ∨ u.fault ≠ .noFault) : driverLoop i fuel s = .next u := by
  obtain ⟨fuel', -, hloop⟩ := driverLoop_iterates hi h hfuel
  rw [hloop, driverLoop_stop hu]

theorem driverLoop_of_iterates_refused {k fuel : Nat} {s u : State} {r : Refusal} (h : Iterates i k s u)
    (hfuel : Enough fuel s) (hrem : u.rem ≠ 0) (hf : u.fault = .noFault) (hu : exec i u = .refused r) :
    driverLoop i fuel s = .refused r := by
  obtain ⟨fuel', hfuel', hloop⟩ := driverLoop_iterates hi h hfuel
  obtain ⟨fuel', rfl⟩ := hfuel'.pos hrem hf
  rw [hloop, driverLoop_refused hrem hf hu]

/-- A loop that answers made at most as many iterations as it was given, and ended in Done or a fault. -/
theorem iterates_of_driverLoop {fuel : Nat} {s t : State} (hfuel : Enough fuel s)
    (h : driverLoop i fuel s = .next t) :
    ∃ k, k ≤ fuel ∧ Iterates i k s t ∧ (t.rem = 0 ∨ t.fault ≠ .noFault) := by
  induction fuel generalizing s with
  | zero =>
    cases h
    refine ⟨0, Nat.le_refl 0, .none _, or_iff_not_imp_right.2 fun hf => ?_⟩
    exact BitVec.eq_of_toNat_eq (Nat.le_zero.1 (hfuel (not_not.1 hf)))
  | succ fuel ih =>
    by_cases hstop : s.rem = 0 ∨ s.fault ≠ .noFault
    · rw [driverLoop_stop hstop] at h
      cases h
      exact ⟨0, Nat.zero_le _, .none _, hstop⟩
    · obtain ⟨hrem, hf⟩ := not_or.1 hstop
      rw [not_not] at hf
      cases hstep : exec i s with
      | next u =>
        rw [driverLoop_next hrem hf hstep] at h
        obtain ⟨k, hk, hiter, ht⟩ := ih (hfuel.next hi hf hstep) h
        exact ⟨k + 1, Nat.succ_le_succ hk, .more k s u t hrem hf hstep hiter, ht⟩
      | fault e | refused e =>
        rw [driverLoop, if_pos ⟨hrem, hf⟩, hstep] at h
        cases h

end

/-- Settles O48: the loop's fuel is the bound, and it is enough. -/
theorem runsTerminate : Obligations.RunsTerminate := by
  intro s t hf
  rw [exec_seqDrun hf, exec_seqErun hf]
  exact ⟨iterates_of_driverLoop lowersRem_seqDstep (enough_runFuel s),
    iterates_of_driverLoop lowersRem_seqEstep (enough_runFuel s)⟩

/-- Settles O56: the loop goes on from wherever its iterations lead, with iterations enough left. -/
theorem runsFollowTheirSteps : Obligations.RunsFollowTheirSteps := by
  intro k s u hf
  rw [exec_seqDrun hf, exec_seqErun hf]
  exact ⟨fun h => driverLoop_of_iterates lowersRem_seqDstep h (enough_runFuel s),
    fun h => driverLoop_of_iterates lowersRem_seqEstep h (enough_runFuel s),
    fun r h => driverLoop_of_iterates_refused lowersRem_seqDstep h (enough_runFuel s)⟩

/-- Settles O45: a loop stops at once in Done, and a faulted block drops the command. -/
theorem emptyRunDoesNothing : Obligations.EmptyRunDoesNothing := by
  intro s hrem
  by_cases hf : s.fault = .noFault
  · rw [exec_seqDrun hf, exec_seqErun hf]
    exact ⟨driverLoop_stop (.inl hrem), driverLoop_stop (.inl hrem)⟩
  · exact ⟨exec_faulted hf _, exec_faulted hf _⟩

end Sys2Proof.Machine
end

section
/-! Every instruction answers in a `natural` build: only a decode can be refused, and only for its bytes (U1). -/

namespace Sys2Proof.Machine

/-- An outcome that is a next state. -/
def Answers (a : Answer) : Prop := ∃ t, a = .next t

theorem answers_next (t : State) : Answers (.next t) := ⟨t, rfl⟩

theorem answers_fail (f : Cause) (info : Word) (s : State) : Answers (fail f info s) := ⟨_, rfl⟩

theorem answers_ifAccepting {s : State} {k : Answer} (h : Answers k) : Answers (ifAccepting s k) := by
  rw [ifAccepting]
  split
  · exact h
  · exact answers_next s

theorem answers_withCount {n : BitVec 8} {s : State} {k : Nat → Answer} (h : ∀ m, Answers (k m)) :
    Answers (withCount n s k) := by
  rw [withCount]
  split
  · exact h _
  · exact answers_fail _ _ s

theorem answers_withStep {s : State} {k : Codec → Answer} (h : ∀ c, Answers (k c)) : Answers (withStep s k) := by
  rcases withStep_cases s k with ⟨-, e⟩ | ⟨-, -, e⟩ | ⟨c, -, -, e⟩ <;> rw [e]
  · exact answers_next _
  · exact answers_next _
  · exact h c

theorem answers_withEncoded {c : Codec} {v : List Word} {s : State} {k : List Byte → Answer}
    (h : ∀ bs, Answers (k bs)) : Answers (withEncoded c v s k) := by
  rcases withEncoded_cases c v s k with ⟨i, -, e⟩ | ⟨bs, -, -, e⟩ | ⟨bs, -, -, e⟩ <;> rw [e]
  · exact answers_next _
  · exact answers_next _
  · exact h bs

theorem answers_encodeStep (s : State) : Answers (encodeStep s) := by
  refine answers_withStep fun c => ?_
  split
  · exact answers_fail _ _ s
  · exact answers_withEncoded fun bs => answers_next _

section
variable {s : State} (hnat : s.params.noncanonical = .natural)
include hnat

theorem answers_withDecoded {c : Codec} {n : Nat} {k : Decoded → Answer} (h : ∀ d, Answers (k d)) :
    Answers (withDecoded c n s k) := by
  cases hd : decOf c s.params.catalog s.eb s.cur.toNat n with
  | error a => exact ⟨_, withDecoded_of_error hd k⟩
  | ok d =>
    rw [withDecoded_of_accepts hd (accepts_of_natural hnat c s.eb s.cur.toNat d)]
    exact h d

theorem answers_decodeStep : Answers (decodeStep s) := by
  refine answers_withStep fun c => answers_withDecoded hnat fun d => ?_
  rw [finishDecodeStep]
  split
  · exact answers_fail _ _ s
  · exact answers_next _

theorem answers_blockDecode (c : Codec) (n : BitVec 8) : Answers (blockDecode c n s) :=
  answers_ifAccepting (answers_withCount fun _ => answers_withDecoded hnat fun _ => answers_next _)

end

theorem answers_blockEncode (c : Codec) (n : BitVec 8) (s : State) : Answers (blockEncode c n s) :=
  answers_ifAccepting (answers_withCount fun _ => answers_withEncoded fun _ => answers_next _)

/-- A loop answers when its step does: no step changes the build's parameters. -/
theorem answers_driverLoop {i : Instr}
    (hi : ∀ s : State, s.params.noncanonical = .natural → Answers (exec i s)) {fuel : Nat} {s : State}
    (hnat : s.params.noncanonical = .natural) : Answers (driverLoop i fuel s) := by
  induction fuel generalizing s with
  | zero => exact answers_next s
  | succ fuel ih =>
    by_cases hstop : s.rem = 0 ∨ s.fault ≠ .noFault
    · rw [driverLoop_stop hstop]
      exact answers_next s
    · obtain ⟨hrem, hf⟩ := not_or.1 hstop
      obtain ⟨u, hu⟩ := hi s hnat
      obtain ⟨-, -, hparams, -, -⟩ := commandsNeverTouch i s u hu
      rw [driverLoop_next hrem (not_not.1 hf) hu]
      exact ih (hparams ▸ hnat)

theorem answers_decodeLoop {fuel : Nat} {s : State} (hnat : s.params.noncanonical = .natural) :
    Answers (decodeLoop fuel s) := by
  rw [decodeLoop_eq_driverLoop]
  exact answers_driverLoop (i := .seqDstep) (fun _ h => answers_ifAccepting (answers_decodeStep h)) hnat

theorem answers_encodeLoop {fuel : Nat} {s : State} (hnat : s.params.noncanonical = .natural) :
    Answers (encodeLoop fuel s) := by
  rw [encodeLoop_eq_driverLoop]
  exact answers_driverLoop (i := .seqEstep) (fun s _ => answers_ifAccepting (answers_encodeStep s)) hnat

/-- Settles O54: each command's arm answers. -/
theorem everyInstructionAnswers : Obligations.EveryInstructionAnswers := by
  intro i s hnat
  cases i
  case s16Enc n | svbEnc n => exact answers_blockEncode _ n s
  case s16Dec n | svbDec n => exact answers_blockDecode hnat _ n
  case seqDstep => exact answers_ifAccepting (answers_decodeStep hnat)
  case seqEstep => exact answers_ifAccepting (answers_encodeStep s)
  case seqDrun => exact answers_ifAccepting (answers_decodeLoop hnat)
  case seqErun => exact answers_ifAccepting (answers_encodeLoop hnat)
  all_goals exact answers_ifAccepting (answers_next _)

end Sys2Proof.Machine
end

section
/-! No result depends on scratch (R41): each shared operation answers the same, scratch apart, from a state whose
scratch is overwritten. -/

namespace Sys2Proof.Machine

open Sys2Proof.Terms

/-- The state with other contents of scratch. -/
def State.withScratch (y : Scratch) (s : State) : State := { s with scratch := y }

@[simp] theorem State.withScratch_params (y : Scratch) (s : State) : (s.withScratch y).params = s.params := rfl
@[simp] theorem State.withScratch_eb (y : Scratch) (s : State) : (s.withScratch y).eb = s.eb := rfl
@[simp] theorem State.withScratch_codec (y : Scratch) (s : State) : (s.withScratch y).codec = s.codec := rfl
@[simp] theorem State.withScratch_cur (y : Scratch) (s : State) : (s.withScratch y).cur = s.cur := rfl

theorem State.withScratch_withScratch (x y : Scratch) (s : State) :
    (s.withScratch x).withScratch y = s.withScratch y := rfl

/-- Two answers that are the same but for what scratch holds. -/
def SameButScratch (a b : Answer) : Prop := ∀ y, onNext (State.withScratch y) a = onNext (State.withScratch y) b

theorem SameButScratch.refl (a : Answer) : SameButScratch a a := fun _ => rfl

theorem sameButScratch_next {t u : State} (h : ∀ y, t.withScratch y = u.withScratch y) :
    SameButScratch (.next t) (.next u) := fun y => congrArg Host.Outcome.next (h y)

theorem sameButScratch_fail (f : Cause) (info : Word) (s : State) (x : Scratch) :
    SameButScratch (fail f info (s.withScratch x)) (fail f info s) := sameButScratch_next fun _ => rfl

theorem sameButScratch_ite {p : Prop} [Decidable p] {a b a' b' : Answer} (h : SameButScratch a a')
    (h' : SameButScratch b b') : SameButScratch (if p then a else b) (if p then a' else b') := by
  split
  · exact h
  · exact h'

section
variable (s : State) (x : Scratch)

theorem sameButScratch_ifAccepting {k k' : Answer} (h : SameButScratch k k') :
    SameButScratch (ifAccepting (s.withScratch x) k) (ifAccepting s k') :=
  sameButScratch_ite h (sameButScratch_next fun _ => rfl)

theorem sameButScratch_withCount (n : BitVec 8) {k k' : Nat → Answer} (h : ∀ m, SameButScratch (k m) (k' m)) :
    SameButScratch (withCount n (s.withScratch x) k) (withCount n s k') :=
  sameButScratch_ite (h _) (sameButScratch_fail _ _ s x)

theorem sameButScratch_withStep {k k' : Codec → Answer} (h : ∀ c, SameButScratch (k c) (k' c)) :
    SameButScratch (withStep (s.withScratch x) k) (withStep s k') := by
  refine sameButScratch_ite (sameButScratch_fail _ _ s x) ?_
  rw [State.withScratch_codec]
  cases codecOf s.codec with
  | none => exact sameButScratch_fail _ _ s x
  | some c => exact h c

theorem sameButScratch_withEncoded (c : Codec) (v : List Word) {k k' : List Byte → Answer}
    (h : ∀ bs, SameButScratch (k bs) (k' bs)) :
    SameButScratch (withEncoded c v (s.withScratch x) k) (withEncoded c v s k') := by
  simp only [withEncoded, State.withScratch_params, State.withScratch_eb]
  cases encOf c s.params.catalog v with
  | error i => exact sameButScratch_fail _ _ s x
  | ok bs => exact sameButScratch_ite (sameButScratch_fail _ _ s x) (h bs)

theorem sameButScratch_withDecoded (c : Codec) (n : Nat) {k k' : Decoded → Answer}
    (h : ∀ d, SameButScratch (k d) (k' d)) :
    SameButScratch (withDecoded c n (s.withScratch x) k) (withDecoded c n s k') := by
  simp only [withDecoded, State.withScratch_params, State.withScratch_eb, State.withScratch_cur]
  cases decOf c s.params.catalog s.eb s.cur.toNat n with
  | error a => exact sameButScratch_fail _ _ s x
  | ok d => exact sameButScratch_ite (.refl _) (h d)

theorem sameButScratch_blockEncode (c : Codec) (n : BitVec 8) :
    SameButScratch (blockEncode c n (s.withScratch x)) (blockEncode c n s) :=
  sameButScratch_ifAccepting s x (sameButScratch_withCount s x n fun _ =>
    sameButScratch_withEncoded s x c _ fun _ => sameButScratch_next fun _ => rfl)

theorem sameButScratch_blockDecode (c : Codec) (n : BitVec 8) :
    SameButScratch (blockDecode c n (s.withScratch x)) (blockDecode c n s) :=
  sameButScratch_ifAccepting s x (sameButScratch_withCount s x n fun _ =>
    sameButScratch_withDecoded s x c _ fun _ => sameButScratch_next fun _ => rfl)

theorem sameButScratch_presentUnit (u : DataUnit) :
    SameButScratch (presentUnit u (s.withScratch x)) (presentUnit u s) :=
  sameButScratch_ifAccepting s x (sameButScratch_next fun y =>
    (State.withScratch_withScratch _ y _).trans (State.withScratch_withScratch _ y s).symm)

theorem sameButScratch_decodeStep : SameButScratch (decodeStep (s.withScratch x)) (decodeStep s) :=
  sameButScratch_withStep s x fun c => sameButScratch_withDecoded s x c _ fun _ =>
    sameButScratch_ite (sameButScratch_fail _ _ s x) (sameButScratch_next fun _ => rfl)

theorem sameButScratch_encodeStep : SameButScratch (encodeStep (s.withScratch x)) (encodeStep s) :=
  sameButScratch_withStep s x fun c => sameButScratch_ite (sameButScratch_fail _ _ s x)
    (sameButScratch_withEncoded s x c _ fun _ => sameButScratch_next fun _ => rfl)

end

/-- States that are the same but for scratch differ by an overwriting of scratch. -/
theorem SameButScratch.eq_withScratch {t u : State} (h : SameButScratch (.next t) (.next u)) :
    t = u.withScratch t.scratch := Host.Outcome.next.inj (h t.scratch)

/-- Loops from states that are the same but for scratch stay so when their step does. -/
theorem sameButScratch_driverLoop {i : Instr}
    (hi : ∀ (s : State) (x : Scratch), SameButScratch (exec i (s.withScratch x)) (exec i s)) (fuel : Nat) (s : State)
    (x : Scratch) : SameButScratch (driverLoop i fuel (s.withScratch x)) (driverLoop i fuel s) := by
  induction fuel generalizing s x with
  | zero => exact sameButScratch_next fun _ => rfl
  | succ fuel ih =>
    refine sameButScratch_ite ?_ (sameButScratch_next fun _ => rfl)
    have hstep := hi s x
    cases ha : exec i (s.withScratch x) with
    | next t =>
      cases hb : exec i s with
      | next u =>
        rw [ha, hb] at hstep
        rw [hstep.eq_withScratch]
        exact ih u t.scratch
      | fault e | refused e =>
        rw [ha, hb] at hstep
        cases hstep x
    | fault e | refused e =>
      cases hb : exec i s with
      | next u =>
        rw [ha, hb] at hstep
        cases hstep x
      | fault e' | refused e' =>
        rw [ha, hb] at hstep
        cases hstep x
        all_goals exact .refl _

theorem sameButScratch_seqDstep (s : State) (x : Scratch) :
    SameButScratch (exec .seqDstep (s.withScratch x)) (exec .seqDstep s) :=
  sameButScratch_ifAccepting s x (sameButScratch_decodeStep s x)

theorem sameButScratch_seqEstep (s : State) (x : Scratch) :
    SameButScratch (exec .seqEstep (s.withScratch x)) (exec .seqEstep s) :=
  sameButScratch_ifAccepting s x (sameButScratch_encodeStep s x)

theorem sameButScratch_exec (i : Instr) (s : State) (x : Scratch) :
    SameButScratch (exec i (s.withScratch x)) (exec i s) := by
  cases i
  case s16Enc n | svbEnc n => exact sameButScratch_blockEncode s x _ n
  case s16Dec n | svbDec n => exact sameButScratch_blockDecode s x _ n
  case seqDstep => exact sameButScratch_seqDstep s x
  case seqEstep => exact sameButScratch_seqEstep s x
  case seqDrun =>
    refine sameButScratch_ifAccepting s x ?_
    simp only [decodeLoop_eq_driverLoop]
    exact sameButScratch_driverLoop sameButScratch_seqDstep _ s x
  case seqErun =>
    refine sameButScratch_ifAccepting s x ?_
    simp only [encodeLoop_eq_driverLoop]
    exact sameButScratch_driverLoop sameButScratch_seqEstep _ s x
  all_goals exact sameButScratch_presentUnit s x _

/-- Settles O38: each command's answer from a state with other scratch is the same but for scratch. -/
theorem scratchNeverMatters : Obligations.ScratchNeverMatters := fun i s x => sameButScratch_exec i s x

end Sys2Proof.Machine
end

section
/-! What a run leaves in `IN` or `OUT` (R208, R209): the slots after its blocks one by one. -/

namespace Sys2Proof.Machine

open Sys2Proof.Terms

theorem slotsAfterRun_nil_iff {old new : Vector Word 128} : SlotsAfterRun old new [] ↔ new = old := by
  constructor
  · rintro (⟨hslots, -⟩ | ⟨hlt, -⟩)
    · rw [List.drop_nil] at hslots
      exact Vector.ext fun i hi => hslots i hi
    · cases hlt
  · rintro rfl
    refine .inl ⟨?_, Nat.zero_le _⟩
    rw [List.drop_nil]
    exact fun i hi => rfl

/-- One block, and nothing after it. -/
theorem slotsAfterRun_single {d : List Word} (h : d.length ≤ 128) (old : Vector Word 128) :
    SlotsAfterRun old (overwrite old d) d := by
  have hzero : (d.length - 1) / 128 * 128 = 0 := by omega
  refine .inl ⟨?_, h⟩
  rw [hzero]
  exact slotsWritten_overwrite old d

/-- A full block before others: it stands above a last block that is the second one, and leaves no trace of its own
under two or more. -/
theorem slotsAfterRun_cons {d ds : List Word} {old new : Vector Word 128} (hd : d.length = 128) (hds : ds ≠ [])
    (h : SlotsAfterRun (overwrite old d) new ds) : SlotsAfterRun old new (d ++ ds) := by
  have hpos := List.length_pos_iff.2 hds
  have hlen : (d ++ ds).length = ds.length + 128 := by rw [List.length_append, hd, Nat.add_comm]
  have hblocks : (ds.length + 128 - 1) / 128 = (ds.length - 1) / 128 + 1 := by omega
  refine .inr ⟨by omega, fun i hi => ?_⟩
  rw [hlen, hblocks]
  generalize hK : (ds.length - 1) / 128 = K
  rcases h with ⟨hslots, hle⟩ | ⟨hlt, hslots⟩
  · obtain rfl : K = 0 := by omega
    rw [hK, Nat.zero_mul, List.drop_zero] at hslots
    rw [hslots i hi, overwrite_getElem]
    split
    case isTrue h1 =>
      rw [if_pos (by omega), List.getElem?_append_right (by omega), List.getElem?_eq_getElem (by omega)]
      congr 2
      omega
    case isFalse h1 =>
      rw [if_neg (by omega), List.getElem?_append_left (by omega), List.getElem?_eq_getElem (by omega)]
      simp
  · rw [hslots i hi, hK]
    have hlast : ds.length + 128 - (K + 1) * 128 = ds.length - K * 128 := by omega
    rw [hlast, List.getElem?_append_right (by omega), List.getElem?_append_right (by omega), hd]
    have h1 : (K + 1) * 128 + i - 128 = K * 128 + i := by omega
    have h2 : (K + 1 - 1) * 128 + i - 128 = (K - 1) * 128 + i := by omega
    rw [h1, h2]

/-- A block and what a run does after it, nothing when the block is not full. -/
theorem slotsAfterRun_block {d ds : List Word} {old new : Vector Word 128} (hd : d.length ≤ 128)
    (hds : d.length < 128 → ds = []) (h : SlotsAfterRun (overwrite old d) new ds) :
    SlotsAfterRun old new (d ++ ds) := by
  rcases eq_or_ne ds [] with rfl | hne
  · obtain rfl := slotsAfterRun_nil_iff.1 h
    rw [List.append_nil]
    exact slotsAfterRun_single hd old
  · exact slotsAfterRun_cons (hd.antisymm (Nat.not_lt.1 fun hlt => hne (hds hlt))) hne h

end Sys2Proof.Machine
end

section
/-! Decode runs (R208): a list that `Dec` reads block by block, each accepted by the build, is decoded whole. -/

namespace Sys2Proof.Machine

open Sys2Proof.Terms

/-- `Dec` answers the blocks of a list of `len` values `ds` one after another from index `cur` up to `q`, and the build
accepts the bytes of each (R118, U1). -/
inductive DecodesRun (c : Codec) (p : Params) (eb : Memory) : Nat → Nat → List Word → Nat → Prop where
  | done (cur : Nat) : DecodesRun c p eb cur 0 [] cur
  | block (cur len : Nat) (d : Decoded) (ds : List Word) (q : Nat) (hlen : 0 < len)
      (hd : decOf c p.catalog eb cur (min 128 len) = .ok d) (hacc : Accepts c p eb cur d)
      (hrest : DecodesRun c p eb d.past (len - min 128 len) ds q) : DecodesRun c p eb cur len (d.vals ++ ds) q

section
variable {c : Codec} {p : Params} {eb : Memory}

theorem DecodesRun.length {cur len q : Nat} {ds : List Word} (h : DecodesRun c p eb cur len ds q) :
    ds.length = len := by
  induction h with
  | done => rfl
  | block cur len d ds q hlen hd _ _ ih =>
    have hvals := decOf_vals_length hd
    rw [List.length_append]
    omega

/-- The cursor goes forward and ends inside the buffer, unless nothing is read. -/
theorem DecodesRun.past {cur len q : Nat} {ds : List Word} (h : DecodesRun c p eb cur len ds q) :
    q = cur ∨ cur < q ∧ q ≤ eb.length := by
  induction h with
  | done => exact .inl rfl
  | block cur len d ds q hlen hd _ _ ih =>
    have hpast := decOf_past (by omega) hd
    omega

variable (hcat : p.catalog.wf)
include hcat

/-- What an encode run lays down is decoded whole in every build. -/
theorem decodesRun_of_encodesRun {v : List Word} {bs : List Byte} (h : EncodesRun c p.catalog v bs) :
    ∀ {cur : Nat}, eb.Holds cur bs → DecodesRun c p eb cur v.length v (cur + bs.length) := by
  induction h with
  | done => exact fun {cur} _ => .done cur
  | block v bs cs hne henc _ ih =>
    intro cur hholds
    have hok := encOf_of_encodesTo hcat henc
    obtain ⟨us, hd⟩ := decOf_encOf hcat hok hholds.left
    have hacc := accepts_of_canonicalBytes (canonicalBytes_of_holds hok hholds.left us)
    have hrest := ih hholds.right
    rw [List.length_take] at hd
    rw [List.length_drop, Nat.add_assoc, ← List.length_append] at hrest
    rw [show v.length - 128 = v.length - min 128 v.length by omega] at hrest
    have hrun := DecodesRun.block cur v.length _ (v.drop 128) _ (List.length_pos_iff.2 hne) hd hacc hrest
    rwa [List.take_append_drop] at hrun

/-- The first block of a canonical list is canonical, and so is what follows it. -/
theorem canonicalRun_split (heb : eb.wf) {cur len q : Nat} {d : Decoded} (hlen : 0 < len)
    (hd : decOf c p.catalog eb cur (min 128 len) = .ok d) (h : CanonicalRun c p.catalog eb cur len q) :
    Accepts c p eb cur d ∧ CanonicalRun c p.catalog eb d.past (len - min 128 len) q := by
  obtain ⟨v, bs, rfl, hrun, hbs⟩ := h
  obtain ⟨hholds, hbytes⟩ := Memory.holds_of_bytesAt heb hbs
  cases hrun with
  | done => exact absurd hlen (Nat.lt_irrefl 0)
  | block _ bs cs _ henc hrest =>
    have hok := encOf_of_encodesTo hcat henc
    obtain ⟨us, hd'⟩ := decOf_encOf hcat hok hholds.left
    rw [List.length_take, hd] at hd'
    obtain rfl := Except.ok.inj hd'
    refine ⟨accepts_of_canonicalBytes (canonicalBytes_of_holds hok hholds.left us), v.drop 128, cs, ?_, hrest, ?_⟩
    · rw [List.length_drop]
      omega
    · rw [List.length_append] at hbytes
      have hlen : q - (cur + bs.length) = cs.length := by omega
      dsimp only
      rw [hlen]
      exact hholds.right.bytesAt

theorem decodesRun_of_readsRun (heb : eb.wf) {cur len q : Nat} {ds : List Word}
    (h : ReadsRun c p.catalog eb cur len ds q)
    (hbuild : p.noncanonical = .natural ∨ CanonicalRun c p.catalog eb cur len q) : DecodesRun c p eb cur len ds q := by
  induction h with
  | done cur => exact .done cur
  | block cur len d ds m q hlen hreads _ ih =>
    obtain ⟨us, hd⟩ := decOf_of_reads hcat heb hreads
    rcases hbuild with hnat | hcan
    · exact .block cur len _ ds q hlen hd (accepts_of_natural hnat c eb cur _) (ih (.inl hnat))
    · obtain ⟨hacc, hrest⟩ := canonicalRun_split hcat heb hlen hd hcan
      exact .block cur len _ ds q hlen hd hacc (ih (.inr hrest))

end

/-- A decode step on a block the build accepts, with room for it in `LOUT`. -/
theorem exec_seqDstep_of_accepts {c : Codec} {s : State} {d : Decoded} (hf : s.fault = .noFault) (hrem : s.rem ≠ 0)
    (hc : s.codec = codecNumber c) (hd : decOf c s.params.catalog s.eb s.cur.toNat s.stepSize = .ok d)
    (hacc : Accepts c s.params s.eb s.cur.toNat d) (hroom : s.lout.length + s.stepSize ≤ s.params.loutCap) :
    exec .seqDstep s = .next (s.commitDecodeStep d) := by
  rw [exec_seqDstep hf, decodeStep_eq_withDecoded hrem hc, withDecoded_of_accepts hd hacc,
    finishDecodeStep_of_room hroom]

theorem State.rem_ne_zero {s : State} (h : 0 < s.rem.toNat) : s.rem ≠ 0 := fun hz => by
  rw [hz] at h
  exact absurd h (Nat.lt_irrefl 0)

theorem State.rem_eq_zero {s : State} (h : s.rem.toNat = 0) : s.rem = 0 := BitVec.eq_of_toNat_eq h

/-- The decode steps of a run, one per block. -/
theorem iterates_decodesRun {c : Codec} {p : Params} {eb : Memory} {cur len q : Nat} {ds : List Word}
    (h : DecodesRun c p eb cur len ds q) (hq : q < 2 ^ 32) : ∀ {s : State}, s.params = p → s.eb = eb →
      s.cur.toNat = cur → s.rem.toNat = len → s.fault = .noFault → s.codec = codecNumber c →
      s.lout.length + len ≤ s.params.loutCap →
      ∃ k out sc, Iterates .seqDstep k s { s with
          outBuf := out, cur := BitVec.ofNat 32 q, lout := s.lout ++ ds, rem := 0, scratch := sc } ∧
        SlotsAfterRun s.outBuf out ds := by
  induction h with
  | done cur =>
    rintro s rfl rfl rfl hrem hf hc -
    refine ⟨0, s.outBuf, s.scratch, ?_, slotsAfterRun_nil_iff.2 rfl⟩
    rw [BitVec.ofNat_toNat, BitVec.setWidth_eq, List.append_nil, ← State.rem_eq_zero hrem]
    exact .none s
  | block cur len d ds q hlen hd hacc hrest ih =>
    rintro s rfl rfl rfl rfl hf hc hroom
    have hpast : d.past < 2 ^ 32 := by
      have := hrest.past
      omega
    have hvals : d.vals.length = min 128 s.rem.toNat := decOf_vals_length hd
    have hstep := exec_seqDstep_of_accepts hf (State.rem_ne_zero hlen) hc hd hacc
      ((Nat.add_le_add_left s.stepSize_le_rem _).trans hroom)
    obtain ⟨k, out, sc, hiter, hslots⟩ := ih hq (s := s.commitDecodeStep d) (by simp) (by simp)
      (by rw [State.commitDecodeStep_cur, BitVec.toNat_ofNat, Nat.mod_eq_of_lt hpast])
      (by rw [State.commitDecodeStep_rem, State.toNat_rem_sub_stepSize])
      (by rw [State.commitDecodeStep_fault, hf]) (by rw [State.commitDecodeStep_codec, hc])
      (by rw [State.commitDecodeStep_lout, State.commitDecodeStep_params, List.length_append]; omega)
    rw [State.commitDecodeStep_outBuf] at hslots
    refine ⟨k + 1, out, sc, .more k s _ _ (State.rem_ne_zero hlen) hf hstep ?_,
      slotsAfterRun_block (by omega) (fun hlt => ?_) hslots⟩
    · rw [State.commitDecodeStep_lout, List.append_assoc] at hiter
      rw [State.commitDecodeStep, State.writeDecoded] at hiter ⊢
      exact hiter
    · rw [← List.length_eq_zero_iff, hrest.length]
      omega

/-- A decode run over a list that stands in the buffer, accepted by the build and with room in `LOUT`. -/
theorem exec_seqDrun_of_decodesRun {c : Codec} {s : State} {ds : List Word} {q : Nat} (hf : s.fault = .noFault)
    (hc : s.codec = codecNumber c) (h : DecodesRun c s.params s.eb s.cur.toNat s.rem.toNat ds q) (hq : q < 2 ^ 32)
    (hroom : s.lout.length + s.rem.toNat ≤ s.params.loutCap) :
    ∃ out sc, exec .seqDrun s = .next { s with
        outBuf := out, cur := BitVec.ofNat 32 q, lout := s.lout ++ ds, rem := 0, scratch := sc } ∧
      SlotsAfterRun s.outBuf out ds := by
  obtain ⟨k, out, sc, hiter, hslots⟩ := iterates_decodesRun h hq rfl rfl rfl rfl hf hc hroom
  exact ⟨out, sc, (runsFollowTheirSteps k s _ hf).1 hiter (.inl rfl), hslots⟩

/-- Settles O46: `Dec` answers the blocks that stand there, and the build accepts each of them. -/
theorem decodeRunCompletes : Obligations.DecodeRunCompletes := by
  intro c s ds q hinv hf hc hreads hbuild hroom
  have hrun := decodesRun_of_readsRun hinv.params.2.2.2 hinv.ebWf hreads hbuild
  have hq : q < 2 ^ 32 := by
    have hpast := hrun.past
    have hcur := s.cur.isLt
    have hfits := hinv.ebFits
    have hcap := hinv.params.1.2
    omega
  exact exec_seqDrun_of_decodesRun hf hc hrun hq hroom

end Sys2Proof.Machine
end

section
/-! Encode runs (R209): the values a run still has to encode are cut into chunks of 128, one for each step, and the
blocks of the chunks are appended one after another. -/

namespace Sys2Proof.Machine

open Sys2Proof.Terms

/-! Appending twice. -/

theorem cellsFrom_append (a : Nat) (bs cs : List Byte) :
    cellsFrom a (bs ++ cs) = cellsFrom a bs ++ cellsFrom (a + bs.length) cs := by
  induction bs generalizing a with
  | nil => rfl
  | cons b bs ih =>
    have hnext : a + 1 + bs.length = a + (b :: bs).length := by
      rw [List.length_cons]
      omega
    rw [List.cons_append, cellsFrom, cellsFrom, ih, hnext, List.cons_append]

theorem Memory.append_append (m : Memory) (bs cs : List Byte) : (m.append bs).append cs = m.append (bs ++ cs) := by
  have hlen := m.append_length bs
  rw [Memory.append, hlen, Memory.append, Memory.append, cellsFrom_append, List.append_assoc]

/-! The values of a run. -/

/-- The values an encode run from this state takes: `REM` values of `LIN` from `LRP` on, as far as they exist. -/
def State.runValues (s : State) : List Word := (s.lin.drop s.lrp.toNat).take s.rem.toNat

theorem State.runValues_length {s : State} (h : s.lrp.toNat + s.rem.toNat ≤ s.lin.length) :
    s.runValues.length = s.rem.toNat := by
  rw [State.runValues, List.length_take_of_le]
  rw [List.length_drop]
  omega

/-- The first chunk of a run is the step's. -/
theorem State.runValues_take (s : State) : s.runValues.take 128 = s.chunk s.stepSize := by
  rw [State.runValues, State.chunk, List.take_take]
  rfl

section
variable {s : State} (hinv : s.Inv) (hlist : s.lrp.toNat + s.stepSize ≤ s.lin.length) (bs : List Byte)
include hinv hlist

/-- A step's chunk lies in `LIN`, so raising `LRP` does not wrap. -/
theorem State.commitEncodeStep_lrp_toNat : (s.commitEncodeStep bs).lrp.toNat = s.lrp.toNat + s.stepSize := by
  have hfits := hinv.linFits
  have hcap := hinv.params.2.1
  rw [State.commitEncodeStep_eq, BitVec.toNat_ofNat, Nat.mod_eq_of_lt (by omega)]

/-- The other chunks of a run are those of the state its first step leads to. -/
theorem State.runValues_drop : s.runValues.drop 128 = (s.commitEncodeStep bs).runValues := by
  have hle := s.stepSize_eq
  rw [State.runValues, State.runValues, State.commitEncodeStep_lrp_toNat hinv hlist bs, State.commitEncodeStep_rem,
    State.toNat_rem_sub_stepSize, State.commitEncodeStep_lin, List.drop_take, List.drop_drop]
  rcases Nat.le_total s.rem.toNat 128 with hsmall | hbig
  · rw [show s.rem.toNat - 128 = 0 by omega, show s.rem.toNat - min 128 s.rem.toNat = 0 by omega, List.take_zero,
      List.take_zero]
  · rw [show s.stepSize = 128 by omega, show s.rem.toNat - min 128 s.rem.toNat = s.rem.toNat - 128 by omega]

end

theorem encodesRun_nil {c : Codec} {cat : Catalog} {bs : List Byte} (h : EncodesRun c cat [] bs) : bs = [] := by
  cases h with
  | done => rfl
  | block _ _ _ hne => exact absurd rfl hne

theorem exists_encodesRun {c : Codec} {cat : Catalog} (h : cat.wf) (v : List Word) (hv : Encodable c cat v) :
    ∃ bs, EncodesRun c cat v bs := by
  rcases eq_or_ne v [] with rfl | hne
  · exact ⟨[], .done⟩
  · have hshorter : (v.drop 128).length < v.length := by
      have hpos := List.length_pos_iff.2 hne
      rw [List.length_drop]
      omega
    obtain ⟨bs, hbs⟩ := exists_encodesTo h (v := v.take 128) fun hc x hx => hv hc x (List.mem_of_mem_take hx)
    obtain ⟨cs, hcs⟩ := exists_encodesRun h (v.drop 128) fun hc x hx => hv hc x (List.mem_of_mem_drop hx)
    exact ⟨bs ++ cs, .block v bs cs hne hbs hcs⟩
termination_by v.length

/-- The last chunk of a list is the list when it is one chunk, and else that of what follows its first chunk. -/
theorem lastChunk_of_le {v : List Word} (h : v.length ≤ 128) : v.drop ((v.length - 1) / 128 * 128) = v := by
  rw [show (v.length - 1) / 128 * 128 = 0 by omega, List.drop_zero]

theorem lastChunk_of_gt {v : List Word} (h : 128 < v.length) : v.drop ((v.length - 1) / 128 * 128) =
    (v.drop 128).drop (((v.drop 128).length - 1) / 128 * 128) := by
  rw [List.drop_drop, List.length_drop]
  congr 1
  omega

/-! The steps of a run. -/

/-- An encode step whose chunk lies in `LIN` and whose bytes fit. -/
theorem exec_seqEstep_of_fits {c : Codec} {s : State} {bs : List Byte} (hf : s.fault = .noFault) (hrem : s.rem ≠ 0)
    (hc : s.codec = codecNumber c) (hlist : s.lrp.toNat + s.stepSize ≤ s.lin.length)
    (henc : encOf c s.params.catalog (s.chunk s.stepSize) = .ok bs)
    (hfit : s.eb.length + bs.length ≤ s.params.ebCap) : exec .seqEstep s = .next (s.commitEncodeStep bs) := by
  rw [exec_seqEstep hf, encodeStep_eq_withEncoded hrem hc hlist, withEncoded_of_fits henc hfit]

/-- The state an encode run of the values `v` leads to when it appends `bs`, with `inb` left in `IN` and `sc` in
scratch. -/
def State.afterEncodeRun (s : State) (v : List Word) (bs : List Byte) (inb : Vector Word 128) (sc : Scratch) : State :=
  { s with
    inBuf := inb
    sum := BitVec.ofNat 32 (total (v.drop ((v.length - 1) / 128 * 128)))
    eb := s.eb.append bs
    lrp := BitVec.ofNat 32 (s.lrp.toNat + v.length)
    rem := 0
    scratch := sc }

/-- A run of one chunk is one step. -/
theorem State.commitEncodeStep_last {s : State} (hlist : s.lrp.toNat + s.rem.toNat ≤ s.lin.length)
    (hlast : s.rem.toNat ≤ 128) (bs : List Byte) : s.commitEncodeStep bs =
      s.afterEncodeRun s.runValues bs (overwrite s.inBuf s.runValues)
        { s.scratch with stg := overwrite s.scratch.stg bs } := by
  have hlen := State.runValues_length hlist
  have hsize : s.stepSize = s.rem.toNat := by rw [s.stepSize_eq, Nat.min_eq_right hlast]
  have hall : s.chunk s.stepSize = s.runValues := by
    rw [← State.runValues_take, List.take_of_length_le (hlen.trans_le hlast)]
  rw [State.afterEncodeRun, lastChunk_of_le (hlen.trans_le hlast), hlen, State.commitEncodeStep_eq, hall, hsize,
    Nat.sub_self]
  rfl

/-- A run of more than one chunk is a step and the run from where it leads. -/
theorem State.afterEncodeRun_commitEncodeStep {s : State} (hinv : s.Inv)
    (hlist : s.lrp.toNat + s.rem.toNat ≤ s.lin.length) (hmore : 128 < s.rem.toNat) (bs cs : List Byte)
    (inb : Vector Word 128) (sc : Scratch) :
    (s.commitEncodeStep bs).afterEncodeRun (s.runValues.drop 128) cs inb sc =
      s.afterEncodeRun s.runValues (bs ++ cs) inb sc := by
  have hlen := State.runValues_length hlist
  have hsize : s.stepSize = 128 := by rw [s.stepSize_eq, Nat.min_eq_left hmore.le]
  have hlrp : (s.commitEncodeStep bs).lrp.toNat + (s.runValues.drop 128).length =
      s.lrp.toNat + s.runValues.length := by
    rw [State.commitEncodeStep_lrp_toNat hinv (by omega), hsize, List.length_drop]
    omega
  rw [State.afterEncodeRun, State.afterEncodeRun, hlrp, lastChunk_of_gt (v := s.runValues) (by omega)]
  simp [Memory.append_append]

/-- The encode steps of a run over encodable values that fit, one per chunk. -/
theorem iterates_encodesRun {c : Codec} {cat : Catalog} {v : List Word} {bs : List Byte} (h : EncodesRun c cat v bs) :
    ∀ {s : State}, s.Inv → s.params.catalog = cat → s.runValues = v → s.rem ≠ 0 →
      s.lrp.toNat + s.rem.toNat ≤ s.lin.length → s.fault = .noFault → s.codec = codecNumber c →
      s.eb.length + bs.length ≤ s.params.ebCap →
      ∃ k inb sc, Iterates .seqEstep k s (s.afterEncodeRun v bs inb sc) ∧ SlotsAfterRun s.inBuf inb v := by
  induction h with
  | done =>
    intro s _ _ hnil hrem hlist
    have hlen := State.runValues_length hlist
    rw [hnil] at hlen
    exact absurd (State.rem_eq_zero hlen.symm) hrem
  | block v bs cs _ henc hrun ih =>
    rintro s hinv rfl rfl hrem hlist hf hc hfit
    have hlen := State.runValues_length hlist
    have hsize := s.stepSize_eq
    have hstepList : s.lrp.toNat + s.stepSize ≤ s.lin.length := by omega
    rw [List.length_append] at hfit
    have hok := encOf_of_encodesTo hinv.params.2.2.2 henc
    rw [State.runValues_take] at hok
    have hstep := exec_seqEstep_of_fits hf hrem hc hstepList hok (by omega)
    by_cases hlast : s.rem.toNat ≤ 128
    · rw [List.drop_of_length_le (hlen.trans_le hlast)] at hrun
      obtain rfl := encodesRun_nil hrun
      rw [State.commitEncodeStep_last hlist hlast] at hstep
      rw [List.append_nil]
      exact ⟨1, _, _, .more 0 s _ _ hrem hf hstep (.none _), slotsAfterRun_single (hlen.trans_le hlast) s.inBuf⟩
    · have hmore : 128 < s.rem.toNat := Nat.not_le.1 hlast
      have hremNext := s.toNat_rem_sub_stepSize
      rw [← State.commitEncodeStep_rem s bs] at hremNext
      obtain ⟨k, inb, sc, hiter, hslots⟩ := ih (s := s.commitEncodeStep bs) (exec_keeps_inv hinv hstep) (by simp)
        (State.runValues_drop hinv hstepList bs).symm (State.rem_ne_zero (by omega))
        (by rw [State.commitEncodeStep_lrp_toNat hinv hstepList, State.commitEncodeStep_lin]; omega)
        (by rw [State.commitEncodeStep_fault, hf]) (by rw [State.commitEncodeStep_codec, hc])
        (by rw [State.commitEncodeStep_eb, State.commitEncodeStep_params, Memory.append_length]; omega)
      rw [State.afterEncodeRun_commitEncodeStep hinv hlist hmore] at hiter
      rw [State.commitEncodeStep_inBuf, ← State.runValues_take] at hslots
      refine ⟨k + 1, inb, sc, .more k s _ _ hrem hf hstep hiter, ?_⟩
      have hblock := slotsAfterRun_block (by rw [List.length_take]; omega)
        (fun hlt => by rw [List.length_take] at hlt; omega) hslots
      rwa [List.take_append_drop] at hblock

/-- Settles O47: the blocks of encodable values exist, and the run's steps append them. -/
theorem encodeRunCompletes : Obligations.EncodeRunCompletes := by
  intro c s v hinv hf hc hrem hlist hv
  refine ⟨exists_encodesRun hinv.params.2.2.2 v, fun bs hrun hfit => ?_⟩
  obtain ⟨k, inb, sc, hiter, hslots⟩ := iterates_encodesRun hrun hinv rfl hv.symm hrem hlist hf hc hfit
  exact ⟨inb, _, sc, (runsFollowTheirSteps k s _ hf).2.1 hiter (.inl rfl), hslots, appended_append hinv.ebWf bs⟩

/-! What a completed run did. -/

theorem iterates_fault_of_end {i : Instr} {k : Nat} {s t : State} (h : Iterates i k s t) (ht : t.fault = .noFault) :
    s.fault = .noFault := by
  cases h with
  | none => exact ht
  | more k _ u _ _ hf => exact hf

theorem codecNumber_injective : Function.Injective codecNumber := fun c c' h => by
  have hcodec := codecOf_codecNumber c
  rw [h, codecOf_codecNumber] at hcodec
  exact (Option.some.inj hcodec).symm

/-- A run that ended without a fault took all its values and appended the blocks of their chunks. -/
theorem encodesRun_of_iterates {k : Nat} {s t : State} (h : Iterates .seqEstep k s t) :
    ∀ {c : Codec}, s.Inv → s.codec = codecNumber c → t.fault = .noFault → t.rem = 0 →
      s.runValues.length = s.rem.toNat ∧
      ∃ bs, EncodesRun c s.params.catalog s.runValues bs ∧ t.eb = s.eb.append bs := by
  induction h with
  | none s =>
    intro c hinv hc hf hrem
    have hnil : s.runValues = [] := by
      rw [State.runValues, hrem]
      exact List.take_zero
    rw [hnil, hrem]
    exact ⟨rfl, [], .done, (List.append_nil _).symm⟩
  | more k s u t hrem hf hstep hrest ih =>
    intro c hinv hc ht hdone
    obtain ⟨c', bs, hc', hlist, henc, rfl⟩ :=
      encodeStep_completes ((exec_seqEstep hf).symm.trans hstep) (iterates_fault_of_end hrest ht)
    obtain rfl := codecNumber_injective (hc.symm.trans hc')
    obtain ⟨hlen, cs, hrun, heb⟩ := ih (exec_keeps_inv hinv hstep)
      ((State.commitEncodeStep_codec s bs).trans hc) ht hdone
    rw [← State.runValues_drop hinv hlist bs, State.commitEncodeStep_rem, State.toNat_rem_sub_stepSize] at hlen
    rw [← State.runValues_drop hinv hlist bs, State.commitEncodeStep_params] at hrun
    have hchunk := State.chunk_length hlist
    have hpos : 0 < s.rem.toNat := Nat.pos_of_ne_zero fun h => hrem (State.rem_eq_zero h)
    rw [← State.runValues_take, List.length_take, s.stepSize_eq] at hchunk
    rw [List.length_drop] at hlen
    have hne : s.runValues ≠ [] := List.length_pos_iff.1 (by omega)
    refine ⟨by omega, bs ++ cs, .block _ bs cs hne ?_ hrun, ?_⟩
    · rw [State.runValues_take]
      exact encodesTo_of_encOf hinv.params.2.2.2 henc
    · rw [heb, State.commitEncodeStep_eb, Memory.append_append]

/-- A run that is not empty and ends without a fault dispatched on a codec. -/
theorem codec_of_iterates {k : Nat} {s t : State} (h : Iterates .seqEstep k s t) (ht : t.fault = .noFault)
    (hdone : t.rem = 0) : s.rem = 0 ∨ ∃ c, s.codec = codecNumber c := by
  cases h with
  | none => exact .inl hdone
  | more k _ u _ hrem hf hstep hrest =>
    obtain ⟨c, -, hc, -⟩ := encodeStep_completes ((exec_seqEstep hf).symm.trans hstep) (iterates_fault_of_end hrest ht)
    exact .inr ⟨c, hc⟩

/-- The steps of a completed encode run. -/
theorem iterates_of_seqErun {s t : State} (hf : s.fault = .noFault) (h : exec .seqErun s = .next t)
    (ht : t.fault = .noFault) : ∃ k, Iterates .seqEstep k s t ∧ t.rem = 0 := by
  obtain ⟨k, -, hiter, hend⟩ := (runsTerminate s t hf).2 h
  exact ⟨k, hiter, hend.resolve_right fun hnot => hnot ht⟩

theorem iterates_eq_of_done {i : Instr} {k : Nat} {s t : State} (h : Iterates i k s t) (hrem : s.rem = 0) : t = s := by
  cases h with
  | none => rfl
  | more k _ u _ hne => exact absurd hrem hne

/-- Settles O49: the encode run appended the blocks of all its values, and those bytes, still held, are decoded whole in
every build. -/
theorem listRoundTrip : Obligations.ListRoundTrip := by
  intro s t u hinv hf h ht huf huparams huw hpre hcur hcodec hrem hroom
  obtain ⟨k, hiter, hdone⟩ := iterates_of_seqErun hf h ht
  rcases codec_of_iterates hiter ht hdone with hzero | ⟨c, hc⟩
  · obtain rfl := iterates_eq_of_done hiter hzero
    refine ⟨u, (emptyRunDoesNothing u (hrem.trans hzero)).1, huf, hrem.trans hzero, hcur, ?_⟩
    rw [hzero]
    exact (List.append_nil _).symm
  · obtain ⟨hlen, bs, hrun, heb⟩ := encodesRun_of_iterates hiter hinv hc ht hdone
    obtain ⟨-, -, htparams, -, -⟩ := commandsNeverTouch _ _ _ h
    have hparams : u.params = s.params := huparams.trans htparams
    have hholds : u.eb.Holds u.cur.toNat bs := by
      rw [hcur]
      exact (Memory.holds_append hinv.ebWf bs).of_prefix huw (heb ▸ hpre)
    have hdecodes := decodesRun_of_encodesRun (p := u.params) (hparams ▸ hinv.params.2.2.2) (hparams ▸ hrun) hholds
    have hend : u.cur.toNat + bs.length = t.eb.length := by rw [hcur, heb, Memory.append_length]
    have hq : t.eb.length < 2 ^ 32 := by
      have htinv := exec_keeps_inv hinv h
      have hfits := htinv.ebFits
      have hcap := htinv.params.1.2
      omega
    rw [hlen, ← hrem, hend] at hdecodes
    obtain ⟨out, sc, hexec, -⟩ := exec_seqDrun_of_decodesRun huf (hcodec.trans hc) hdecodes hq hroom
    refine ⟨_, hexec, huf, rfl, ?_, rfl⟩
    exact (BitVec.toNat_ofNat _ _).trans (Nat.mod_eq_of_lt hq)

/-- The first step of a completed run that is not empty. -/
theorem firstStep_of_iterates {k : Nat} {s t : State} (h : Iterates .seqEstep k s t) (hinv : s.Inv) (hrem : s.rem ≠ 0)
    (ht : t.fault = .noFault) (hdone : t.rem = 0) : ∃ j u, exec .seqEstep s = .next u ∧ u.fault = .noFault ∧
      u.rem.toNat = s.rem.toNat - min 128 s.rem.toNat ∧ u.lrp.toNat = s.lrp.toNat + min 128 s.rem.toNat ∧
      Iterates .seqEstep j u t := by
  cases h with
  | none => exact absurd hdone hrem
  | more j _ u _ _ hf hstep hrest =>
    have hu := iterates_fault_of_end hrest ht
    obtain ⟨c, bs, -, hlist, -, rfl⟩ := encodeStep_completes ((exec_seqEstep hf).symm.trans hstep) hu
    exact ⟨j, _, hstep, hu, lowersRem_seqEstep s _ hf hstep hu, State.commitEncodeStep_lrp_toNat hinv hlist bs, hrest⟩

/-- Settles O50: the run is one step from 130 and one from 2, and its list comes back by the round trip. -/
theorem partialFinalBlock : Obligations.PartialFinalBlock := by
  intro s t u hinv hf hrem h ht huf huparams huw hpre hcur hcodec hurem hroom
  obtain ⟨k, hiter, hdone⟩ := iterates_of_seqErun hf h ht
  have hrem130 : s.rem.toNat = 130 := by rw [hrem]; rfl
  obtain ⟨j, m, hfirst, hmf, hmrem, hmlrp, hrest⟩ :=
    firstStep_of_iterates hiter hinv (State.rem_ne_zero (by omega)) ht hdone
  have hminv := exec_keeps_inv hinv hfirst
  have hm2 : m.rem.toNat = 2 := by omega
  obtain ⟨j', n, hsecond, hnf, hnrem, hnlrp, hrest'⟩ :=
    firstStep_of_iterates hrest hminv (State.rem_ne_zero (by omega)) ht hdone
  obtain rfl := iterates_eq_of_done hrest' (State.rem_eq_zero (by omega))
  have hurem130 : u.rem.toNat = 130 := by rw [hurem]; rfl
  obtain ⟨u', hdrun, hu'f, hu'rem, hu'cur, hu'lout⟩ := listRoundTrip s t u hinv hf h ht huf huparams huw hpre hcur
    hcodec (hurem.trans hrem.symm) (by omega)
  rw [hrem130] at hu'lout
  exact ⟨m, u', hfirst, hmf, BitVec.eq_of_toNat_eq hm2, by omega, hsecond, hdone, by omega, hdrun, hu'f, hu'rem, hu'cur,
    hu'lout⟩

end Sys2Proof.Machine
end
